-- ==== Sys2Proof/Word.lean ====
section
/-! DEFINITION. The word types of the block and the two-valued destination select
(spec 00_scope.md R5, R6, R7; 30_encoding.md R106, R107). Every width is fixed, so the types are plain
`BitVec`s of that width; bit 0 is the least significant bit of every value (R6). -/

namespace Sys2Proof

/-- W and every register-file byte (R5 `W_WIDTH`). -/
abbrev Byte := BitVec 8

/-- An instruction word (R5 `INSN_WIDTH`). -/
abbrev InsnWord := BitVec 14

/-- A program counter value or return-stack entry (R5 `PC_WIDTH`, `STACK_WIDTH`). -/
abbrev ProgAddr := BitVec 13

/-- A 9-bit full register-file address: bank in bits 8:7, offset in bits 6:0 (R7). It also names the
storage cell `Cell(b, o)` at that bank and offset (20_memory.md R70). -/
abbrev RegAddr := BitVec 9

/-- A register-file bank (R5 `RAM_BANKS` = 4). -/
abbrev Bank := BitVec 2

/-- The file field of an instruction, and the offset part of a full address. -/
abbrev FileField := BitVec 7

/-- The bit number of a bit-oriented instruction (30_encoding.md R102). -/
abbrev BitNumber := BitVec 3

/-- The destination bit d of a byte-oriented instruction (30_encoding.md R106). -/
inductive Dest where
  /-- d = 0: the result goes to W. -/
  | toW
  /-- d = 1: the result goes back to file register f. -/
  | toF
  deriving DecidableEq, Repr

/-- The full address `bank : offset` (R7). -/
def fullAddr (b : Bank) (o : FileField) : RegAddr := b ++ o

/-- The bank part `a[8:7]` of a full address (20_memory.md R71). -/
def bankOf (a : RegAddr) : Bank := a.extractLsb' 7 2

/-- The offset part `a[6:0]` of a full address (20_memory.md R71). -/
def offsetOf (a : RegAddr) : FileField := a.extractLsb' 0 7

/-- A one-bit value as a bit vector. -/
def bit (b : Bool) : BitVec 1 := BitVec.ofBool b

end Sys2Proof
end

