-- ==== Sys2Proof/Syntax.lean ====
section
/-! DEFINITION. The 35 instructions of Table E1 (spec 30_encoding.md R111), one constructor per row of
spec/opcode_table.json. Operands are the unsigned fields of R107. The don't-care bits of CLRW, MOVLW, RETLW,
ADDLW and SUBLW are no operands: every value of them decodes to the same instruction (R108). -/

namespace Sys2Proof

/-- An instruction of the block (R111). -/
inductive Instr where
  -- byte-oriented file-register operations (40_file_alu.md)
  | addwf (d : Dest) (f : FileField)
  | andwf (d : Dest) (f : FileField)
  | clrf (f : FileField)
  | clrw
  | comf (d : Dest) (f : FileField)
  | decf (d : Dest) (f : FileField)
  | decfsz (d : Dest) (f : FileField)
  | incf (d : Dest) (f : FileField)
  | incfsz (d : Dest) (f : FileField)
  | iorwf (d : Dest) (f : FileField)
  | movf (d : Dest) (f : FileField)
  | movwf (f : FileField)
  | rlf (d : Dest) (f : FileField)
  | rrf (d : Dest) (f : FileField)
  | subwf (d : Dest) (f : FileField)
  | swapf (d : Dest) (f : FileField)
  | xorwf (d : Dest) (f : FileField)
  -- literal operations (41_literal.md)
  | movlw (k : Byte)
  | addlw (k : Byte)
  | sublw (k : Byte)
  | andlw (k : Byte)
  | iorlw (k : Byte)
  | xorlw (k : Byte)
  | retlw (k : Byte)
  -- bit operations (42_bit.md)
  | bcf (b : BitNumber) (f : FileField)
  | bsf (b : BitNumber) (f : FileField)
  | btfsc (b : BitNumber) (f : FileField)
  | btfss (b : BitNumber) (f : FileField)
  -- control flow and system instructions (43_control.md)
  | call (k : BitVec 11)
  | goto (k : BitVec 11)
  | ret
  | retfie
  | sleep
  | clrwdt
  | nop
  deriving DecidableEq, Repr

end Sys2Proof
end

