-- ==== Sys2Proof/Decode.lean ====
section
/-! DEFINITION. The decoder and the encoder (spec 30_encoding.md). Table E1 is a list of descriptors (R111);
`lookup` finds the unique row whose significant high bits equal those of the word, and `Trie.find` is the
binary-tree walk of R109 and R110 that gives the same answer. Every operand is an unsigned field (R107). A word
that no row matches is rejected by name (R112). -/

namespace Sys2Proof

/-- The mnemonics of Table E1 (R111). -/
inductive Opcode where
  | addwf | andwf | clrf | clrw | comf | decf | decfsz | incf | incfsz
  | iorwf | movf | movwf | rlf | rrf | subwf | swapf | xorwf | movlw
  | addlw | sublw | andlw | iorlw | xorlw | retlw | bcf | bsf | btfsc
  | btfss | call | goto | ret | retfie | sleep | clrwdt | nop
  deriving DecidableEq, Repr

/-- An instruction descriptor: the pattern with its don't-care and operand bits zero, and the number of
significant high bits (R109). -/
structure Descriptor where
  opcode : Opcode
  pattern : InsnWord
  bits : Nat
  deriving DecidableEq, Repr

/-- The byte-oriented rows of Table E1 (R101, R111). -/
def tableE1Byte : List Descriptor :=
  [ ⟨.addwf, 0b00011100000000#14, 6⟩,
    ⟨.andwf, 0b00010100000000#14, 6⟩,
    ⟨.clrf, 0b00000110000000#14, 7⟩,
    ⟨.clrw, 0b00000100000000#14, 7⟩,
    ⟨.comf, 0b00100100000000#14, 6⟩,
    ⟨.decf, 0b00001100000000#14, 6⟩,
    ⟨.decfsz, 0b00101100000000#14, 6⟩,
    ⟨.incf, 0b00101000000000#14, 6⟩,
    ⟨.incfsz, 0b00111100000000#14, 6⟩,
    ⟨.iorwf, 0b00010000000000#14, 6⟩,
    ⟨.movf, 0b00100000000000#14, 6⟩,
    ⟨.movwf, 0b00000010000000#14, 7⟩,
    ⟨.rlf, 0b00110100000000#14, 6⟩,
    ⟨.rrf, 0b00110000000000#14, 6⟩,
    ⟨.subwf, 0b00001000000000#14, 6⟩,
    ⟨.swapf, 0b00111000000000#14, 6⟩,
    ⟨.xorwf, 0b00011000000000#14, 6⟩ ]

/-- The literal rows of Table E1 (R103, R111). -/
def tableE1Literal : List Descriptor :=
  [ ⟨.movlw, 0b11000000000000#14, 4⟩,
    ⟨.addlw, 0b11111000000000#14, 5⟩,
    ⟨.sublw, 0b11110000000000#14, 5⟩,
    ⟨.andlw, 0b11100100000000#14, 6⟩,
    ⟨.iorlw, 0b11100000000000#14, 6⟩,
    ⟨.xorlw, 0b11101000000000#14, 6⟩,
    ⟨.retlw, 0b11010000000000#14, 4⟩ ]

/-- The bit-oriented rows of Table E1 (R102, R111). -/
def tableE1Bit : List Descriptor :=
  [ ⟨.bcf, 0b01000000000000#14, 4⟩,
    ⟨.bsf, 0b01010000000000#14, 4⟩,
    ⟨.btfsc, 0b01100000000000#14, 4⟩,
    ⟨.btfss, 0b01110000000000#14, 4⟩ ]

/-- The control-transfer and whole-word rows of Table E1 (R104, R105, R111). -/
def tableE1Control : List Descriptor :=
  [ ⟨.call, 0b10000000000000#14, 3⟩,
    ⟨.goto, 0b10100000000000#14, 3⟩,
    ⟨.ret, 0b00000000001000#14, 14⟩,
    ⟨.retfie, 0b00000000001001#14, 14⟩,
    ⟨.sleep, 0b00000001100011#14, 14⟩,
    ⟨.clrwdt, 0b00000001100100#14, 14⟩,
    ⟨.nop, 0b00000000000000#14, 14⟩ ]

/-- Table E1, the complete instruction set (R111). -/
def tableE1 : List Descriptor := tableE1Byte ++ tableE1Literal ++ tableE1Bit ++ tableE1Control

/-- `mask = ((1 << bits) - 1) << (14 - bits)` (R110). -/
def Descriptor.mask (r : Descriptor) : InsnWord := BitVec.ofNat 14 ((2 ^ r.bits - 1) * 2 ^ (14 - r.bits))

/-- The row's significant high bits equal those of the word: `(op & mask) == match` (R110). -/
def Descriptor.accepts (r : Descriptor) (op : InsnWord) : Bool := op &&& r.mask == r.pattern &&& r.mask

/-- `Lookup(op)` as the unique row of Table E1 that accepts the word; none is INVALID (R110). -/
def lookup (op : InsnWord) : Option Opcode := (tableE1.find? fun r => r.accepts op).map Descriptor.opcode

/-- The instruction's cycle count (Table E1 cycle column, R111; 70_reset_and_hazards.md R350). The extra cycle
of a taken skip is a phantom NOP of its own, not part of the count. -/
def Opcode.cycles : Opcode → Nat
  | .retlw | .call | .goto | .ret | .retfie => 2
  | .addwf | .andwf | .clrf | .clrw | .comf | .decf | .decfsz | .incf
  | .incfsz | .iorwf | .movf | .movwf | .rlf | .rrf | .subwf | .swapf
  | .xorwf | .movlw | .addlw | .sublw | .andlw | .iorlw | .xorlw | .bcf
  | .bsf | .btfsc | .btfss | .sleep | .clrwdt | .nop => 1

/-- The row of Table E1 an instruction belongs to. -/
def Instr.opcode : Instr → Opcode
  | .addwf _ _ => .addwf
  | .andwf _ _ => .andwf
  | .clrf _ => .clrf
  | .clrw => .clrw
  | .comf _ _ => .comf
  | .decf _ _ => .decf
  | .decfsz _ _ => .decfsz
  | .incf _ _ => .incf
  | .incfsz _ _ => .incfsz
  | .iorwf _ _ => .iorwf
  | .movf _ _ => .movf
  | .movwf _ => .movwf
  | .rlf _ _ => .rlf
  | .rrf _ _ => .rrf
  | .subwf _ _ => .subwf
  | .swapf _ _ => .swapf
  | .xorwf _ _ => .xorwf
  | .movlw _ => .movlw
  | .addlw _ => .addlw
  | .sublw _ => .sublw
  | .andlw _ => .andlw
  | .iorlw _ => .iorlw
  | .xorlw _ => .xorlw
  | .retlw _ => .retlw
  | .bcf _ _ => .bcf
  | .bsf _ _ => .bsf
  | .btfsc _ _ => .btfsc
  | .btfss _ _ => .btfss
  | .call _ => .call
  | .goto _ => .goto
  | .ret => .ret
  | .retfie => .retfie
  | .sleep => .sleep
  | .clrwdt => .clrwdt
  | .nop => .nop

/-- `ins.cycles` of the cycle step (45_execution_engine.md R234). -/
def Instr.cycles (i : Instr) : Nat := i.opcode.cycles

/-! ### Operand fields (R106, R107) -/

/-- `f = opcode[6:0]`. -/
def fieldF (op : InsnWord) : FileField := op.extractLsb' 0 7

/-- `b = opcode[9:7]`. -/
def fieldB (op : InsnWord) : BitNumber := op.extractLsb' 7 3

/-- `k8 = opcode[7:0]`. -/
def fieldK8 (op : InsnWord) : Byte := op.extractLsb' 0 8

/-- `k11 = opcode[10:0]`. -/
def fieldK11 (op : InsnWord) : BitVec 11 := op.extractLsb' 0 11

/-- The destination select d = `opcode[7]`: 0 is W, 1 is f (R106). -/
def fieldD (op : InsnWord) : Dest := if op.getLsbD 7 then .toF else .toW

/-- The instruction a word of the given row stands for: its operand fields, the don't-care bits ignored
(R107, R108). -/
def Opcode.build (o : Opcode) (op : InsnWord) : Instr :=
  match o with
  | .addwf => .addwf (fieldD op) (fieldF op)
  | .andwf => .andwf (fieldD op) (fieldF op)
  | .clrf => .clrf (fieldF op)
  | .clrw => .clrw
  | .comf => .comf (fieldD op) (fieldF op)
  | .decf => .decf (fieldD op) (fieldF op)
  | .decfsz => .decfsz (fieldD op) (fieldF op)
  | .incf => .incf (fieldD op) (fieldF op)
  | .incfsz => .incfsz (fieldD op) (fieldF op)
  | .iorwf => .iorwf (fieldD op) (fieldF op)
  | .movf => .movf (fieldD op) (fieldF op)
  | .movwf => .movwf (fieldF op)
  | .rlf => .rlf (fieldD op) (fieldF op)
  | .rrf => .rrf (fieldD op) (fieldF op)
  | .subwf => .subwf (fieldD op) (fieldF op)
  | .swapf => .swapf (fieldD op) (fieldF op)
  | .xorwf => .xorwf (fieldD op) (fieldF op)
  | .movlw => .movlw (fieldK8 op)
  | .addlw => .addlw (fieldK8 op)
  | .sublw => .sublw (fieldK8 op)
  | .andlw => .andlw (fieldK8 op)
  | .iorlw => .iorlw (fieldK8 op)
  | .xorlw => .xorlw (fieldK8 op)
  | .retlw => .retlw (fieldK8 op)
  | .bcf => .bcf (fieldB op) (fieldF op)
  | .bsf => .bsf (fieldB op) (fieldF op)
  | .btfsc => .btfsc (fieldB op) (fieldF op)
  | .btfss => .btfss (fieldB op) (fieldF op)
  | .call => .call (fieldK11 op)
  | .goto => .goto (fieldK11 op)
  | .ret => .ret
  | .retfie => .retfie
  | .sleep => .sleep
  | .clrwdt => .clrwdt
  | .nop => .nop

/-- Why a word is rejected. -/
inductive DecodeError where
  /-- No row of Table E1 accepts the word: it is illegal and its fetch raises the decode fault (R112). -/
  | invalidOpcode (op : InsnWord)
  deriving DecidableEq, Repr

/-- What the decoder answers for a word. -/
inductive Decoded where
  | ok (i : Instr)
  | rejected (e : DecodeError)
  deriving DecidableEq, Repr

/-- The decoder: the looked-up row's instruction, or the word rejected by name (R110, R112). A pure function of
the word; no state changes how a word decodes (R114). -/
def decode (op : InsnWord) : Decoded :=
  match lookup op with
  | some o => .ok (o.build op)
  | none => .rejected (.invalidOpcode op)

/-! ### The dispatch trie (R109, R110) -/

/-- A binary tree keyed by successive high bits of the word. -/
inductive Trie where
  | absent
  | leaf (o : Opcode)
  | node (zero one : Trie)
  deriving DecidableEq, Repr

/-- The word's bits from bit 13 downwards. -/
def highBits (op : InsnWord) : List Bool := (List.range 14).map fun i => op.getLsbD (13 - i)

/-- Insert a descriptor at the node reached after exactly its significant bits (R109). -/
def Trie.insert (o : Opcode) : List Bool → Trie → Trie
  | [], _ => .leaf o
  | b :: bs, t =>
    let (zero, one) := match t with
      | .node z u => (z, u)
      | .absent | .leaf _ => (.absent, .absent)
    if b then .node zero (Trie.insert o bs one) else .node (Trie.insert o bs zero) one

/-- The trie is built once, from the rows of Table E1 (R109). -/
def dispatchTrie : Trie :=
  tableE1.foldl (fun t r => Trie.insert r.opcode ((highBits r.pattern).take r.bits) t) .absent

/-- `Lookup(op)` as the tree walk: shift out one bit at a time, branch; a missing branch is INVALID (R110). -/
def Trie.find : Trie → List Bool → Option Opcode
  | .leaf o, _ => some o
  | .absent, _ => none
  | .node _ _, [] => none
  | .node zero one, b :: bs => if b then one.find bs else zero.find bs

/-! ### The encoder -/

/-- The destination bit (R106). -/
def Dest.toBit : Dest → BitVec 1
  | .toW => 0#1
  | .toF => 1#1

/-- The word of an instruction, from the formats of R101 to R105 and the patterns of Table E1 (R111); a
don't-care bit is written 0 (R108). -/
def encode : Instr → InsnWord
  | .addwf d f => 0b000111#6 ++ d.toBit ++ f
  | .andwf d f => 0b000101#6 ++ d.toBit ++ f
  | .clrf f => 0b0000011#7 ++ f
  | .clrw => 0b00000100000000#14
  | .comf d f => 0b001001#6 ++ d.toBit ++ f
  | .decf d f => 0b000011#6 ++ d.toBit ++ f
  | .decfsz d f => 0b001011#6 ++ d.toBit ++ f
  | .incf d f => 0b001010#6 ++ d.toBit ++ f
  | .incfsz d f => 0b001111#6 ++ d.toBit ++ f
  | .iorwf d f => 0b000100#6 ++ d.toBit ++ f
  | .movf d f => 0b001000#6 ++ d.toBit ++ f
  | .movwf f => 0b0000001#7 ++ f
  | .rlf d f => 0b001101#6 ++ d.toBit ++ f
  | .rrf d f => 0b001100#6 ++ d.toBit ++ f
  | .subwf d f => 0b000010#6 ++ d.toBit ++ f
  | .swapf d f => 0b001110#6 ++ d.toBit ++ f
  | .xorwf d f => 0b000110#6 ++ d.toBit ++ f
  | .movlw k => 0b110000#6 ++ k
  | .addlw k => 0b111110#6 ++ k
  | .sublw k => 0b111100#6 ++ k
  | .andlw k => 0b111001#6 ++ k
  | .iorlw k => 0b111000#6 ++ k
  | .xorlw k => 0b111010#6 ++ k
  | .retlw k => 0b110100#6 ++ k
  | .bcf b f => 0b0100#4 ++ b ++ f
  | .bsf b f => 0b0101#4 ++ b ++ f
  | .btfsc b f => 0b0110#4 ++ b ++ f
  | .btfss b f => 0b0111#4 ++ b ++ f
  | .call k => 0b100#3 ++ k
  | .goto k => 0b101#3 ++ k
  | .ret => 0b00000000001000#14
  | .retfie => 0b00000000001001#14
  | .sleep => 0b00000001100011#14
  | .clrwdt => 0b00000001100100#14
  | .nop => 0b00000000000000#14

/-- The instruction the decoder reads from an opcode-table row's word of `nbits` bits. A flash word is one
14-bit word, and the loader masks what it loads to 14 bits (60_exceptions.md R323). -/
def decodeTableWord (nbits w : Nat) : Option Instr :=
  match decode (BitVec.ofNat 14 (w % 2 ^ nbits)) with
  | .ok i => some i
  | .rejected _ => none

end Sys2Proof
end

