-- ==== Sys2Proof/Config.lean ====
section
/-! DEFINITION. The parameters of the block (spec 00_scope.md R5) and the one free value
(70_reset_and_hazards.md R331, `GPR_RESET = unknown`). R5 makes the parameters arguments of the model: they
are held as plain data in `State.params`, no step changes them, and a statement about every state is a
statement about every parameter value. -/

namespace Sys2Proof

/-- `PC_MODEL`: where PC[12:8] lives (10_state.md R22, R23; decision D7). -/
inductive PcModel where
  /-- PC is synthesized from PCLATH[4:0] and PCL: the source's rule and the default. -/
  | pclathSynth
  /-- PC[12:8] is the hidden register PCH: the silicon's rule. -/
  | separatePch
  deriving DecidableEq, Repr

/-- `INTERRUPT_MODEL` (60_exceptions.md R270; decision D19). -/
inductive InterruptModel where
  /-- R271 to R277 apply: the default. -/
  | vectored
  /-- No interrupt is ever taken. -/
  | absent
  deriving DecidableEq, Repr

/-- `GPR_RESET`: what a general-purpose cell holds after reset (decision D17). -/
inductive GprReset where
  /-- Zero: the source's rule and the default. -/
  | zero
  /-- An unconstrained draw per cell. -/
  | unknown
  deriving DecidableEq, Repr

/-- The parameters of R5. `W_WIDTH`, `INSN_WIDTH`, `PC_WIDTH`, `STACK_DEPTH`, `STACK_WIDTH`, `RAM_BANKS`,
`BANK_SIZE` and `TOGGLES_PER_PHASE` have one value each and are built into the types and the clock;
`EEPROM_SIZE` is out of the block. -/
structure Params where
  /-- `FLASH_SIZE`, words of program memory; legal values 1024, 2048, 4096 (`Params.wf`). -/
  flashSize : Nat
  /-- `FLASH_FILL`, OPEN: what a flash word the image does not load holds. -/
  flashFill : InsnWord
  /-- `MAX_MEMORY`: bound on the linear address of a banked general-purpose location. -/
  maxMemory : Nat
  pcModel : PcModel
  interruptModel : InterruptModel
  gprReset : GprReset
  /-- `TMR0_WRITE_INHIBIT`, instruction cycles. -/
  tmr0WriteInhibit : Nat
  deriving DecidableEq, Repr

/-- The default parameter values of R5. DESIGN CHOICE (log entry 2): R5 leaves `FLASH_FILL` OPEN; this record
names 0x3FFF, the first of the two typical values decision D9 lists. -/
def Params.default : Params where
  flashSize := 2048
  flashFill := 0x3FFF#14
  maxMemory := 0x150
  pcModel := .pclathSynth
  interruptModel := .vectored
  gprReset := .zero
  tmr0WriteInhibit := 2

/-- FREE VALUE (log entry 3): under `GPR_RESET = unknown`, what the general-purpose cell with the given key
draws at the reset with the given number (R331; 93_implementation_defined.md U7: "one unconstrained draw per
cell, fixed until written"). It has no body: nothing constrains it. -/
opaque Config.gprDraw : Nat → Nat → Byte

end Sys2Proof
end

