-- ==== Sys2Proof/Machine/State.lean ====
section
/-! DEFINITION. The state of the block as plain data (spec 10_state.md R20 to R53), the reasons a step can stop,
and the power-on state. Fields marked MODEL'S OWN are not the spec's: they carry the host's inputs and outputs
of a tick and the counter of the free draws (log entries 3, 4, 5, 6). -/

namespace Sys2Proof.Machine

/-- The four phases of the instruction clock (10_state.md R48). -/
inductive Phase where
  | q1 | q2 | q3 | q4
  deriving DecidableEq, Repr

/-- The five monitored cells (20_memory.md R90). -/
inductive Monitored where
  | tmr0 | option | porta | intcon | status
  deriving DecidableEq, Repr

/-- A record of the notification queue (10_state.md R49). -/
inductive Record where
  /-- `notify(cell, old, new)`: a monitored cell was written (20_memory.md R90). -/
  | notify (cell : Monitored) (old new : Byte)
  /-- `clkout(phase, level)` (60_exceptions.md R301). -/
  | clkout (phase : Phase) (level : Bool)
  deriving DecidableEq, Repr

/-- An event name of the control queue (10_state.md R50; 60_exceptions.md R321). -/
inductive ControlEvent where
  | play | pause | next | back | reset
  /-- Any other name, `stop` among them (45_execution_engine.md R241). -/
  | other (name : String)
  deriving DecidableEq, Repr

/-- What the host hands over at a tick (60_exceptions.md R320): cells to write and control events to append. -/
structure HostInput where
  envWrites : List (RegAddr × Byte)
  controlEvents : List ControlEvent
  deriving DecidableEq, Repr

/-- The kind of a trace record (45_execution_engine.md R238). -/
inductive TraceKind where
  | exec | stall | interrupt
  deriving DecidableEq, Repr

/-- What the block emits to the host (60_exceptions.md R324). -/
inductive HostOutput where
  /-- A trace record `(kind, opcode, pc, sp, w)` (45_execution_engine.md R238). -/
  | trace (kind : TraceKind) (opcode : Option InsnWord) (pc : ProgAddr) (sp : BitVec 3) (w : Byte)
  /-- The fault report (60_exceptions.md R260). -/
  | faultReport (opcode : InsnWord) (pc : ProgAddr)
  /-- The Timer0 `Value(v)` event (60_exceptions.md R295). -/
  | timerValue (v : Byte)
  /-- The Timer0 `Overflow` event (60_exceptions.md R296). -/
  | timerOverflow
  /-- A STATUS change record `(old, changed, new)` (60_exceptions.md R324). -/
  | statusChange (old changed new : Byte)
  deriving DecidableEq, Repr

/-- The decode-fault latch's pair (10_state.md R33). -/
structure DecodeFault where
  opcode : InsnWord
  pc : ProgAddr
  deriving DecidableEq, Repr

/-- Timer0 state besides the TMR0 cell (10_state.md R47). -/
structure Timer0 where
  /-- `t0_presc`: the prescaler count of source edges. -/
  presc : BitVec 8
  /-- `t0_sync`: the synchronization flip-flop of the external source. -/
  sync : Bool
  /-- `t0_ra4_prev`: the last RA4 level Timer0 saw. -/
  ra4Prev : Bool
  /-- `t0_clk_prev`: the last CLKOUT level Timer0 saw. -/
  clkPrev : Bool
  /-- `t0_inhibit`: the increment-inhibit counter. -/
  inhibit : Nat
  deriving DecidableEq, Repr

/-- Clock generator state (10_state.md R48). -/
structure ClockGen where
  /-- `osc`: the oscillator line. -/
  osc : Bool
  phase : Phase
  /-- `clock_running`: cleared by a decode fault, set by reset. -/
  running : Bool
  deriving DecidableEq, Repr

/-- The machine (10_state.md). Memories are lists in the canonical form of `Store.wf` (Machine/Ops.lean). -/
structure State where
  /-- The parameters of 00_scope.md R5; no step changes them. -/
  params : Params
  /-- CONFIG, the 16-bit configuration word; no rule reads it (R46). -/
  configWord : BitVec 16
  /-- Flash program memory: word address and word (R45). -/
  flash : List (Nat × InsnWord)
  /-- The register-file array: the key of `Cell(b, o)` is b * 0x80 + o (20_memory.md R70). -/
  regs : List Host.Cell
  /-- W, the working register (R20). -/
  w : Byte
  /-- PCH, PC[12:8] when `PC_MODEL = separate_pch` (R23). -/
  pch : BitVec 5
  /-- STACK[0..7], the return stack (R25). -/
  stack : Vector ProgAddr 8
  /-- SP (R26). -/
  sp : BitVec 3
  /-- `pending_cycles` (R29). -/
  pendingCycles : Nat
  /-- `skip` (R30). -/
  skip : Bool
  /-- `paused` (R31). -/
  paused : Bool
  /-- `step_budget` (R32). -/
  stepBudget : Nat
  /-- `fault`, the decode-fault latch (R33). -/
  fault : Option DecodeFault
  /-- `sleeping` (R34). -/
  sleeping : Bool
  /-- `wake_one` (R34). -/
  wakeOne : Bool
  timer0 : Timer0
  clock : ClockGen
  /-- The notification queue, oldest first (R49). -/
  notifyQueue : List Record
  /-- The control queue, oldest first (R50). -/
  controlQueue : List ControlEvent
  /-- MODEL'S OWN: the inputs of the coming ticks, the next tick's first; past the end, both lists are empty
  (60_exceptions.md R320). -/
  hostInputs : List HostInput
  /-- MODEL'S OWN: what the last tick emitted to the host, in the order emitted (60_exceptions.md R312, R324). -/
  outputs : List HostOutput
  /-- MODEL'S OWN: how many resets have drawn general-purpose cells (`Config.gprDraw`). -/
  drawCount : Nat
  /-- MODEL'S OWN: some tick has run, so the image is constant (60_exceptions.md R323). -/
  started : Bool
  deriving DecidableEq, Repr

/-- A reason the machine stops with a fault. There is none: the one synchronous exception, the decode fault, is
latched in `State.fault` by a step that goes on (60_exceptions.md R260, R261), addressing failures are silent
(20_memory.md R92), and stack overflow and underflow raise nothing (10_state.md R27, R28). -/
inductive Fault where
  deriving DecidableEq, Repr

/-- A reason a step has no meaning. -/
inductive Refusal where
  /-- An instruction without a meaning. No arm of `exec` raises it. Safe. -/
  | notModelled (mnemonic : String)
  /-- Raised by the environment micro-step of a tick (`applyEnvWrite`): the host wrote a cell it may not write, a
  move it does not have (60_exceptions.md R322; 93_implementation_defined.md U15). Safe. -/
  | hostWriteForbidden (cell : RegAddr) (value : Byte)
  /-- Raised by the host's image load (`hostLoadImage`), never by a step: a load during a run, a move the host
  does not have (60_exceptions.md R323; U15). Safe. -/
  | imageLoadDuringRun
  deriving DecidableEq, Repr

/-- The machine before its first tick (10_state.md R53), with the default parameters and no image loaded. The
register file lists nothing: an unlisted cell reads as its reset contents (`resetByte`, Machine/Ops.lean).
DESIGN CHOICE (log entry 7): CONFIG is an input with no value in the spec; 0 here. -/
def State.reset : State where
  params := Params.default
  configWord := 0x0000#16
  flash := []
  regs := []
  w := 0x00#8
  pch := 0#5
  stack := Vector.replicate 8 0#13
  sp := 0#3
  pendingCycles := 0
  skip := false
  paused := false
  stepBudget := 2
  fault := none
  sleeping := false
  wakeOne := false
  timer0 := { presc := 0#8, sync := false, ra4Prev := false, clkPrev := true, inhibit := 0 }
  clock := { osc := false, phase := .q4, running := true }
  notifyQueue := []
  controlQueue := []
  hostInputs := []
  outputs := []
  drawCount := 0
  started := false

end Sys2Proof.Machine
end

