-- ==== Sys2Proof/Machine/Ops.lean ====
section
/-! DEFINITION. The named operations over memory and registers: canonical memories, the register-file array and
its resolution (spec 20_memory.md), notifications (R90), the program counter and the return stack
(10_state.md), the interrupt and wake conditions, and taking an exception and returning from one
(60_exceptions.md R260, R272; 43_control.md R213). -/

namespace Sys2Proof.Machine

/-! ### Memories in canonical form -/

/-- What address `a` reads as: its listed entry, else `d a`. -/
def Store.read {n : Nat} (d : Nat → BitVec n) : List (Nat × BitVec n) → Nat → BitVec n
  | [], a => d a
  | e :: m, a => if e.1 = a then e.2 else Store.read d m a

/-- The list without any entry for `a`. -/
def Store.erase {n : Nat} (m : List (Nat × BitVec n)) (a : Nat) : List (Nat × BitVec n) :=
  m.filter fun e => e.1 != a

/-- Put an entry before the first entry of a higher address. -/
def Store.place {n : Nat} (a : Nat) (v : BitVec n) : List (Nat × BitVec n) → List (Nat × BitVec n)
  | [] => [(a, v)]
  | e :: m => if a < e.1 then (a, v) :: e :: m else e :: Store.place a v m

/-- Write one address; writing what an unlisted address reads as removes the entry. -/
def Store.write {n : Nat} (d : Nat → BitVec n) (m : List (Nat × BitVec n)) (a : Nat) (v : BitVec n) :
    List (Nat × BitVec n) :=
  if v = d a then Store.erase m a else Store.place a v (Store.erase m a)

/-- The canonical form: addresses strictly rising, and no entry equal to what an unlisted address reads as. -/
def Store.wf {n : Nat} (d : Nat → BitVec n) : List (Nat × BitVec n) → Bool
  | [] => true
  | e :: m => e.2 != d e.1 && (m.all fun x => decide (e.1 < x.1)) && Store.wf d m

/-! ### Special-function cells (10_state.md R35 to R44, R51; Table M1 of 20_memory.md R74) -/

abbrev Cell.tmr0 : RegAddr := 0x001#9
abbrev Cell.pcl : RegAddr := 0x002#9
abbrev Cell.status : RegAddr := 0x003#9
abbrev Cell.fsr : RegAddr := 0x004#9
abbrev Cell.porta : RegAddr := 0x005#9
abbrev Cell.pclath : RegAddr := 0x00A#9
abbrev Cell.intcon : RegAddr := 0x00B#9
abbrev Cell.pir1 : RegAddr := 0x00C#9
abbrev Cell.option : RegAddr := 0x081#9
abbrev Cell.trisa : RegAddr := 0x085#9
abbrev Cell.trisb : RegAddr := 0x086#9
abbrev Cell.pie1 : RegAddr := 0x08C#9
abbrev Cell.pcon : RegAddr := 0x08E#9
abbrev Cell.pr2 : RegAddr := 0x092#9
abbrev Cell.txsta : RegAddr := 0x098#9

/-- The preloaded cells and their reset values (70_reset_and_hazards.md R332). -/
def preload : List (RegAddr × Byte) :=
  [ (Cell.status, 0x18#8), (Cell.option, 0xFF#8), (Cell.trisa, 0xFF#8), (Cell.trisb, 0xFF#8),
    (Cell.pcon, 0x08#8), (Cell.pr2, 0xFF#8), (Cell.txsta, 0x02#8) ]

/-- What an unlisted register-file cell reads as: its reset contents, zero but for the preload
(10_state.md R53; 70_reset_and_hazards.md R331, R332). -/
def resetByte (a : Nat) : Byte :=
  match preload.find? fun e => e.1.toNat == a with
  | some e => e.2
  | none => 0x00#8

/-- `Cell(b, o)` (20_memory.md R70). -/
def State.cell (s : State) (c : RegAddr) : Byte := Store.read resetByte s.regs c.toNat

/-! ### Named updates of the state -/

def State.setCell (s : State) (c : RegAddr) (v : Byte) : State :=
  { s with regs := Store.write resetByte s.regs c.toNat v }

def State.setW (s : State) (v : Byte) : State := { s with w := v }

def State.setPch (s : State) (v : BitVec 5) : State := { s with pch := v }

/-- `STACK[i] <- v`. -/
def State.setStackEntry (s : State) (i : BitVec 3) (v : ProgAddr) : State :=
  { s with stack := s.stack.set i.toNat v i.isLt }

def State.setSp (s : State) (v : BitVec 3) : State := { s with sp := v }

def State.setSkip (s : State) (b : Bool) : State := { s with skip := b }

def State.setPending (s : State) (n : Nat) : State := { s with pendingCycles := n }

def State.setSleeping (s : State) (b : Bool) : State := { s with sleeping := b }

def State.setWakeOne (s : State) (b : Bool) : State := { s with wakeOne := b }

def State.setTimer0 (s : State) (t : Timer0) : State := { s with timer0 := t }

def State.setClock (s : State) (c : ClockGen) : State := { s with clock := c }

/-- Append a record to the notification queue (10_state.md R49). -/
def State.enqueue (s : State) (r : Record) : State := { s with notifyQueue := s.notifyQueue ++ [r] }

/-- Emit to the host, at once (60_exceptions.md R312, R324). -/
def State.emit (s : State) (o : HostOutput) : State := { s with outputs := s.outputs ++ [o] }

/-! ### STATUS, OPTION and INTCON bits (10_state.md R35, R38, R39) -/

/-- One bit of a byte replaced. -/
def withBit (x : Byte) (i : Nat) (v : Bool) : Byte :=
  if v then x ||| (1#8 <<< i) else x &&& ~~~(1#8 <<< i)

def State.statusBit (s : State) (i : Nat) : Bool := (s.cell Cell.status).getLsbD i
def State.flagC (s : State) : Bool := s.statusBit 0
def State.flagDC (s : State) : Bool := s.statusBit 1
def State.flagZ (s : State) : Bool := s.statusBit 2
def State.flagPD (s : State) : Bool := s.statusBit 3
def State.flagTO (s : State) : Bool := s.statusBit 4

/-- `STATUS.RP1:RP0`, the direct-addressing bank (R35). -/
def State.directBank (s : State) : Bank := (s.cell Cell.status).extractLsb' 5 2

/-- `STATUS.IRP` (R35). -/
def State.irp (s : State) : Bool := s.statusBit 7

def State.intconBit (s : State) (i : Nat) : Bool := (s.cell Cell.intcon).getLsbD i
def State.gie (s : State) : Bool := s.intconBit 7

def State.optionBit (s : State) (i : Nat) : Bool := (s.cell Cell.option).getLsbD i
def State.t0cs (s : State) : Bool := s.optionBit 5
def State.t0se (s : State) : Bool := s.optionBit 4
def State.psa (s : State) : Bool := s.optionBit 3

/-- `OPTION.PS`, bits 2:0 (R38). -/
def State.ps (s : State) : BitVec 3 := (s.cell Cell.option).extractLsb' 0 3

/-! ### Address resolution (20_memory.md R71 to R74) -/

/-- The classes of offsets below 0x20 (R74). -/
inductive RegClass where
  | allBank | evenBank | oddBank | bank0 | bank1
  deriving DecidableEq, Repr

/-- The storage bank a class gives for an access from a bank, if it resolves there (R74). -/
def RegClass.storageBank (k : RegClass) (b : Bank) : Option Bank :=
  match k with
  | .allBank => some 0#2
  | .evenBank => if b.getLsbD 0 then none else some 0#2
  | .oddBank => if b.getLsbD 0 then some 1#2 else none
  | .bank0 => if b = 0#2 then some 0#2 else none
  | .bank1 => if b = 1#2 then some 1#2 else none

/-- Table M1: the classes of each offset below 0x20 (R74). Offset 0x00 is INDF, which has no storage cell
(10_state.md R43); an offset with no class resolves from no bank. -/
def tableM1 (o : Nat) : List RegClass :=
  match o with
  | 0x01 | 0x06 => [.evenBank, .oddBank]
  | 0x02 | 0x03 | 0x04 | 0x0A | 0x0B => [.allBank]
  | 0x05 | 0x0C | 0x0E | 0x12 | 0x18 | 0x19 | 0x1A | 0x1F => [.bank0, .bank1]
  | 0x0F | 0x10 | 0x11 | 0x15 | 0x16 | 0x17 => [.bank0]
  | 0x1B | 0x1C | 0x1D => [.bank1]
  | _ => []

/-- `Resolve(a, mode)`; `none` is FAIL. Both modes resolve alike (R71). -/
def resolve (p : Params) (a : RegAddr) : Option RegAddr :=
  let b := bankOf a
  let o := offsetOf a
  if 0x70 ≤ o.toNat then some (fullAddr 0#2 o)                                     -- R72
  else if 0x20 ≤ o.toNat then                                                     -- R73
    if b.toNat * 0x80 + o.toNat < p.maxMemory then some (fullAddr b o) else none
  else ((tableM1 o.toNat).findSome? fun k => k.storageBank b).map fun b' => fullAddr b' o   -- R74

/-- The cell an access at full address `a` reaches: none for offset 0x00, INDF named through INDF (R79), and none
where resolution fails (R92). -/
def storageCell (p : Params) (a : RegAddr) : Option RegAddr :=
  if offsetOf a = 0#7 then none else resolve p a

/-! ### Notifications and writes (20_memory.md R75, R76, R90) -/

/-- The monitored cells (R90). -/
def monitored (c : RegAddr) : Option Monitored :=
  if c = Cell.tmr0 then some .tmr0
  else if c = Cell.option then some .option
  else if c = Cell.porta then some .porta
  else if c = Cell.intcon then some .intcon
  else if c = Cell.status then some .status
  else none

/-- The records `Notify(r, old, new)` appends: on every write for TMR0, on a change for the others (R90). -/
def notifyRecords (c : RegAddr) (old new : Byte) : List Record :=
  match monitored c with
  | none => []
  | some m => if m = .tmr0 ∨ new ≠ old then [.notify m old new] else []

/-- `Notify(r, old, new)` (R90). -/
def State.notify (s : State) (c : RegAddr) (old new : Byte) : State :=
  { s with notifyQueue := s.notifyQueue ++ notifyRecords c old new }

/-- A direct write of a cell, unmasked, with its notification: the flag primitives (10_state.md R36),
`SetStatusTP` and `SetGIE` (43_control.md R219), and the environment (60_exceptions.md R322). -/
def State.writeDirect (s : State) (c : RegAddr) (new : Byte) : State :=
  (s.setCell c new).notify c (s.cell c) new

/-- The byte a register-file write leaves in cell `c`: STATUS keeps the bits of `keep`, PCLATH keeps bits 4:0 of
the value, every other cell takes the value (R76). -/
def storedByte (c : RegAddr) (keep old v : Byte) : Byte :=
  if c = Cell.status then (old &&& keep) ||| (v &&& ~~~keep)
  else if c = Cell.pclath then v &&& 0x1F#8
  else v

/-- A write that landed on PCL also loads PCH from PCLATH[4:0] when `PC_MODEL = separate_pch`
(10_state.md R24). -/
def State.couplePcl (s : State) (c : RegAddr) : State :=
  if c = Cell.pcl ∧ s.params.pcModel = .separatePch then s.setPch ((s.cell Cell.pclath).extractLsb' 0 5) else s

/-- The cell write of `MemWrite`, once the address is resolved (R76). -/
def State.writeCell (s : State) (c : RegAddr) (v keep : Byte) : State :=
  let old := s.cell c
  let new := storedByte c keep old v
  ((s.setCell c new).couplePcl c).notify c old new

/-- `MemRead(a, 1)` (R75). -/
def State.memRead (s : State) (a : RegAddr) : Byte :=
  match storageCell s.params a with
  | none => 0x00#8
  | some c => s.cell c

/-- `MemWrite(a, 1, v, keep)` (R76). -/
def State.memWrite (s : State) (a : RegAddr) (v keep : Byte) : State :=
  match storageCell s.params a with
  | none => s
  | some c => s.writeCell c v keep

/-- `SetGIE(v)` (43_control.md R219). -/
def State.setGIE (s : State) (v : Bool) : State :=
  s.writeDirect Cell.intcon (withBit (s.cell Cell.intcon) 7 v)

/-! ### The program counter and the return stack (10_state.md R21 to R28) -/

/-- PC[12:8] (R22, R23). -/
def State.pcHigh (s : State) : BitVec 5 :=
  match s.params.pcModel with
  | .pclathSynth => (s.cell Cell.pclath).extractLsb' 0 5
  | .separatePch => s.pch

/-- `GetPC()` (R22, R23). -/
def State.getPC (s : State) : ProgAddr := s.pcHigh ++ s.cell Cell.pcl

/-- `SetPC(v)`; it notifies nothing (R22, R23). -/
def State.setPC (s : State) (v : ProgAddr) : State :=
  let s1 := s.setCell Cell.pcl (v.extractLsb' 0 8)
  match s.params.pcModel with
  | .pclathSynth => s1.setCell Cell.pclath ((v.extractLsb' 8 5).setWidth 8)
  | .separatePch => s1.setPch (v.extractLsb' 8 5)

/-- `Push(v)` (R27). -/
def State.push (s : State) (v : ProgAddr) : State := (s.setStackEntry (s.sp - 1#3) v).setSp (s.sp - 1#3)

/-- The value `Pop()` returns (R28). -/
def State.top (s : State) : ProgAddr := s.stack[s.sp.toNat]'s.sp.isLt

/-- The state `Pop()` leaves (R28). -/
def State.pop (s : State) : State := s.setSp (s.sp + 1#3)

/-! ### Program memory (10_state.md R45; 20_memory.md R84) -/

/-- `FlashRead(pa)`; a word the image does not load holds `FLASH_FILL` (R45). -/
def State.flashRead (s : State) (pa : Nat) : InsnWord := Store.read (fun _ => s.params.flashFill) s.flash pa

/-- The fetch address `GetPC() mod FLASH_SIZE` (R84). -/
def State.fetchAddr (s : State) : ProgAddr := BitVec.ofNat 13 (s.getPC.toNat % s.params.flashSize)

/-- The sequential advance's target `(pc + 1) mod FLASH_SIZE` (45_execution_engine.md R234). -/
def State.nextAddr (s : State) (pc : ProgAddr) : ProgAddr := BitVec.ofNat 13 ((pc.toNat + 1) % s.params.flashSize)

/-- The word the fetch takes: 0x0000, the phantom NOP, when `skip` = 1, else the flash word
(45_execution_engine.md R233). -/
def State.fetchWord (s : State) : InsnWord := if s.skip then 0x0000#14 else s.flashRead s.fetchAddr.toNat

/-- Store one word of an image, masked to 14 bits; an address beyond flash is ignored (60_exceptions.md R323). -/
def State.loadWord (s : State) (pa w : Nat) : State :=
  if pa < s.params.flashSize then
    { s with flash := Store.write (fun _ => s.params.flashFill) s.flash pa (BitVec.ofNat 14 w) }
  else s

/-! ### Interrupt and wake conditions (60_exceptions.md R271, R275) -/

/-- Some source has its enable and its flag set; `WakeCondition()` (R275). -/
def State.wakeCondition (s : State) : Bool :=
  (s.intconBit 5 && s.intconBit 2) || (s.intconBit 4 && s.intconBit 1) || (s.intconBit 3 && s.intconBit 0)
    || (s.intconBit 6 && s.cell Cell.pie1 &&& s.cell Cell.pir1 != 0x00#8)

/-- `IRQ()`: the same under GIE (R271). -/
def State.irq (s : State) : Bool := s.gie && s.wakeCondition

/-! ### Taking an exception and returning from one -/

/-- `raise DecodeFault(op, pc)`: latch the pair, stop the clock, report to the host; nothing else changes
(60_exceptions.md R260, R261). -/
def State.raiseDecodeFault (s : State) (op : InsnWord) (pc : ProgAddr) : State :=
  { s with
    fault := some { opcode := op, pc := pc }
    clock := { s.clock with running := false } }.emit (.faultReport op pc)

/-- The cause code of a fault report, the host's label for the decode fault (60_exceptions.md R260). -/
def HostOutput.causeCode : HostOutput → Option Nat
  | .faultReport _ _ => some 1
  | .trace .. | .timerValue _ | .timerOverflow | .statusChange .. => none

/-- The interrupt vector (20_memory.md R91). -/
def interruptVector : ProgAddr := 0x0004#13

/-- `InterruptEntry()`: push the address of the next instruction to fetch, clear GIE, go to the vector, one stall
cycle; nothing else is saved (60_exceptions.md R272). -/
def State.interruptEntry (s : State) : State :=
  (((s.push s.getPC).setGIE false).setPC interruptVector).setPending 1

/-- The return from an interrupt: pop the PC, set GIE (43_control.md R213; 60_exceptions.md R276). -/
def State.returnFromInterrupt (s : State) : State := (s.pop.setPC s.top).setGIE true

/-! ### The end of an execute (45_execution_engine.md R236) -/

/-- The instruction ends and returns its skip value. -/
def State.complete (s : State) (skip : Bool) : Host.Outcome State Fault Refusal := .next (s.setSkip skip)

/-- Go on from a next state; a fault or a refusal stays what it is. -/
def andThen (o : Host.Outcome State Fault Refusal) (k : State → Host.Outcome State Fault Refusal) :
    Host.Outcome State Fault Refusal :=
  match o with
  | .next s => k s
  | .fault r => .fault r
  | .refused r => .refused r

end Sys2Proof.Machine
end

