-- ==== Sys2Proof/Machine/Operands.lean ====
section
/-! DEFINITION. Operand forms: the file field, direct or through INDF (spec 20_memory.md R71, R77, R78, R79),
the destination select (40_file_alu.md R130) and the branch target (43_control.md R217). -/

namespace Sys2Proof.Machine

/-- The full address a file field names: `STATUS.RP1:STATUS.RP0:f`, or `STATUS.IRP:FSR` when f is INDF
(R71, R77, R78). -/
def State.fileAddr (s : State) (f : FileField) : RegAddr :=
  if f = 0#7 then bit s.irp ++ s.cell Cell.fsr else fullAddr s.directBank f

/-- The cell a file field reaches; none where the access fails or names INDF through INDF (R79, R92). -/
def State.fileCell (s : State) (f : FileField) : Option RegAddr := storageCell s.params (s.fileAddr f)

/-- `FileRead(f)` (R77). -/
def State.fileRead (s : State) (f : FileField) : Byte := s.memRead (s.fileAddr f)

/-- `FileWrite(f, v, keep)` (R77). -/
def State.fileWrite (s : State) (f : FileField) (v keep : Byte) : State := s.memWrite (s.fileAddr f) v keep

/-- The STATUS bits every register-file write keeps: TO and PD (R76). -/
def keepTP : Byte := 0x18#8

/-- The STATUS bits the result write of a flag-writing instruction keeps (R76; 40_file_alu.md R133). -/
def keepFlags : Byte := 0x1F#8

/-- `Dest(d, f, r, keep)` (40_file_alu.md R130). -/
def State.dest (s : State) (d : Dest) (f : FileField) (r keep : Byte) : State :=
  match d with
  | .toW => s.setW r
  | .toF => s.fileWrite f r keep

/-- `Target(k) = (PCLATH[4:3] << 11) | k` (43_control.md R217). -/
def State.target (s : State) (k : BitVec 11) : ProgAddr := (s.cell Cell.pclath).extractLsb' 3 2 ++ k

end Sys2Proof.Machine
end

