-- ==== Sys2Proof/Machine/BitOps.lean ====
section
/-! DEFINITION. The bit operations (spec 42_bit.md R200 to R203). BCF and BSF read and write the whole byte. -/

namespace Sys2Proof.Machine

/-- BCF (R200). -/
def execBcf (b : BitNumber) (f : FileField) (s : State) : Host.Outcome State Fault Refusal :=
  (s.fileWrite f (withBit (s.fileRead f) b.toNat false) keepTP).complete false

/-- BSF (R201). -/
def execBsf (b : BitNumber) (f : FileField) (s : State) : Host.Outcome State Fault Refusal :=
  (s.fileWrite f (withBit (s.fileRead f) b.toNat true) keepTP).complete false

/-- BTFSC (R202). -/
def execBtfsc (b : BitNumber) (f : FileField) (s : State) : Host.Outcome State Fault Refusal :=
  s.complete (!(s.fileRead f).getLsbD b.toNat)

/-- BTFSS (R203). -/
def execBtfss (b : BitNumber) (f : FileField) (s : State) : Host.Outcome State Fault Refusal :=
  s.complete ((s.fileRead f).getLsbD b.toNat)

end Sys2Proof.Machine
end

