-- ==== Sys2Proof/Machine/Flags.lean ====
section
/-! DEFINITION. The 8-bit adder and subtractor with their carries (spec 40_file_alu.md R131, R132), and the flag
primitives, which write single STATUS bits directly, each with its own notification (10_state.md R36;
43_control.md R219). -/

namespace Sys2Proof.Machine

/-- What the adder and the subtractor return: result, carry, digit carry. -/
structure AluResult where
  r : Byte
  c : Bool
  dc : Bool
  deriving DecidableEq, Repr

/-- `Add8(a, b)` (R131). -/
def add8 (a b : Byte) : AluResult where
  r := BitVec.ofNat 8 (a.toNat + b.toNat)
  c := decide (0x100 ≤ a.toNat + b.toNat)
  dc := decide (0x10 ≤ a.toNat % 0x10 + b.toNat % 0x10)

/-- `Sub8(x, y)`: x minus y; carry is no borrow (R132). -/
def sub8 (x y : Byte) : AluResult where
  r := BitVec.ofNat 8 (if x.toNat < y.toNat then 0x100 + x.toNat - y.toNat else x.toNat - y.toNat)
  c := !decide (x.toNat < y.toNat)
  dc := !decide (x.toNat % 0x10 < y.toNat % 0x10)

/-- A flag primitive: one STATUS bit written directly, past the write mask (10_state.md R36). -/
def State.setStatusBit (s : State) (i : Nat) (v : Bool) : State :=
  s.writeDirect Cell.status (withBit (s.cell Cell.status) i v)

/-- `SetZ(r)` (R36). -/
def State.setZ (s : State) (r : Byte) : State := s.setStatusBit 2 (r == 0x00#8)

/-- `SetC(c)` (R36). -/
def State.setC (s : State) (c : Bool) : State := s.setStatusBit 0 c

/-- `SetDC(d)` (R36). -/
def State.setDC (s : State) (d : Bool) : State := s.setStatusBit 1 d

/-- The flag writes of an addition or subtraction, in the order C, DC, Z (40_file_alu.md R134, R148). -/
def State.setCDCZ (s : State) (x : AluResult) : State := ((s.setC x.c).setDC x.dc).setZ x.r

/-- `SetStatusTP(to, pd)`: both bits in one direct write (43_control.md R219). -/
def State.setStatusTP (s : State) (tmo pd : Bool) : State :=
  s.writeDirect Cell.status (withBit (withBit (s.cell Cell.status) 4 tmo) 3 pd)

/-- The prescaler clear of SLEEP and CLRWDT: when the prescaler is assigned to the watchdog (43_control.md R214,
R215). -/
def State.clearWdtPrescaler (s : State) : State :=
  if s.psa then s.setTimer0 { s.timer0 with presc := 0#8 } else s

end Sys2Proof.Machine
end

