-- ==== Sys2Proof/Machine/ByteOps.lean ====
section
/-! DEFINITION. The byte-oriented file-register operations (spec 40_file_alu.md R134 to R150). Each reads f before
it writes its result; one that writes any of Z, DC, C writes the result with `keepFlags` and then the flags
(R133). -/

namespace Sys2Proof.Machine

/-- An operation that writes its result and then Z only. -/
def resultZ (d : Dest) (f : FileField) (r : Byte) (s : State) : Host.Outcome State Fault Refusal :=
  ((s.dest d f r keepFlags).setZ r).complete false

/-- An operation that writes its result and skips when it is zero, with no flag (R140, R142). -/
def resultSkipZero (d : Dest) (f : FileField) (r : Byte) (s : State) : Host.Outcome State Fault Refusal :=
  (s.dest d f r keepTP).complete (r == 0x00#8)

/-- An operation that writes its result and then C only (R146, R147). -/
def resultC (d : Dest) (f : FileField) (r : Byte) (c : Bool) (s : State) : Host.Outcome State Fault Refusal :=
  ((s.dest d f r keepFlags).setC c).complete false

/-- ADDWF (R134). -/
def execAddwf (d : Dest) (f : FileField) (s : State) : Host.Outcome State Fault Refusal :=
  let x := add8 s.w (s.fileRead f)
  ((s.dest d f x.r keepFlags).setCDCZ x).complete false

/-- ANDWF (R135). -/
def execAndwf (d : Dest) (f : FileField) (s : State) : Host.Outcome State Fault Refusal :=
  resultZ d f (s.w &&& s.fileRead f) s

/-- CLRF (R136). -/
def execClrf (f : FileField) (s : State) : Host.Outcome State Fault Refusal :=
  ((s.fileWrite f 0x00#8 keepFlags).setZ 0x00#8).complete false

/-- CLRW (R137). -/
def execClrw (s : State) : Host.Outcome State Fault Refusal :=
  ((s.setW 0x00#8).setZ 0x00#8).complete false

/-- COMF (R138). -/
def execComf (d : Dest) (f : FileField) (s : State) : Host.Outcome State Fault Refusal :=
  resultZ d f (~~~s.fileRead f) s

/-- DECF (R139). -/
def execDecf (d : Dest) (f : FileField) (s : State) : Host.Outcome State Fault Refusal :=
  resultZ d f (s.fileRead f - 1#8) s

/-- DECFSZ (R140). -/
def execDecfsz (d : Dest) (f : FileField) (s : State) : Host.Outcome State Fault Refusal :=
  resultSkipZero d f (s.fileRead f - 1#8) s

/-- INCF (R141). -/
def execIncf (d : Dest) (f : FileField) (s : State) : Host.Outcome State Fault Refusal :=
  resultZ d f (s.fileRead f + 1#8) s

/-- INCFSZ (R142). -/
def execIncfsz (d : Dest) (f : FileField) (s : State) : Host.Outcome State Fault Refusal :=
  resultSkipZero d f (s.fileRead f + 1#8) s

/-- IORWF (R143). -/
def execIorwf (d : Dest) (f : FileField) (s : State) : Host.Outcome State Fault Refusal :=
  resultZ d f (s.w ||| s.fileRead f) s

/-- MOVF (R144). -/
def execMovf (d : Dest) (f : FileField) (s : State) : Host.Outcome State Fault Refusal :=
  resultZ d f (s.fileRead f) s

/-- MOVWF (R145). -/
def execMovwf (f : FileField) (s : State) : Host.Outcome State Fault Refusal :=
  (s.fileWrite f s.w keepTP).complete false

/-- RLF (R146). -/
def execRlf (d : Dest) (f : FileField) (s : State) : Host.Outcome State Fault Refusal :=
  let v := s.fileRead f
  resultC d f (v.extractLsb' 0 7 ++ bit s.flagC) (v.getLsbD 7) s

/-- RRF (R147). -/
def execRrf (d : Dest) (f : FileField) (s : State) : Host.Outcome State Fault Refusal :=
  let v := s.fileRead f
  resultC d f (bit s.flagC ++ v.extractLsb' 1 7) (v.getLsbD 0) s

/-- SUBWF: operand f, subtrahend W (R148). -/
def execSubwf (d : Dest) (f : FileField) (s : State) : Host.Outcome State Fault Refusal :=
  let x := sub8 (s.fileRead f) s.w
  ((s.dest d f x.r keepFlags).setCDCZ x).complete false

/-- SWAPF (R149). -/
def execSwapf (d : Dest) (f : FileField) (s : State) : Host.Outcome State Fault Refusal :=
  let v := s.fileRead f
  (s.dest d f (v.extractLsb' 0 4 ++ v.extractLsb' 4 4) keepTP).complete false

/-- XORWF (R150). -/
def execXorwf (d : Dest) (f : FileField) (s : State) : Host.Outcome State Fault Refusal :=
  resultZ d f (s.w ^^^ s.fileRead f) s

end Sys2Proof.Machine
end

