-- ==== Sys2Proof/Machine/ControlOps.lean ====
section
/-! DEFINITION. Control flow and system instructions (spec 43_control.md R210 to R219). When an execute starts,
the PC already holds the address of the next instruction (45_execution_engine.md R234). -/

namespace Sys2Proof.Machine

/-- GOTO (R210). -/
def execGoto (k : BitVec 11) (s : State) : Host.Outcome State Fault Refusal :=
  (s.setPC (s.target k)).complete false

/-- CALL (R211, R218). -/
def execCall (k : BitVec 11) (s : State) : Host.Outcome State Fault Refusal :=
  ((s.push s.getPC).setPC (s.target k)).complete false

/-- RETURN (R212). -/
def execRet (s : State) : Host.Outcome State Fault Refusal := (s.pop.setPC s.top).complete false

/-- RETFIE (R213). -/
def execRetfie (s : State) : Host.Outcome State Fault Refusal := s.returnFromInterrupt.complete false

/-- SLEEP (R214). -/
def execSleep (s : State) : Host.Outcome State Fault Refusal :=
  let s1 := (s.setStatusTP true false).clearWdtPrescaler
  (if s1.wakeCondition then s1 else s1.setSleeping true).complete false

/-- CLRWDT (R215). -/
def execClrwdt (s : State) : Host.Outcome State Fault Refusal :=
  (s.setStatusTP true true).clearWdtPrescaler.complete false

/-- NOP (R216). -/
def execNop (s : State) : Host.Outcome State Fault Refusal := s.complete false

end Sys2Proof.Machine
end

