-- ==== Sys2Proof/Machine/LiteralOps.lean ====
section
/-! DEFINITION. The literal operations (spec 41_literal.md R180 to R186). -/

namespace Sys2Proof.Machine

/-- A literal operation that writes W and then Z only (R183 to R185). -/
def literalZ (r : Byte) (s : State) : Host.Outcome State Fault Refusal := ((s.setW r).setZ r).complete false

/-- MOVLW (R180). -/
def execMovlw (k : Byte) (s : State) : Host.Outcome State Fault Refusal := (s.setW k).complete false

/-- ADDLW (R181). -/
def execAddlw (k : Byte) (s : State) : Host.Outcome State Fault Refusal :=
  let x := add8 s.w k
  ((s.setW x.r).setCDCZ x).complete false

/-- SUBLW: operand k, subtrahend W (R182). -/
def execSublw (k : Byte) (s : State) : Host.Outcome State Fault Refusal :=
  let x := sub8 k s.w
  ((s.setW x.r).setCDCZ x).complete false

/-- ANDLW (R183). -/
def execAndlw (k : Byte) (s : State) : Host.Outcome State Fault Refusal := literalZ (s.w &&& k) s

/-- IORLW (R184). -/
def execIorlw (k : Byte) (s : State) : Host.Outcome State Fault Refusal := literalZ (s.w ||| k) s

/-- XORLW (R185). -/
def execXorlw (k : Byte) (s : State) : Host.Outcome State Fault Refusal := literalZ (s.w ^^^ k) s

/-- RETLW (R186). -/
def execRetlw (k : Byte) (s : State) : Host.Outcome State Fault Refusal :=
  ((s.setW k).pop.setPC s.top).complete false

end Sys2Proof.Machine
end

