-- ==== Sys2Proof/Machine/Dispatch.lean ====
section
/-! DEFINITION. The dispatch: one arm per constructor of `Instr`, each a direct call of its meaning. `exec` is the
execute micro-step of spec 45_execution_engine.md R236, `skip` taking the value the instruction returns. -/

namespace Sys2Proof.Machine

def exec (i : Instr) (s : State) : Host.Outcome State Fault Refusal :=
  match i with
  | .addwf d f => Sys2Proof.Machine.execAddwf d f s
  | .andwf d f => Sys2Proof.Machine.execAndwf d f s
  | .clrf f => Sys2Proof.Machine.execClrf f s
  | .clrw => Sys2Proof.Machine.execClrw s
  | .comf d f => Sys2Proof.Machine.execComf d f s
  | .decf d f => Sys2Proof.Machine.execDecf d f s
  | .decfsz d f => Sys2Proof.Machine.execDecfsz d f s
  | .incf d f => Sys2Proof.Machine.execIncf d f s
  | .incfsz d f => Sys2Proof.Machine.execIncfsz d f s
  | .iorwf d f => Sys2Proof.Machine.execIorwf d f s
  | .movf d f => Sys2Proof.Machine.execMovf d f s
  | .movwf f => Sys2Proof.Machine.execMovwf f s
  | .rlf d f => Sys2Proof.Machine.execRlf d f s
  | .rrf d f => Sys2Proof.Machine.execRrf d f s
  | .subwf d f => Sys2Proof.Machine.execSubwf d f s
  | .swapf d f => Sys2Proof.Machine.execSwapf d f s
  | .xorwf d f => Sys2Proof.Machine.execXorwf d f s
  | .movlw k => Sys2Proof.Machine.execMovlw k s
  | .addlw k => Sys2Proof.Machine.execAddlw k s
  | .sublw k => Sys2Proof.Machine.execSublw k s
  | .andlw k => Sys2Proof.Machine.execAndlw k s
  | .iorlw k => Sys2Proof.Machine.execIorlw k s
  | .xorlw k => Sys2Proof.Machine.execXorlw k s
  | .retlw k => Sys2Proof.Machine.execRetlw k s
  | .bcf b f => Sys2Proof.Machine.execBcf b f s
  | .bsf b f => Sys2Proof.Machine.execBsf b f s
  | .btfsc b f => Sys2Proof.Machine.execBtfsc b f s
  | .btfss b f => Sys2Proof.Machine.execBtfss b f s
  | .call k => Sys2Proof.Machine.execCall k s
  | .goto k => Sys2Proof.Machine.execGoto k s
  | .ret => Sys2Proof.Machine.execRet s
  | .retfie => Sys2Proof.Machine.execRetfie s
  | .sleep => Sys2Proof.Machine.execSleep s
  | .clrwdt => Sys2Proof.Machine.execClrwdt s
  | .nop => Sys2Proof.Machine.execNop s

end Sys2Proof.Machine
end

