-- ==== Sys2Proof/Machine/Engine.lean ====
section
/-! DEFINITION. The CPU engine's cycle step (spec 45_execution_engine.md R230 to R238). -/

namespace Sys2Proof.Machine

/-- `Trace(kind, opcode, pc)`, with SP and W as they are now (R238). -/
def State.trace (s : State) (kind : TraceKind) (opcode : Option InsnWord) (pc : ProgAddr) : State :=
  s.emit (.trace kind opcode pc s.sp s.w)

/-- A fetch/execute pair or an interrupt entry lowers the step budget by 2, down to 0 (R237). -/
def State.useBudget (s : State) : State := { s with stepBudget := s.stepBudget - 2 }

/-- The engine is paused with no step budget (R231). -/
def State.gatedByPause (s : State) : Bool := s.paused && s.stepBudget == 0

/-- The cycle step of a sleeping device: wake, or do nothing (R231; 60_exceptions.md R275). -/
def State.sleepCycle (s : State) : State :=
  if s.wakeCondition then (s.setSleeping false).setWakeOne true else s

/-- A stall cycle (R232). -/
def State.stallCycle (s : State) : State :=
  (s.setPending (s.pendingCycles - 1)).trace .stall none s.fetchAddr

/-- The cycle step takes an interrupt in place of a fetch (R235). -/
def State.interruptDue (s : State) : Bool :=
  s.params.interruptModel == .vectored && !s.skip && !s.wakeOne && s.irq

/-- The cycle step that takes an interrupt (R230; 60_exceptions.md R272). -/
def State.interruptCycle (s : State) : State :=
  s.interruptEntry.useBudget.trace .interrupt none interruptVector

/-- The advance after a successful decode: `skip` cleared, PC to the next word, the stall cycles recorded,
`wake_one` cleared (R233, R234). -/
def State.fetchAdvance (s : State) (i : Instr) : State :=
  ((((s.setSkip false).setPC (s.nextAddr s.fetchAddr)).setPending (i.cycles - 1)).setWakeOne false)

/-- One fetch and execute (R233 to R238). A word that does not decode raises the decode fault and commits nothing
else. -/
def State.fetchExecute (s : State) : Host.Outcome State Fault Refusal :=
  match decode s.fetchWord with
  | .rejected _ => .next (s.raiseDecodeFault s.fetchWord s.fetchAddr)
  | .ok i =>
    andThen (exec i (s.fetchAdvance i)) fun t => .next (t.useBudget.trace .exec (some s.fetchWord) s.fetchAddr)

/-- `CycleStep()` (R230): gated, asleep, stalled, interrupted, or one whole fetch and execute. -/
def State.cycleStep (s : State) : Host.Outcome State Fault Refusal :=
  if s.fault.isSome then .next s
  else if s.gatedByPause then .next s
  else if s.sleeping then .next s.sleepCycle
  else if 0 < s.pendingCycles then .next s.stallCycle
  else if s.interruptDue then .next s.interruptCycle
  else s.fetchExecute

end Sys2Proof.Machine
end

