-- ==== Sys2Proof/Machine/Clock.lean ====
section
/-! DEFINITION. The four-phase clock generator (spec 60_exceptions.md R300, R301). `TOGGLES_PER_PHASE` is 2: the
phase advances on each rising edge of the oscillator line. -/

namespace Sys2Proof.Machine

/-- Q1 → Q2 → Q3 → Q4 → Q1 (R300). -/
def Phase.succ : Phase → Phase
  | .q1 => .q2
  | .q2 => .q3
  | .q3 => .q4
  | .q4 => .q1

/-- `ClkoutLevel(phase)` (R301). -/
def Phase.clkoutLevel : Phase → Bool
  | .q1 | .q2 => false
  | .q3 | .q4 => true

/-- The oscillator line and the phase after one toggle (R300). -/
def ClockGen.toggle (c : ClockGen) : ClockGen :=
  { c with osc := !c.osc, phase := if c.osc then c.phase else c.phase.succ }

/-- The CLKOUT record a phase queues at its start (R300). -/
def State.queueClkout (s : State) (p : Phase) : State := s.enqueue (.clkout p p.clkoutLevel)

/-- `ClockToggle()`: at the start of Q1 the cycle step runs before that phase's CLKOUT record is queued (R300).
DEDUCED (log entry 8): a decode fault in that cycle step leaves the record of its own phase queued, as the
pseudocode orders the two. -/
def State.clockToggle (s : State) : Host.Outcome State Fault Refusal :=
  if s.clock.running then
    let c := s.clock.toggle
    let s1 := s.setClock c
    if c.osc then
      match c.phase with
      | .q1 => andThen s1.cycleStep fun t => .next (t.queueClkout .q1)
      | .q2 => .next (s1.queueClkout .q2)
      | .q3 => .next (s1.queueClkout .q3)
      | .q4 => .next (s1.queueClkout .q4)
    else .next s1
  else .next s

end Sys2Proof.Machine
end

