-- ==== Sys2Proof/Machine/HostPort.lean ====
section
/-! DEFINITION. The host's side: reset (spec 70_reset_and_hazards.md R330 to R332), run control
(45_execution_engine.md R240, R241), environment writes (60_exceptions.md R322) and image loads (R323). -/

namespace Sys2Proof.Machine

/-! ### Reset -/

/-- The general-purpose cells: the pairs that R72 and R73 resolve at offsets 0x20 to 0x7F (10_state.md R52). -/
def gprCells (p : Params) : List RegAddr :=
  ((List.range 0x200).map fun a => BitVec.ofNat 9 a).filter fun a =>
    decide (0x20 ≤ (offsetOf a).toNat) && resolve p a == some a

/-- The register file after a reset: every cell at its reset contents, and under `GPR_RESET = unknown` each
general-purpose cell at the free value this reset draws for it (R331, R332). `n` numbers the reset. -/
def resetRegs (p : Params) (n : Nat) : List Host.Cell :=
  match p.gprReset with
  | .zero => []
  | .unknown =>
    (gprCells p).foldl (fun m c => Store.write resetByte m c.toNat (Config.gprDraw n c.toNat)) []

/-- `Reset()`, by a `back` or `reset` control event (R331). It keeps `paused`, `t0_clk_prev`, `osc`, `phase`,
CONFIG and the flash image. -/
def State.controlReset (s : State) : State :=
  { s with
    notifyQueue := []
    controlQueue := []
    regs := resetRegs s.params s.drawCount
    pch := match s.params.pcModel with
      | .separatePch => 0#5
      | .pclathSynth => s.pch
    w := 0x00#8
    skip := false
    sp := 0#3
    stack := Vector.replicate 8 0#13
    pendingCycles := 0
    fault := none
    clock := { s.clock with running := true }
    sleeping := false
    wakeOne := false
    stepBudget := 2
    timer0 := { s.timer0 with presc := 0#8, sync := false, ra4Prev := false, inhibit := 0 }
    drawCount := match s.params.gprReset with
      | .zero => s.drawCount
      | .unknown => s.drawCount + 1 }

/-- The state before the first tick under any parameters and CONFIG word, no image loaded (R330;
10_state.md R53). `State.reset` is this at the default parameters. -/
def State.powerOn (p : Params) (config : BitVec 16) : State :=
  { State.reset with
    params := p
    configWord := config
    regs := resetRegs p 0
    drawCount := match p.gprReset with
      | .zero => 0
      | .unknown => 1 }

/-! ### Run control -/

/-- Drain control events in FIFO order; a reset discards those behind it (45_execution_engine.md R240, R241). -/
def State.runControl (s : State) : List ControlEvent → State
  | [] => s
  | .play :: es => State.runControl { s with paused := false } es
  | .pause :: es => State.runControl { s with paused := true } es
  | .next :: es => State.runControl (if s.paused then { s with stepBudget := 2 } else s) es
  | .back :: _ => s.controlReset
  | .reset :: _ => s.controlReset
  | .other _ :: es => State.runControl s es

/-- The control micro-step: every event present is drained (R240). -/
def State.drainControl (s : State) : State := State.runControl { s with controlQueue := [] } s.controlQueue

/-- The control event an event name stands for (R240, R241). -/
def ControlEvent.ofName (name : String) : ControlEvent :=
  if name = "play" then .play
  else if name = "pause" then .pause
  else if name = "next" then .next
  else if name = "back" then .back
  else if name = "reset" then .reset
  else .other name

/-! ### Environment writes -/

/-- The cells of 10_state.md R51, which the environment may write (60_exceptions.md R322). -/
def envCells : List RegAddr :=
  [ 0x005#9, 0x006#9, 0x00C#9, 0x00E#9, 0x00F#9, 0x010#9, 0x011#9, 0x012#9, 0x015#9, 0x016#9, 0x017#9,
    0x018#9, 0x019#9, 0x01A#9, 0x01F#9 ] ++
  [ 0x085#9, 0x086#9, 0x08C#9, 0x092#9, 0x098#9, 0x099#9, 0x09A#9, 0x09B#9, 0x09C#9, 0x09D#9, 0x09F#9 ]

/-- An INTCON write the environment may make: it clears no bit, and sets none but INTF and RBIF (R322). -/
def intconWriteAllowed (old new : Byte) : Bool := old ||| (new &&& 0x03#8) == new

/-- The environment may write this cell with this value (R322). -/
def State.envWriteAllowed (s : State) (c : RegAddr) (v : Byte) : Bool :=
  envCells.contains c || (c == Cell.intcon && intconWriteAllowed (s.cell Cell.intcon) v)

/-- One environment write: the cell set directly, then notified; a forbidden one is a move the host does not have
(R322). -/
def State.applyEnvWrite (s : State) (c : RegAddr) (v : Byte) : Host.Outcome State Fault Refusal :=
  if s.envWriteAllowed c v then .next (s.writeDirect c v) else .refused (.hostWriteForbidden c v)

/-- The environment writes of a tick, in order (R310). -/
def State.applyEnvWrites (s : State) : List (RegAddr × Byte) → Host.Outcome State Fault Refusal
  | [] => .next s
  | e :: es => andThen (s.applyEnvWrite e.1 e.2) fun t => State.applyEnvWrites t es

/-- The input record of the coming tick; past the end of the script both its lists are empty (R320). -/
def State.nextInput (s : State) : HostInput := s.hostInputs.headD { envWrites := [], controlEvents := [] }

/-- The environment micro-step: apply the writes, append the control events (R310, R321). -/
def State.applyInput (s : State) (i : HostInput) : Host.Outcome State Fault Refusal :=
  andThen (s.applyEnvWrites i.envWrites) fun t =>
    .next { t with controlQueue := t.controlQueue ++ i.controlEvents }

/-! ### Image loads -/

/-- The flash after the host loads an image (R323). DESIGN CHOICE (log entry 19): a later load keeps the words of an
earlier image that the new one does not name; R323 and 10_state.md R45 do not say whether they return to `FLASH_FILL`. -/
def State.loadImage (s : State) (image : List (Nat × Nat)) : State :=
  image.foldl (fun t e => t.loadWord e.1 e.2) s

/-- The host's image load: before the first tick, or while the clock is stopped by a fault; during a run the host
has no such move (R323). -/
def hostLoadImage (image : List (Nat × Nat)) (s : State) : Host.Outcome State Fault Refusal :=
  if !s.started || s.fault.isSome then .next (s.loadImage image) else .refused .imageLoadDuringRun

end Sys2Proof.Machine
end

