-- ==== Sys2Proof/Machine/Timer0.lean ====
section
/-! DEFINITION. Timer0: what it does with each record the drain delivers to it (spec 60_exceptions.md R290 to
R298). It reads OPTION afresh at every record (R290). -/

namespace Sys2Proof.Machine

/-- Where a prescaled edge comes from (R293). -/
inductive T0Source where
  | internal | external
  deriving DecidableEq, Repr

/-- `T0Overflow()`: T0IF set without a notification (R296). -/
def State.t0Overflow (s : State) : State :=
  (s.setCell Cell.intcon (withBit (s.cell Cell.intcon) 2 true)).emit .timerOverflow

/-- `T0Increment()`: TMR0 counts without a notification, unless the write inhibit holds (R295). -/
def State.t0Increment (s : State) : State :=
  if 0 < s.timer0.inhibit then s
  else
    let v := s.cell Cell.tmr0 + 1#8
    let s1 := s.setCell Cell.tmr0 v
    if v = 0#8 then s1.t0Overflow else s1.emit (.timerValue v)

/-- `T0Pulse(src)` (R293, R294). -/
def State.t0Pulse (s : State) (src : T0Source) : State :=
  match src with
  | .internal => s.t0Increment
  | .external => s.setTimer0 { s.timer0 with sync := true }

/-- `T0Prescale(src)` (R293). -/
def State.t0Prescale (s : State) (src : T0Source) : State :=
  if s.psa then s.t0Pulse src
  else
    let n := s.timer0.presc.toNat + 1
    if 2 ^ (s.ps.toNat + 1) ≤ n then (s.setTimer0 { s.timer0 with presc := 0#8 }).t0Pulse src
    else s.setTimer0 { s.timer0 with presc := BitVec.ofNat 8 n }

/-- The synchronized external pulse is applied at the next clkout record, unless asleep (R291, R294). -/
def State.t0ApplySync (s : State) : State :=
  if s.timer0.sync && !s.sleeping then (s.setTimer0 { s.timer0 with sync := false }).t0Increment else s

/-- A rising CLKOUT edge: one internal source edge when T0CS = 0 and not asleep, then the inhibit counts down
(R291). -/
def State.t0RisingEdge (s : State) : State :=
  let s1 := if !s.t0cs && !s.sleeping then s.t0Prescale .internal else s
  if 0 < s1.timer0.inhibit then s1.setTimer0 { s1.timer0 with inhibit := s1.timer0.inhibit - 1 } else s1

/-- `T0Clock(level)` (R291). -/
def State.t0Clock (s : State) (level : Bool) : State :=
  let s1 := s.t0ApplySync
  let rising := !s1.timer0.clkPrev && level
  let s2 := s1.setTimer0 { s1.timer0 with clkPrev := level }
  if rising then s2.t0RisingEdge else s2

/-- `T0Pin(old, new)`: the edge T0SE selects on RA4, PORTA[4] (R292). -/
def State.t0Pin (s : State) (new : Byte) : State :=
  let level := new.getLsbD 4
  let prev := s.timer0.ra4Prev
  let edge := if s.t0se then prev && !level else !prev && level
  let s1 := s.setTimer0 { s.timer0 with ra4Prev := level }
  if edge && s1.t0cs && !s1.sleeping then s1.t0Prescale .external else s1

/-- `T0Write()`: start the write inhibit, clear an assigned prescaler and the synchronizer (R298). -/
def State.t0Write (s : State) : State :=
  s.setTimer0 { s.timer0 with
    inhibit := s.params.tmr0WriteInhibit
    presc := if s.psa then s.timer0.presc else 0#8
    sync := false }

/-- `deliver(rec)`: clkout, PORTA and TMR0 records to Timer0; OPTION and INTCON records have no effect on it
(R297); a STATUS record to the host (R290, R311, R324). -/
def State.deliver (s : State) (r : Record) : State :=
  match r with
  | .clkout _ level => s.t0Clock level
  | .notify .porta _ new => s.t0Pin new
  | .notify .tmr0 _ _ => s.t0Write
  | .notify .option _ _ => s
  | .notify .intcon _ _ => s
  | .notify .status old new => s.emit (.statusChange old (old ^^^ new) new)

/-- The drain of a snapshot, in FIFO order (R311). -/
def State.drain (s : State) (snap : List Record) : State := snap.foldl State.deliver s

end Sys2Proof.Machine
end

