-- ==== Sys2Proof/Machine/Sequencer.lean ====
section
/-! DEFINITION. The tick sequencer (spec 60_exceptions.md R310): ENV, DRAIN, CONTROL, CLOCK, each atomic, in this
order. -/

namespace Sys2Proof.Machine

/-- The start of a tick: the notification queue has been taken as the snapshot and is cleared, this tick's input
record leaves the script, and the outputs of the tick before are gone (R310). -/
def State.openTick (s : State) : State :=
  { s with notifyQueue := [], outputs := [], hostInputs := s.hostInputs.tail, started := true }

/-- The first three micro-steps: ENV, DRAIN of the snapshot, CONTROL (R310). -/
def State.beforeClock (s : State) : Host.Outcome State Fault Refusal :=
  andThen (s.openTick.applyInput s.nextInput) fun t => .next (t.drain s.notifyQueue).drainControl

/-- `Tick(inputs)` (R310). -/
def State.tick (s : State) : Host.Outcome State Fault Refusal := andThen s.beforeClock State.clockToggle

/-- A state whose next tick fetches, whatever held the fetch back: the clock about to start Q1, no fault, stall,
skip or sleep, a budget where the engine is paused, and no interrupt or control event in the way. Nothing else
changes, and from reset nothing at all does. -/
def State.readyToFetch (s : State) : State :=
  { s with
    clock := { osc := false, phase := .q4, running := true }
    fault := none
    pendingCycles := 0
    skip := false
    sleeping := false
    stepBudget := if s.paused then 2 else s.stepBudget
    wakeOne := s.wakeOne || (s.params.interruptModel == .vectored && s.gie)
    controlQueue := []
    hostInputs := match s.hostInputs with
      | [] => []
      | _ :: is => { envWrites := [], controlEvents := [] } :: is }

/-- The word stored at the fetch address of a state made ready to fetch it. -/
def State.placeFetchWord (s : State) (w : Nat) : State :=
  let s1 := s.readyToFetch
  { s1 with flash :=
      Store.write (fun _ => s1.params.flashFill) s1.flash s1.fetchAddr.toNat (BitVec.ofNat 14 w) }

end Sys2Proof.Machine
end

