-- ==== Sys2Proof/Machine/Step.lean ====
section
/-! DEFINITION. The step: one tick (spec 00_scope.md R9, "The step relation is driven by one input, the tick"). -/

namespace Sys2Proof.Machine

/-- One step is one tick of the sequencer (60_exceptions.md R310). -/
def step (s : State) : Host.Outcome State Fault Refusal := s.tick

/-- `s` with the opcode-table word `w` of `nbits` bits stored where the next fetch takes its word, and made ready
so that the very next step runs it. It stands for the host's load of an image (60_exceptions.md R323; log
entry 9). -/
def State.withFetchWord (s : State) (nbits w : Nat) : State := s.placeFetchWord (w % 2 ^ nbits)

end Sys2Proof.Machine
end

