-- ==== Sys2Proof/Safety.lean ====
section
/-! DEFINITION. The terms claims are stated in: the terminal conditions of a run (spec 60_exceptions.md R325), the
invariant of the machine, and what an instruction leaves unchanged. -/

namespace Sys2Proof.Machine

/-! ### Terminal conditions (60_exceptions.md R325) -/

/-- `faulted`: a decode fault is latched. It is never a successful end. -/
def State.faulted (s : State) : Bool := s.fault.isSome

/-- `asleep`: sleeping with no wake condition. -/
def State.asleep (s : State) : Bool := s.sleeping && !s.wakeCondition

/-- `halted`: between instructions, and the word at the fetch address is a GOTO whose target equals that address. The
target is the whole 13-bit one of 43_control.md R217, not reduced. DEDUCED (log entry 10): its PCLATH is the one the GOTO's
execute would read, after the fetch advance. -/
def State.halted (s : State) : Bool :=
  s.pendingCycles == 0 && !s.skip &&
    match decode (s.flashRead s.fetchAddr.toNat) with
    | .ok (.goto k) =>
      (s.fetchAdvance (.goto k)).target k == s.fetchAddr
    | _ => false

/-- A run of ticks that no refusal stops and that never latches a decode fault. -/
def cleanRun : Nat → State → Bool
  | 0, s => !s.faulted
  | n + 1, s =>
    !s.faulted &&
      match step s with
      | .next t => cleanRun n t
      | .fault _ | .refused _ => false

/-! ### The invariant -/

/-- The memories are in canonical form and inside their address spaces: register-file keys below 0x200, flash
addresses below `FLASH_SIZE` (20_memory.md R70, R91). -/
def State.memoryInv (s : State) : Bool :=
  Store.wf resetByte s.regs && (s.regs.all fun e => decide (e.1 < 0x200)) &&
    Store.wf (fun _ => s.params.flashFill) s.flash && (s.flash.all fun e => decide (e.1 < s.params.flashSize))

/-- The counters stay in their ranges (10_state.md R29, R32, R47) and a latched fault has stopped the clock
(R33; 60_exceptions.md R261) and names an illegal word. -/
def State.engineInv (s : State) : Bool :=
  decide (s.pendingCycles ≤ 1) && decide (s.stepBudget ≤ 2) &&
    decide (s.timer0.inhibit ≤ s.params.tmr0WriteInhibit) &&
    match s.fault with
    | none => true
    | some x => !s.clock.running && decide (decode x.opcode = .rejected (.invalidOpcode x.opcode))

/-- PCLATH[7:5] reads 0 (10_state.md R41), and PCH, which `pclath_synth` does not have, is 0 there (R23). -/
def State.pcInv (s : State) : Bool :=
  (s.cell Cell.pclath).extractLsb' 5 3 == 0#3 &&
    (s.params.pcModel == .separatePch || s.pch == 0#5)

/-- The invariant every step keeps. -/
def State.inv (s : State) : Bool := s.memoryInv && s.engineInv && s.pcInv

/-- Cells no access can reach hold their reset contents (20_memory.md R70): no address resolves to them. -/
def State.unreachedCellsAtReset (s : State) : Prop :=
  ∀ c : RegAddr, (∀ a : RegAddr, storageCell s.params a ≠ some c) → s.cell c = resetByte c.toNat

/-! ### What an instruction leaves unchanged -/

/-- The parameters, program memory, run control, the clock, the queues of the host and the fault latch: no
instruction's execute changes any of them. -/
structure EngineSame (s t : State) : Prop where
  params : t.params = s.params
  configWord : t.configWord = s.configWord
  flash : t.flash = s.flash
  pendingCycles : t.pendingCycles = s.pendingCycles
  paused : t.paused = s.paused
  stepBudget : t.stepBudget = s.stepBudget
  fault : t.fault = s.fault
  wakeOne : t.wakeOne = s.wakeOne
  clock : t.clock = s.clock
  controlQueue : t.controlQueue = s.controlQueue
  hostInputs : t.hostInputs = s.hostInputs
  outputs : t.outputs = s.outputs
  drawCount : t.drawCount = s.drawCount
  started : t.started = s.started

/-- The frame of an instruction that uses neither the return stack, nor sleep, nor Timer0. -/
structure DataFrame (s t : State) : Prop where
  engine : EngineSame s t
  stack : t.stack = s.stack
  sp : t.sp = s.sp
  sleeping : t.sleeping = s.sleeping
  timer0 : t.timer0 = s.timer0

/-- The cell the result of a byte-oriented instruction is stored in: none when it goes to W (40_file_alu.md
R130) or when the file field reaches no cell (20_memory.md R92). -/
def State.resultCell (s : State) (d : Dest) (f : FileField) : Option RegAddr :=
  match d with
  | .toW => none
  | .toF => s.fileCell f

/-- Every cell but STATUS reads as before, except that the target cell holds the value stored, with PCLATH[7:5]
read as 0; and PCH changes only by a write to PCL when `PC_MODEL = separate_pch` (20_memory.md R76; 10_state.md R24,
R41). -/
structure StoresByte (s t : State) (target : Option RegAddr) (v : Byte) : Prop where
  cells : ∀ c : RegAddr, c ≠ Cell.status →
    t.cell c = if target = some c then (if c = Cell.pclath then v &&& 0x1F#8 else v) else s.cell c
  pch : t.pch =
    if target = some Cell.pcl ∧ s.params.pcModel = .separatePch then (s.cell Cell.pclath).extractLsb' 0 5 else s.pch

/-- The STATUS bits outside Z, DC and C: IRP, RP1 and RP0 take the value's bits when STATUS is the target, TO and
PD never change (40_file_alu.md R133). -/
structure StatusUpper (s t : State) (target : Option RegAddr) (v : Byte) : Prop where
  bank : (t.cell Cell.status).extractLsb' 5 3 =
    (if target = some Cell.status then v else s.cell Cell.status).extractLsb' 5 3
  tpd : t.flagTO = s.flagTO ∧ t.flagPD = s.flagPD

/-- The STATUS byte the result write leaves, before any flag primitive: merged under `keep` when STATUS is the target
(20_memory.md R76), else as before. -/
def State.statusAfterResult (s : State) (target : Option RegAddr) (v keep : Byte) : Byte :=
  if target = some Cell.status then (s.cell Cell.status &&& keep) ||| (v &&& ~~~keep) else s.cell Cell.status

/-- The records of the result write (20_memory.md R90). -/
def State.resultRecords (s : State) (target : Option RegAddr) (v keep : Byte) : List Record :=
  match target with
  | none => []
  | some c => notifyRecords c (s.cell c) (storedByte c keep (s.cell c) v)

/-- The STATUS byte after flag primitives, the first in the list first: each writes one bit (10_state.md R36). -/
def statusAfterFlags (x : Byte) (writes : List (Nat × Bool)) : Byte :=
  writes.foldl (fun y w => withBit y w.1 w.2) x

/-- The records flag primitives append, from STATUS byte `x` on: one for each that changes the byte, in order (10_state.md
R36; 20_memory.md R90). -/
def flagRecords : Byte → List (Nat × Bool) → List Record
  | _, [] => []
  | x, w :: ws =>
    (if withBit x w.1 w.2 = x then [] else [.notify .status x (withBit x w.1 w.2)]) ++
      flagRecords (withBit x w.1 w.2) ws

/-- STATUS and the notifications of an instruction that writes its result and then the flag bits `writes`, in order: the
STATUS byte that leaves, the result write's records (20_memory.md R90), then the flag primitives' records, and no other. -/
structure Notifies (s t : State) (target : Option RegAddr) (v keep : Byte) (writes : List (Nat × Bool)) : Prop where
  status : t.cell Cell.status = statusAfterFlags (s.statusAfterResult target v keep) writes
  queue : t.notifyQueue =
    s.notifyQueue ++ s.resultRecords target v keep ++ flagRecords (s.statusAfterResult target v keep) writes

/-- The flags of STATUS have these values. -/
structure FlagsAre (t : State) (c dc z : Bool) : Prop where
  c : t.flagC = c
  dc : t.flagDC = dc
  z : t.flagZ = z

/-- Z, DC and C as data: the value's bits when STATUS is the target of a plain write, else unchanged. -/
def FlagsAsData (s t : State) (target : Option RegAddr) (v : Byte) : Prop :=
  (t.cell Cell.status).extractLsb' 0 3 =
    (if target = some Cell.status then v else s.cell Cell.status).extractLsb' 0 3

/-- What a byte-oriented instruction does with its result `r`: W or the file register's cell takes it, its flag writes
`writes` follow, the STATUS bits outside them and everything else are as before. -/
structure ByteResult (s t : State) (d : Dest) (f : FileField) (r keep : Byte) (writes : List (Nat × Bool)) : Prop where
  w : t.w = if d = .toW then r else s.w
  stores : StoresByte s t (s.resultCell d f) r
  upper : StatusUpper s t (s.resultCell d f) r
  notifies : Notifies s t (s.resultCell d f) r keep writes
  frame : DataFrame s t

/-- What a literal operation that writes W and then the flag bits `writes` leaves alone: every cell but STATUS, the STATUS
bits outside the flags, and everything else. -/
structure LiteralResult (s t : State) (r : Byte) (writes : List (Nat × Bool)) : Prop where
  w : t.w = r
  stores : StoresByte s t none r
  upper : StatusUpper s t none r
  notifies : Notifies s t none r keepTP writes
  frame : DataFrame s t

/-- A jump: the PC is the target, and every register-file cell but PCL and, in `pclath_synth`, PCLATH reads as before
(10_state.md R22, R23). INTCON, which RETFIE writes, is stated apart. -/
structure JumpsTo (s t : State) (target : ProgAddr) : Prop where
  pc : t.getPC = target
  pclath : t.cell Cell.pclath =
    match s.params.pcModel with
    | .pclathSynth => (target.extractLsb' 8 5).setWidth 8
    | .separatePch => s.cell Cell.pclath
  cells : ∀ c : RegAddr, c ≠ Cell.pcl → c ≠ Cell.pclath → c ≠ Cell.intcon → t.cell c = s.cell c
  pch : s.params.pcModel = .pclathSynth → t.pch = s.pch

/-- The frame of an instruction that moves the PC or the stack pointer: sleep, Timer0 and the engine as before. -/
structure ControlFrame (s t : State) : Prop where
  engine : EngineSame s t
  sleeping : t.sleeping = s.sleeping
  timer0 : t.timer0 = s.timer0

/-- What R135, R138, R139, R141, R143, R144 and R150 share: a result and Z, with C and DC unchanged, one
cycle, and the opcode's high six bits. -/
def ZeroFlagResult (i : Instr) (pattern : BitVec 6) (d : Dest) (f : FileField) (r : Byte) (s : State) : Prop :=
  ∃ t, exec i s = .next t ∧ ByteResult s t d f r keepFlags [(2, r == 0x00#8)] ∧
    FlagsAre t s.flagC s.flagDC (r == 0x00#8) ∧
    t.skip = false ∧ i.cycles = 1 ∧ decode (pattern ++ d.toBit ++ f) = .ok i

/-- The prescaler after SLEEP and CLRWDT: cleared when it is assigned to the watchdog; the rest of Timer0 as before. -/
def WdtPrescalerCleared (s t : State) : Prop :=
  t.timer0 = { s.timer0 with presc := if s.psa then 0#8 else s.timer0.presc }

/-- What SLEEP and CLRWDT leave alone: every cell but STATUS, whose change is notified, and everything else but sleep and
the prescaler. -/
def PowerFrame (s t : State) : Prop :=
  (∀ c : RegAddr, c ≠ Cell.status → t.cell c = s.cell c) ∧
  t.notifyQueue = s.notifyQueue ++
    (if t.cell Cell.status = s.cell Cell.status then []
     else [.notify .status (s.cell Cell.status) (t.cell Cell.status)]) ∧
  t.w = s.w ∧ t.pch = s.pch ∧ t.stack = s.stack ∧ t.sp = s.sp ∧ EngineSame s t

/-! ### Sequences of operations -/

/-- Push a list of return addresses, the head first. -/
def pushAll (s : State) (vs : List ProgAddr) : State := vs.foldl State.push s

/-- Pop `n` return addresses, in the order popped. -/
def popMany : Nat → State → List ProgAddr × State
  | 0, s => ([], s)
  | n + 1, s => ((popMany n s.pop).1.cons s.top, (popMany n s.pop).2)

/-- The records environment writes append, in order: each write's notification, from the cells the writes before it leave
(60_exceptions.md R322). -/
def envRecords : State → List (RegAddr × Byte) → List Record
  | _, [] => []
  | s, e :: es => notifyRecords e.1 (s.cell e.1) e.2 ++ envRecords (s.writeDirect e.1 e.2) es

/-- The four CLKOUT records of one instruction cycle, from Q1. -/
def clkoutCycle : List Record := [.clkout .q1 false, .clkout .q2 false, .clkout .q3 true, .clkout .q4 true]

end Sys2Proof.Machine
end

