-- ==== Sys2Proof/WellFormed.lean ====
section
/-! DEFINITION. Well-formedness of what the outside gives the block: the parameters and a program image.
An `Instr` needs no check: each operand's type is exactly as wide as its field (spec 30_encoding.md R107), so
every term of `Instr` is an instruction of Table E1. -/

namespace Sys2Proof

/-- `FLASH_SIZE` has one of its legal values (00_scope.md R5). -/
def Params.wf (p : Params) : Bool :=
  p.flashSize == 1024 || p.flashSize == 2048 || p.flashSize == 4096

/-- A program image whose addresses all lie inside flash (60_exceptions.md R323; the loader ignores the
others). -/
def imageWf (p : Params) (image : List (Nat × Nat)) : Bool :=
  image.all fun entry => entry.1 < p.flashSize

end Sys2Proof
end

