-- ==== Sys2Proof/Certificates/Slice0/Obligations.lean ====
section
/-! DEFINITION. The statements about the model. Each docstring names the rule of the spec it formalises. -/

open Sys2Proof Sys2Proof.Machine

/-! ## Encoding (30_encoding.md) -/

/-- R118's round trip, with every operand at every value. -/
def Obligations.DecodeOfEncodeIsTheInstruction : Prop :=
  ∀ i : Instr, decode (encode i) = .ok i

/-- Encoding a decoded word gives the word back, but for the don't-care bits of R108. That the encoder writes them 0 is the
model's choice (log entry 14); R108 says only that the decoder ignores them. -/
def Obligations.EncodeOfDecodeDropsOnlyDontCares : Prop :=
  ∀ (op : InsnWord) (i : Instr), decode op = .ok i →
    encode i = op &&& ~~~(match i.opcode with
      | .clrw => 0x007F#14
      | .movlw | .retlw => 0x0300#14
      | .addlw | .sublw => 0x0100#14
      | _ => 0x0000#14)

/-- R108. -/
def Obligations.DontCareBitsDecodeAlike : Prop :=
  (∀ x : BitVec 7, decode (0b0000010#7 ++ x) = .ok .clrw) ∧
  (∀ (x : BitVec 2) (k : Byte), decode (0b1100#4 ++ x ++ k) = .ok (.movlw k)) ∧
  (∀ (x : BitVec 2) (k : Byte), decode (0b1101#4 ++ x ++ k) = .ok (.retlw k)) ∧
  (∀ (x : BitVec 1) (k : Byte), decode (0b11111#5 ++ x ++ k) = .ok (.addlw k)) ∧
  (∀ (x : BitVec 1) (k : Byte), decode (0b11110#5 ++ x ++ k) = .ok (.sublw k))

/-- R112: the illegal words are exactly these, and a cycle step that fetches one raises the decode fault. -/
def Obligations.IllegalWordsAreExactlyThese : Prop :=
  (∀ op : InsnWord, (∃ e, decode op = .rejected e) ↔
    (0x0001 ≤ op.toNat ∧ op.toNat ≤ 0x0007) ∨ (0x000A ≤ op.toNat ∧ op.toNat ≤ 0x0062) ∨
    (0x0065 ≤ op.toNat ∧ op.toNat ≤ 0x007F) ∨ (0x3B00 ≤ op.toNat ∧ op.toNat ≤ 0x3BFF)) ∧
  (∀ (s : State) (e : DecodeError), decode s.fetchWord = .rejected e →
    s.fetchExecute = .next (s.raiseDecodeFault s.fetchWord s.fetchAddr))

/-- R110: the tree walk gives the opcode of the unique row whose significant high bits equal those of the word. -/
def Obligations.TrieLookupIsTheUniqueRow : Prop :=
  ∀ op : InsnWord, dispatchTrie.find (highBits op) = lookup op ∧
    ∀ r ∈ tableE1, (r.accepts op = true ↔ lookup op = some r.opcode)

/-- Words written out from Table E1 and from the vectors of L1.1. -/
def Obligations.SpecWordsDecodeToTheirInstructions : Prop :=
  decode 0b00011110100101#14 = .ok (.addwf .toF 0x25#7) ∧
  decode 0b00001010100101#14 = .ok (.subwf .toF 0x25#7) ∧
  decode 0b00000010100101#14 = .ok (.movwf 0x25#7) ∧
  decode 0b00000100000000#14 = .ok .clrw ∧
  decode 0b11000001011010#14 = .ok (.movlw 0x5A#8) ∧
  decode 0b11111001011010#14 = .ok (.addlw 0x5A#8) ∧
  decode 0b01000110100101#14 = .ok (.bcf 3#3 0x25#7) ∧
  decode 0b01110110100101#14 = .ok (.btfss 3#3 0x25#7) ∧
  decode 0b10000100100011#14 = .ok (.call 0x123#11) ∧
  decode 0b10100100100011#14 = .ok (.goto 0x123#11) ∧
  decode 0b00000000001001#14 = .ok .retfie ∧
  decode 0b00000001100011#14 = .ok .sleep

/-! ## The cycle step and the tick (45_execution_engine.md, 60_exceptions.md) -/

/-- When a tick reaches the start of Q1 with nothing holding the fetch back and the word to fetch decodes to `i`, the
step is the execute of `i` on the advanced state, with what R230 and R300 put around it: the budget, the trace record
and the CLKOUT record of Q1. -/
def Obligations.StepRunsTheDecodedInstruction : Prop :=
  ∀ (s u t : State) (i : Instr), s.beforeClock = .next u →
    u.clock.running = true → u.clock.osc = false → u.clock.phase = .q4 →
    u.fault = none → ¬(u.paused = true ∧ u.stepBudget = 0) → u.sleeping = false → u.pendingCycles = 0 →
    u.interruptDue = false → decode u.fetchWord = .ok i →
    exec i ((u.setClock u.clock.toggle).fetchAdvance i) = .next t →
    step s = .next { t with
      stepBudget := t.stepBudget - 2
      outputs := t.outputs ++ [.trace .exec (some u.fetchWord) u.fetchAddr t.sp t.w]
      notifyQueue := t.notifyQueue ++ [.clkout .q1 false] }

/-- A word the host places with `withFetchWord` is the word the very next step fetches and runs (a convention of the
model, log entry 9). -/
def Obligations.PlacedWordIsTheNextInstructionRun : Prop :=
  ∀ (s : State) (nbits w : Nat) (i : Instr), decodeTableWord nbits w = some i →
    ∃ u t : State, (s.withFetchWord nbits w).beforeClock = .next u ∧
      u.skip = false ∧ decode u.fetchWord = .ok i ∧
      exec i ((u.setClock u.clock.toggle).fetchAdvance i) = .next t ∧
      step (s.withFetchWord nbits w) = .next { t with
        stepBudget := t.stepBudget - 2
        outputs := t.outputs ++ [.trace .exec (some u.fetchWord) u.fetchAddr t.sp t.w]
        notifyQueue := t.notifyQueue ++ [.clkout .q1 false] }

/-- R234, with the clear of `skip` of R233: the advance before the execute, and that it leaves everything else alone. -/
def Obligations.FetchAdvanceMovesToTheNextWord : Prop :=
  ∀ (s : State) (i : Instr), s.params.wf = true →
    (s.fetchAdvance i).getPC.toNat = (s.fetchAddr.toNat + 1) % s.params.flashSize ∧
    s.fetchAddr.toNat = s.getPC.toNat % s.params.flashSize ∧
    (s.fetchAdvance i).pendingCycles = i.cycles - 1 ∧
    (s.fetchAdvance i).wakeOne = false ∧ (s.fetchAdvance i).skip = false ∧
    (s.fetchAdvance i).cell Cell.pclath =
      (match s.params.pcModel with
        | .pclathSynth => ((s.fetchAdvance i).getPC.extractLsb' 8 5).setWidth 8
        | .separatePch => s.cell Cell.pclath) ∧
    (∀ c : RegAddr, c ≠ Cell.pcl → c ≠ Cell.pclath → (s.fetchAdvance i).cell c = s.cell c) ∧
    (s.fetchAdvance i).w = s.w ∧ (s.fetchAdvance i).stack = s.stack ∧ (s.fetchAdvance i).sp = s.sp ∧
    (s.fetchAdvance i).notifyQueue = s.notifyQueue ∧ (s.fetchAdvance i).sleeping = s.sleeping ∧
    (s.fetchAdvance i).timer0 = s.timer0 ∧ (s.params.pcModel = .pclathSynth → (s.fetchAdvance i).pch = s.pch) ∧
    EngineSame ((s.setPending (i.cycles - 1)).setWakeOne false) (s.fetchAdvance i)

/-- R260: a fetched illegal word latches the fault with its word and address, stops the clock, reports to the host, and
changes nothing else; cause code 1; and no execute raises a fault. -/
def Obligations.DecodeFaultIsPreciseAndLatched : Prop :=
  (∀ (s : State) (e : DecodeError), s.fault = none → ¬(s.paused = true ∧ s.stepBudget = 0) → s.sleeping = false →
    s.pendingCycles = 0 → s.interruptDue = false → decode s.fetchWord = .rejected e →
    s.cycleStep = .next { s with
      fault := some { opcode := s.fetchWord, pc := s.fetchAddr }
      clock := { s.clock with running := false }
      outputs := s.outputs ++ [.faultReport s.fetchWord s.fetchAddr] }) ∧
  (∀ (op : InsnWord) (pc : ProgAddr), HostOutput.causeCode (.faultReport op pc) = some 1) ∧
  (∀ (i : Instr) (s : State), ∃ t, exec i s = .next t ∧ t.fault = s.fault)

/-- R261: while the fault is latched with the clock stopped, a tick without a reset event keeps the fault, the clock and
everything the CPU owns: W, the PC with PCH, the stack, `skip`, `pending_cycles`, `sleeping`, `wake_one`, INTCON[7:3], and
every cell but TMR0, INTCON and those the environment may write (STATUS, FSR, PCLATH, OPTION, PCON and the general-purpose
cells among them); it queues no CLKOUT record. A reset event clears the fault and starts the clock. -/
def Obligations.LatchedFaultStopsTheClockUntilReset : Prop :=
  (∀ s t : State, s.fault ≠ none → s.clock.running = false →
    (∀ e ∈ s.controlQueue ++ s.nextInput.controlEvents, e ≠ .reset ∧ e ≠ .back) → step s = .next t →
    t.fault = s.fault ∧ t.clock = s.clock ∧ t.w = s.w ∧ t.getPC = s.getPC ∧ t.pch = s.pch ∧ t.stack = s.stack ∧
    t.sp = s.sp ∧ t.skip = s.skip ∧ t.pendingCycles = s.pendingCycles ∧ t.sleeping = s.sleeping ∧ t.wakeOne = s.wakeOne ∧
    (t.cell Cell.intcon).extractLsb' 3 5 = (s.cell Cell.intcon).extractLsb' 3 5 ∧
    (∀ c : RegAddr, c ∉ envCells → c ≠ Cell.tmr0 → c ≠ Cell.intcon → t.cell c = s.cell c) ∧
    (∀ c ∈ [Cell.status, Cell.fsr, Cell.pclath, Cell.option, Cell.pcon], t.cell c = s.cell c) ∧
    (∀ c : RegAddr, 0x20 ≤ (offsetOf c).toNat → t.cell c = s.cell c) ∧
    (∀ r ∈ t.notifyQueue, ∀ p l, r ≠ .clkout p l)) ∧
  (∀ s u : State, (∃ e ∈ s.controlQueue ++ s.nextInput.controlEvents, e = .reset ∨ e = .back) →
    s.beforeClock = .next u → u.fault = none ∧ u.clock.running = true)

/-- R232: a stall cycle lowers `pending_cycles` and traces, and does nothing else; exactly the five two-cycle
instructions and an interrupt entry leave one stall cycle. -/
def Obligations.StallCycleOnlyCountsDown : Prop :=
  (∀ s : State, s.fault = none → ¬(s.paused = true ∧ s.stepBudget = 0) → s.sleeping = false → 0 < s.pendingCycles →
    s.cycleStep = .next { s with
      pendingCycles := s.pendingCycles - 1
      outputs := s.outputs ++ [.trace .stall none s.fetchAddr s.sp s.w] }) ∧
  (∀ (s : State) (i : Instr), (s.fetchAdvance i).pendingCycles =
    match i with
    | .call _ | .goto _ | .ret | .retlw _ | .retfie => 1
    | _ => 0) ∧
  (∀ s : State, s.interruptEntry.pendingCycles = 1)

/-- R233, R341: with `skip` = 1 the cycle step runs the phantom NOP whatever word the flash holds: the PC moves past the
skipped word, `skip` and `wake_one` are cleared, no fault is raised and no stall is left. It uses the budget as any pair
(R237). -/
def Obligations.SkippedWordRunsAsPhantomNop : Prop :=
  ∀ s : State, s.fault = none → ¬(s.paused = true ∧ s.stepBudget = 0) → s.sleeping = false → s.pendingCycles = 0 →
    s.skip = true →
    ∃ t, s.cycleStep = .next t ∧ t.getPC = s.nextAddr s.fetchAddr ∧ t.skip = false ∧ t.fault = none ∧
      t.pendingCycles = 0 ∧ t.w = s.w ∧ t.stack = s.stack ∧ t.sp = s.sp ∧ t.timer0 = s.timer0 ∧
      t.sleeping = false ∧ t.notifyQueue = s.notifyQueue ∧ t.wakeOne = false ∧ t.stepBudget = s.stepBudget - 2 ∧
      t.paused = s.paused ∧ t.clock = s.clock ∧ t.controlQueue = s.controlQueue ∧
      (∀ c : RegAddr, c ≠ Cell.pcl → c ≠ Cell.pclath → t.cell c = s.cell c) ∧
      t.outputs = s.outputs ++ [.trace .exec (some 0x0000#14) s.fetchAddr s.sp s.w]

/-- R272: what an interrupt entry saves, clears and sets, and that it leaves everything else alone: every other register, the
parameters, program memory, run control, the fault latch, the clock and the queues, and PCH where it does not hold the PC. -/
def Obligations.InterruptEntrySavesOnlyThePc : Prop :=
  ∀ s : State, ∃ t, s.interruptEntry = t ∧
    t.sp = s.sp - 1#3 ∧ t.top = s.getPC ∧
    (∀ j : Fin 8, j.val ≠ (s.sp - 1#3).toNat → t.stack[j] = s.stack[j]) ∧
    t.gie = false ∧ (t.cell Cell.intcon).extractLsb' 0 7 = (s.cell Cell.intcon).extractLsb' 0 7 ∧
    t.getPC = 0x0004#13 ∧ t.pendingCycles = 1 ∧ EngineSame (s.setPending 1) t ∧
    (s.params.pcModel = .pclathSynth → t.pch = s.pch) ∧
    t.w = s.w ∧ t.skip = s.skip ∧ t.wakeOne = s.wakeOne ∧ t.sleeping = s.sleeping ∧ t.timer0 = s.timer0 ∧
    (∀ c : RegAddr, c ≠ Cell.intcon → c ≠ Cell.pcl → c ≠ Cell.pclath → t.cell c = s.cell c) ∧
    t.cell Cell.pclath = (match s.params.pcModel with
      | .pclathSynth => 0x00#8
      | .separatePch => s.cell Cell.pclath) ∧
    t.notifyQueue = s.notifyQueue ++
      (if s.gie then [.notify .intcon (s.cell Cell.intcon) (t.cell Cell.intcon)] else [])

/-- R235, with `IRQ()` of R271 written out and R262's order: an interrupt is taken, whatever word would have been
fetched, exactly when the model is `vectored`, no skip and no `wake_one` is set, and an enabled flag is pending under
GIE; its record names the vector. -/
def Obligations.InterruptIsTakenExactlyWhenDue : Prop :=
  ∀ s : State, s.fault = none → ¬(s.paused = true ∧ s.stepBudget = 0) → s.sleeping = false → s.pendingCycles = 0 →
    ((s.params.interruptModel = .vectored ∧ s.skip = false ∧ s.wakeOne = false ∧ s.intconBit 7 = true ∧
        ((s.intconBit 5 = true ∧ s.intconBit 2 = true) ∨ (s.intconBit 4 = true ∧ s.intconBit 1 = true) ∨
         (s.intconBit 3 = true ∧ s.intconBit 0 = true) ∨
         (s.intconBit 6 = true ∧ s.cell Cell.pie1 &&& s.cell Cell.pir1 ≠ 0x00#8))) →
      s.cycleStep = .next { s.interruptEntry with
        stepBudget := s.stepBudget - 2
        outputs := s.outputs ++ [.trace .interrupt none 0x0004#13 (s.sp - 1#3) s.w] }) ∧
    (¬(s.params.interruptModel = .vectored ∧ s.skip = false ∧ s.wakeOne = false ∧ s.intconBit 7 = true ∧
        ((s.intconBit 5 = true ∧ s.intconBit 2 = true) ∨ (s.intconBit 4 = true ∧ s.intconBit 1 = true) ∨
         (s.intconBit 3 = true ∧ s.intconBit 0 = true) ∨
         (s.intconBit 6 = true ∧ s.cell Cell.pie1 &&& s.cell Cell.pir1 ≠ 0x00#8))) →
      s.cycleStep = s.fetchExecute)

/-- R231, with the wake of R275, which does not read GIE: a faulted, a paused and an asleep engine do nothing in a cycle
step, and a cycle that wakes the device does nothing but wake it. None of them traces. -/
def Obligations.GatedCycleStepDoesNothing : Prop :=
  (∀ s : State, s.fault ≠ none ∨ (s.paused = true ∧ s.stepBudget = 0) → s.cycleStep = .next s) ∧
  (∀ s : State, s.fault = none → ¬(s.paused = true ∧ s.stepBudget = 0) → s.sleeping = true →
    (((s.intconBit 5 = true ∧ s.intconBit 2 = true) ∨ (s.intconBit 4 = true ∧ s.intconBit 1 = true) ∨
      (s.intconBit 3 = true ∧ s.intconBit 0 = true) ∨
      (s.intconBit 6 = true ∧ s.cell Cell.pie1 &&& s.cell Cell.pir1 ≠ 0x00#8)) →
      s.cycleStep = .next { s with sleeping := false, wakeOne := true }) ∧
    (¬((s.intconBit 5 = true ∧ s.intconBit 2 = true) ∨ (s.intconBit 4 = true ∧ s.intconBit 1 = true) ∨
      (s.intconBit 3 = true ∧ s.intconBit 0 = true) ∨
      (s.intconBit 6 = true ∧ s.cell Cell.pie1 &&& s.cell Cell.pir1 ≠ 0x00#8)) →
      s.cycleStep = .next s))

/-- R237: while paused with the budget a `next` event sets, one cycle step that runs an instruction or enters an
interrupt uses the budget up, so the cycle step after it does nothing. -/
def Obligations.PausedEngineRunsExactlyOnePair : Prop :=
  ∀ s t : State, s.fault = none → s.paused = true → s.stepBudget = 2 → s.sleeping = false → s.pendingCycles = 0 →
    s.cycleStep = .next t → t.stepBudget = (if t.fault = none then 0 else 2) ∧ t.cycleStep = .next t

/-- R240, R241: what each control event does, in FIFO order, and that the control micro-step runs every event of the queue,
the oldest first, and leaves the queue empty. -/
def Obligations.ControlEventsActInOrder : Prop :=
  (∀ (s : State) (es : List ControlEvent), s.runControl (.play :: es) = { s with paused := false }.runControl es) ∧
  (∀ (s : State) (es : List ControlEvent), s.runControl (.pause :: es) = { s with paused := true }.runControl es) ∧
  (∀ (s : State) (es : List ControlEvent), s.paused = true →
    s.runControl (.next :: es) = { s with stepBudget := 2 }.runControl es) ∧
  (∀ (s : State) (es : List ControlEvent), s.paused = false → s.runControl (.next :: es) = s.runControl es) ∧
  (∀ (s : State) (es : List ControlEvent), s.runControl (.back :: es) = s.controlReset ∧
    s.runControl (.reset :: es) = s.controlReset) ∧
  (∀ (s : State) (n : String) (es : List ControlEvent), s.runControl (.other n :: es) = s.runControl es) ∧
  (∀ s : State, s.runControl [] = s) ∧
  (∀ s : State, s.drainControl = { s with controlQueue := [] }.runControl s.controlQueue) ∧
  (∀ s : State, s.drainControl.controlQueue = [])

/-- R331, R332: what a `back` or `reset` event leaves, cell by cell, and what it keeps. Under `GPR_RESET = unknown` the
general-purpose cells hold this reset's draw: that a draw is the free constant `Config.gprDraw` numbered by `drawCount` is the
model's choice of form (log entries 3 and 6). -/
def Obligations.ControlResetLeavesTheResetState : Prop :=
  ∀ s : State, ∃ t, s.controlReset = t ∧
    t.notifyQueue = [] ∧ t.controlQueue = [] ∧
    (s.params.gprReset = .zero → ∀ c : RegAddr, t.cell c =
      if c = Cell.status then 0x18#8 else if c = Cell.option then 0xFF#8 else if c = Cell.trisa then 0xFF#8
      else if c = Cell.trisb then 0xFF#8 else if c = Cell.pcon then 0x08#8 else if c = Cell.pr2 then 0xFF#8
      else if c = Cell.txsta then 0x02#8 else 0x00#8) ∧
    (s.params.gprReset = .unknown → ∀ c : RegAddr, t.cell c =
      if c = Cell.status then 0x18#8 else if c = Cell.option then 0xFF#8 else if c = Cell.trisa then 0xFF#8
      else if c = Cell.trisb then 0xFF#8 else if c = Cell.pcon then 0x08#8 else if c = Cell.pr2 then 0xFF#8
      else if c = Cell.txsta then 0x02#8
      else if 0x20 ≤ (offsetOf c).toNat ∧ resolve s.params c = some c then Config.gprDraw s.drawCount c.toNat
      else 0x00#8) ∧
    (s.params.pcModel = .separatePch → t.pch = 0#5) ∧
    t.w = 0x00#8 ∧ t.skip = false ∧ t.sp = 0#3 ∧ t.stack = Vector.replicate 8 0#13 ∧ t.pendingCycles = 0 ∧
    t.fault = none ∧ t.clock = { s.clock with running := true } ∧ t.sleeping = false ∧ t.wakeOne = false ∧
    t.stepBudget = 2 ∧
    t.timer0 = { presc := 0#8, sync := false, ra4Prev := false, clkPrev := s.timer0.clkPrev, inhibit := 0 } ∧
    t.paused = s.paused ∧ t.configWord = s.configWord ∧ t.flash = s.flash ∧ t.params = s.params

/-- R53, the power-on column, for every parameter value and every CONFIG word, no image loaded. `State.reset` is the one at
the default parameters; that CONFIG is 0 there and the default `FLASH_FILL` are the model's choices (log entries 7 and 2), and
so is the form of a draw under `GPR_RESET = unknown` (log entry 3). -/
def Obligations.PowerOnStateIsAsTabled : Prop :=
  State.reset = State.powerOn Params.default 0x0000#16 ∧
  ∀ (p : Params) (config : BitVec 16), ∃ t, State.powerOn p config = t ∧ t.params = p ∧ t.configWord = config ∧
    (∀ a, t.flashRead a = p.flashFill) ∧
    t.w = 0x00#8 ∧ t.getPC = 0x0000#13 ∧ t.cell Cell.pcl = 0x00#8 ∧ t.cell Cell.pclath = 0x00#8 ∧ t.pch = 0#5 ∧
    t.stack = Vector.replicate 8 0#13 ∧ t.sp = 0#3 ∧ t.pendingCycles = 0 ∧ t.skip = false ∧ t.paused = false ∧
    t.stepBudget = 2 ∧ t.fault = none ∧ t.sleeping = false ∧ t.wakeOne = false ∧
    t.timer0 = { presc := 0#8, sync := false, ra4Prev := false, clkPrev := true, inhibit := 0 } ∧
    t.clock = { osc := false, phase := .q4, running := true } ∧ t.notifyQueue = [] ∧ t.controlQueue = [] ∧
    (p.gprReset = .zero → ∀ c : RegAddr, t.cell c =
      if c = Cell.status then 0x18#8 else if c = Cell.option then 0xFF#8 else if c = Cell.trisa then 0xFF#8
      else if c = Cell.trisb then 0xFF#8 else if c = Cell.pcon then 0x08#8 else if c = Cell.pr2 then 0xFF#8
      else if c = Cell.txsta then 0x02#8 else 0x00#8) ∧
    (p.gprReset = .unknown → ∀ c : RegAddr, t.cell c =
      if c = Cell.status then 0x18#8 else if c = Cell.option then 0xFF#8 else if c = Cell.trisa then 0xFF#8
      else if c = Cell.trisb then 0xFF#8 else if c = Cell.pcon then 0x08#8 else if c = Cell.pr2 then 0xFF#8
      else if c = Cell.txsta then 0x02#8
      else if 0x20 ≤ (offsetOf c).toNat ∧ resolve p c = some c then Config.gprDraw 0 c.toNat
      else 0x00#8)

/-- R300, R301: a toggle flips the line; a rising edge starts the next phase and queues its CLKOUT record, low in Q1 and
Q2, high in Q3 and Q4, and Q1 runs the cycle step first; a falling edge does nothing more; a stopped clock does nothing.
Eight toggles are one instruction cycle. That the record of Q1 is queued also where the cycle step latches a decode fault is
the model's reading of R300's pseudocode beside R261 (log entry 8). -/
def Obligations.ClockTogglesThroughFourPhases : Prop :=
  (∀ s : State, s.clock.running = false → s.clockToggle = .next s) ∧
  (∀ s : State, s.clock.running = true → s.clock.osc = true →
    s.clockToggle = .next (s.setClock { s.clock with osc := false })) ∧
  (∀ s : State, s.clock.running = true → s.clock.osc = false → s.clock.phase = .q1 →
    s.clockToggle = .next { s with
      clock := { s.clock with osc := true, phase := .q2 }, notifyQueue := s.notifyQueue ++ [.clkout .q2 false] }) ∧
  (∀ s : State, s.clock.running = true → s.clock.osc = false → s.clock.phase = .q2 →
    s.clockToggle = .next { s with
      clock := { s.clock with osc := true, phase := .q3 }, notifyQueue := s.notifyQueue ++ [.clkout .q3 true] }) ∧
  (∀ s : State, s.clock.running = true → s.clock.osc = false → s.clock.phase = .q3 →
    s.clockToggle = .next { s with
      clock := { s.clock with osc := true, phase := .q4 }, notifyQueue := s.notifyQueue ++ [.clkout .q4 true] }) ∧
  (∀ s t : State, s.clock.running = true → s.clock.osc = false → s.clock.phase = .q4 →
    (s.setClock { osc := true, phase := .q1, running := true }).cycleStep = .next t →
    s.clockToggle = .next { t with notifyQueue := t.notifyQueue ++ [.clkout .q1 false] }) ∧
  (∀ c : ClockGen, c.toggle.toggle.toggle.toggle.toggle.toggle.toggle.toggle = c)

/-- R310, R311, R347: no record is delivered in the tick that raises it. ENV runs first and leaves Timer0 alone; its records,
one notification for each write in order, are queued behind the snapshot taken before it; DRAIN delivers exactly that
snapshot, the queue the tick began with, and queues nothing; CONTROL, without a reset event, leaves the records of ENV queued
and what DRAIN did to Timer0 as it is. Whatever instruction the clock micro-step then runs, it leaves the synchronizer, the
inhibit counter and the levels Timer0 saw as they were, touches the prescaler only to clear it, and keeps every record queued
before it at the head of the queue. A tick whose ENV is refused is refused; any other tick toggles the clock, whatever its
phase and whatever holds the engine. ENV applies the writes of the tick's input record in order, the first refused one ending
it. Four things here are the model's own choices and no rule of the spec: that the inputs are a script in the state, whose head
is the tick's record and past whose end both lists are empty (log entry 4); that a tick begins with no outputs (log entry 5);
that it sets `started` (log entry 6); and that a forbidden write is refused and its refusal ends ENV and the tick (log entry
11; R322 says only that such a write has no move). -/
def Obligations.ClockMicroStepDeliversNothingToTimer0 : Prop :=
  (∀ s e : State, s.openTick.applyInput s.nextInput = .next e →
    e.timer0 = s.timer0 ∧ e.notifyQueue = envRecords s s.nextInput.envWrites ∧
    e.controlQueue = s.controlQueue ++ s.nextInput.controlEvents ∧
    (e.drain s.notifyQueue).notifyQueue = e.notifyQueue ∧
    ∃ u, s.beforeClock = .next u ∧ u = (e.drain s.notifyQueue).drainControl ∧
      ((∀ x ∈ e.controlQueue, x ≠ .reset ∧ x ≠ .back) →
        u.notifyQueue = e.notifyQueue ∧ u.timer0 = (e.drain s.notifyQueue).timer0)) ∧
  (∀ u t : State, u.clockToggle = .next t →
    t.timer0.sync = u.timer0.sync ∧ t.timer0.inhibit = u.timer0.inhibit ∧ t.timer0.ra4Prev = u.timer0.ra4Prev ∧
    t.timer0.clkPrev = u.timer0.clkPrev ∧ (t.timer0.presc = u.timer0.presc ∨ t.timer0.presc = 0#8) ∧
    u.notifyQueue <+: t.notifyQueue) ∧
  (∀ s u : State, s.beforeClock = .next u → step s = u.clockToggle) ∧
  (∀ (s : State) (r : Refusal), s.beforeClock = .refused r → step s = .refused r) ∧
  (∀ (s : State) (r : Refusal), s.openTick.applyInput s.nextInput = .refused r → s.beforeClock = .refused r) ∧
  (∀ (s : State) (i : HostInput), (∀ r, s.applyEnvWrites i.envWrites = .refused r → s.applyInput i = .refused r) ∧
    ∀ t, s.applyEnvWrites i.envWrites = .next t →
      s.applyInput i = .next { t with controlQueue := t.controlQueue ++ i.controlEvents }) ∧
  (∀ s : State, s.applyEnvWrites [] = .next s) ∧
  (∀ (s : State) (e : RegAddr × Byte) (es : List (RegAddr × Byte)),
    (∀ r, s.applyEnvWrite e.1 e.2 = .refused r → s.applyEnvWrites (e :: es) = .refused r) ∧
    ∀ t, s.applyEnvWrite e.1 e.2 = .next t → s.applyEnvWrites (e :: es) = t.applyEnvWrites es) ∧
  (∀ s : State, s.openTick =
    { s with notifyQueue := [], outputs := [], hostInputs := s.hostInputs.tail, started := true }) ∧
  (∀ s : State, (s.hostInputs = [] → s.nextInput = { envWrites := [], controlEvents := [] }) ∧
    ∀ i is, s.hostInputs = i :: is → s.nextInput = i)

/-- R322: the environment may write the 26 cells of R51, and set INTF and RBIF in INTCON; such a write sets the cell and is
notified, and any other, of a cell the block owns or of a general-purpose cell, is refused. That a forbidden write is a refusal
is the model's choice (log entry 11), that an INTCON write may also change nothing its reading (log entry 12). -/
def Obligations.EnvironmentWritesOnlyItsOwnCells : Prop :=
  ∀ (s : State) (c : RegAddr) (v : Byte),
    ((c ∈ envCells ∨ (c = Cell.intcon ∧ (v &&& 0xFC#8) = (s.cell Cell.intcon &&& 0xFC#8) ∧
        (s.cell Cell.intcon &&& ~~~v) = 0x00#8)) →
      ∃ t, s.applyEnvWrite c v = .next t ∧ (∀ x : RegAddr, t.cell x = if x = c then v else s.cell x) ∧
        t.notifyQueue = s.notifyQueue ++
          (if c = Cell.porta ∧ v ≠ s.cell c then [.notify .porta (s.cell c) v]
           else if c = Cell.intcon ∧ v ≠ s.cell c then [.notify .intcon (s.cell c) v] else []) ∧
        t.w = s.w ∧ t.pch = s.pch ∧ DataFrame s t ∧ t.skip = s.skip) ∧
    (¬(c ∈ envCells ∨ (c = Cell.intcon ∧ (v &&& 0xFC#8) = (s.cell Cell.intcon &&& 0xFC#8) ∧
        (s.cell Cell.intcon &&& ~~~v) = 0x00#8)) →
      s.applyEnvWrite c v = .refused (.hostWriteForbidden c v)) ∧
    (c ∈ envCells ↔ c ∈ [0x005#9, 0x006#9, 0x00C#9, 0x00E#9, 0x00F#9, 0x010#9, 0x011#9, 0x012#9, 0x015#9, 0x016#9,
      0x017#9, 0x018#9, 0x019#9, 0x01A#9, 0x01F#9, 0x085#9, 0x086#9, 0x08C#9, 0x092#9, 0x098#9, 0x099#9, 0x09A#9, 0x09B#9,
      0x09C#9, 0x09D#9, 0x09F#9]) ∧
    (offsetOf c = 0#7 ∨ c = Cell.tmr0 ∨ c = Cell.pcl ∨ c = Cell.status ∨ c = Cell.fsr ∨ c = Cell.pclath ∨
      c = Cell.intcon ∨ c = Cell.option ∨ c = Cell.pcon ∨ 0x20 ≤ (offsetOf c).toNat → c ∉ envCells)

/-! ## Timer0 (60_exceptions.md) -/

/-- The source's 1:4 property at every rate (R291, R293): with the internal source and the prescaler assigned to Timer0
and cleared, 2^(PS+1) instruction cycles give exactly one increment and clear the prescaler again. -/
def Obligations.PrescaledTimerCountsOncePerRate : Prop :=
  ∀ s : State, s.t0cs = false → s.psa = false → s.sleeping = false →
    s.timer0 = { presc := 0#8, sync := false, ra4Prev := s.timer0.ra4Prev, clkPrev := true, inhibit := 0 } →
    (s.drain (List.replicate (2 ^ (s.ps.toNat + 1)) clkoutCycle).flatten).cell Cell.tmr0 =
      s.cell Cell.tmr0 + 1#8 ∧
    (s.drain (List.replicate (2 ^ (s.ps.toNat + 1)) clkoutCycle).flatten).timer0 = s.timer0 ∧
    ∀ n, n < 2 ^ (s.ps.toNat + 1) →
      (s.drain (List.replicate n clkoutCycle).flatten).cell Cell.tmr0 = s.cell Cell.tmr0

/-- R311: a drain delivers its snapshot head first. R297: an OPTION and an INTCON record have no effect. R324: a STATUS
record gives the host one `(old, old XOR new, new)` and nothing else. R298: what the record of a TMR0 write does, and how the
inhibit it starts drops the rising CLKOUT edges: each leaves TMR0 alone and counts the inhibit down by one. -/
def Obligations.TimerWriteInhibitsIncrements : Prop :=
  (∀ (s : State) (old new : Byte), s.deliver (.notify .tmr0 old new) = { s with timer0 := { s.timer0 with
    inhibit := s.params.tmr0WriteInhibit
    presc := if s.psa then s.timer0.presc else 0#8
    sync := false } }) ∧
  (∀ (s : State) (p : Phase), 0 < s.timer0.inhibit → s.timer0.clkPrev = false →
    (s.deliver (.clkout p true)).cell Cell.tmr0 = s.cell Cell.tmr0 ∧
    (s.deliver (.clkout p true)).timer0.inhibit = s.timer0.inhibit - 1) ∧
  (∀ s : State, s.drain [] = s) ∧
  (∀ (s : State) (r : Record) (rs : List Record), s.drain (r :: rs) = (s.deliver r).drain rs) ∧
  (∀ (s : State) (old new : Byte), s.deliver (.notify .option old new) = s ∧ s.deliver (.notify .intcon old new) = s ∧
    s.deliver (.notify .status old new) = { s with outputs := s.outputs ++ [.statusChange old (old ^^^ new) new] })

/-- R295, R296: the increment, its host event, the overflow's T0IF, and that neither notifies. -/
def Obligations.TimerIncrementSetsT0ifOnTheWrap : Prop :=
  (∀ s : State, 0 < s.timer0.inhibit → s.t0Increment = s) ∧
  (∀ s : State, s.timer0.inhibit = 0 → s.cell Cell.tmr0 ≠ 0xFF#8 →
    ∃ t, s.t0Increment = t ∧ (t.cell Cell.tmr0).toNat = (s.cell Cell.tmr0).toNat + 1 ∧
      t.outputs = s.outputs ++ [.timerValue (t.cell Cell.tmr0)] ∧
      (∀ c : RegAddr, c ≠ Cell.tmr0 → t.cell c = s.cell c) ∧ t.notifyQueue = s.notifyQueue ∧
      t.timer0 = s.timer0 ∧ t.w = s.w ∧ t.stack = s.stack ∧ t.sp = s.sp ∧ t.pch = s.pch ∧ t.skip = s.skip) ∧
  (∀ s : State, s.timer0.inhibit = 0 → s.cell Cell.tmr0 = 0xFF#8 →
    ∃ t, s.t0Increment = t ∧ t.cell Cell.tmr0 = 0x00#8 ∧ t.intconBit 2 = true ∧
      (t.cell Cell.intcon &&& 0xFB#8) = (s.cell Cell.intcon &&& 0xFB#8) ∧
      t.outputs = s.outputs ++ [.timerOverflow] ∧
      (∀ c : RegAddr, c ≠ Cell.tmr0 → c ≠ Cell.intcon → t.cell c = s.cell c) ∧ t.notifyQueue = s.notifyQueue ∧
      t.timer0 = s.timer0 ∧ t.w = s.w ∧ t.stack = s.stack ∧ t.sp = s.sp ∧ t.pch = s.pch ∧ t.skip = s.skip)

/-- R293: one source edge at the prescaler, by its assignment, its count and its rate. R291, with no external pulse waiting:
a rising CLKOUT record is one such edge of the internal source when T0CS = 0, awake and not inhibited; one that does not rise,
or that rises with the external source or asleep and no inhibit running, only notes its level. -/
def Obligations.PrescalerPulsesAtItsRate : Prop :=
  (∀ (s : State) (src : T0Source), s.psa = true → s.t0Prescale src = s.t0Pulse src) ∧
  (∀ (s : State) (src : T0Source), s.psa = false → 2 ^ (s.ps.toNat + 1) ≤ s.timer0.presc.toNat + 1 →
    s.t0Prescale src = { s with timer0 := { s.timer0 with presc := 0#8 } }.t0Pulse src) ∧
  (∀ (s : State) (src : T0Source), s.psa = false → s.timer0.presc.toNat + 1 < 2 ^ (s.ps.toNat + 1) →
    ∃ n : BitVec 8, n.toNat = s.timer0.presc.toNat + 1 ∧
      s.t0Prescale src = { s with timer0 := { s.timer0 with presc := n } }) ∧
  (∀ s : State, s.t0Pulse .internal = s.t0Increment) ∧
  (∀ s : State, s.t0Pulse .external = { s with timer0 := { s.timer0 with sync := true } }) ∧
  (∀ (s : State) (p : Phase), s.timer0.sync = false → s.timer0.clkPrev = false → s.t0cs = false → s.sleeping = false →
    s.timer0.inhibit = 0 →
    s.deliver (.clkout p true) = { s with timer0 := { s.timer0 with clkPrev := true } }.t0Prescale .internal) ∧
  (∀ (s : State) (p : Phase) (level : Bool), s.timer0.sync = false →
    (s.timer0.clkPrev = true ∨ level = false ∨ ((s.t0cs = true ∨ s.sleeping = true) ∧ s.timer0.inhibit = 0)) →
    s.deliver (.clkout p level) = { s with timer0 := { s.timer0 with clkPrev := level } })

/-- R292, R294: with the external source at 1:1, the edge T0SE selects on RA4 sets the synchronizer, and the next clkout
record of any phase counts it; the other edge, and no edge, set nothing. Through the prescaler that edge is one source edge of
R293; without the external source, or asleep, a PORTA record only notes the level of RA4. -/
def Obligations.ExternalPulseCountsAtTheNextClkout : Prop :=
  (∀ (s : State) (old new : Byte), s.t0cs = true → s.psa = true → s.sleeping = false →
    s.deliver (.notify .porta old new) = { s with timer0 := { s.timer0 with
      ra4Prev := new.getLsbD 4
      sync := s.timer0.sync ||
        (if s.t0se then s.timer0.ra4Prev && !new.getLsbD 4 else !s.timer0.ra4Prev && new.getLsbD 4) } }) ∧
  (∀ (s : State) (old new : Byte), s.t0cs = true → s.psa = false → s.sleeping = false →
    s.deliver (.notify .porta old new) =
      if (if s.t0se then s.timer0.ra4Prev && !new.getLsbD 4 else !s.timer0.ra4Prev && new.getLsbD 4) then
        { s with timer0 := { s.timer0 with ra4Prev := new.getLsbD 4 } }.t0Prescale .external
      else { s with timer0 := { s.timer0 with ra4Prev := new.getLsbD 4 } }) ∧
  (∀ (s : State) (old new : Byte), s.t0cs = false ∨ s.sleeping = true →
    s.deliver (.notify .porta old new) = { s with timer0 := { s.timer0 with ra4Prev := new.getLsbD 4 } }) ∧
  (∀ (s : State) (p : Phase) (level : Bool), s.t0cs = true → s.sleeping = false → s.timer0.inhibit = 0 →
    (s.deliver (.clkout p level)).cell Cell.tmr0 = (if s.timer0.sync then s.cell Cell.tmr0 + 1#8 else s.cell Cell.tmr0) ∧
    (s.deliver (.clkout p level)).timer0 = { s.timer0 with sync := false, clkPrev := level })

/-- R275's "Timer0 counts nothing" while asleep: no record but a TMR0 write's moves the count, the prescaler or the
flag. -/
def Obligations.AsleepTimerCountsNothing : Prop :=
  ∀ (s : State) (snap : List Record), s.sleeping = true →
    (∀ r ∈ snap, ∀ old new : Byte, r ≠ .notify .tmr0 old new) →
    (∀ c : RegAddr, (s.drain snap).cell c = s.cell c) ∧ (s.drain snap).timer0.presc = s.timer0.presc ∧
    (s.drain snap).timer0.sync = s.timer0.sync

/-! ## The register file (20_memory.md) -/

/-- R72, R73 above offset 0x1F, with the default ranges R73 derives. -/
def Obligations.GeneralPurposeResolution : Prop :=
  (∀ (p : Params) (b : Bank) (o : FileField), 0x70 ≤ o.toNat → resolve p (fullAddr b o) = some (fullAddr 0#2 o)) ∧
  (∀ (p : Params) (b : Bank) (o : FileField), 0x20 ≤ o.toNat → o.toNat < 0x70 →
    resolve p (fullAddr b o) =
      if b.toNat * 0x80 + o.toNat < p.maxMemory then some (fullAddr b o) else none) ∧
  (∀ (p : Params) (b : Bank) (o : FileField), p.maxMemory = 0x150 → 0x20 ≤ o.toNat → o.toNat < 0x70 →
    ((resolve p (fullAddr b o)).isSome ↔ b = 0#2 ∨ b = 1#2 ∨ (b = 2#2 ∧ o.toNat < 0x50)))

/-- R74, Table M1 row by row. -/
def Obligations.SpecialFunctionResolution : Prop :=
  ∀ (p : Params) (b : Bank) (o : FileField),
    (o.toNat ∈ [0x02, 0x03, 0x04, 0x0A, 0x0B] → resolve p (fullAddr b o) = some (fullAddr 0#2 o)) ∧
    (o.toNat ∈ [0x01, 0x06] → resolve p (fullAddr b o) =
      some (fullAddr (if b = 0#2 ∨ b = 2#2 then 0#2 else 1#2) o)) ∧
    (o.toNat ∈ [0x05, 0x0C, 0x0E, 0x12, 0x18, 0x19, 0x1A, 0x1F] → resolve p (fullAddr b o) =
      if b = 0#2 ∨ b = 1#2 then some (fullAddr b o) else none) ∧
    (o.toNat ∈ [0x0F, 0x10, 0x11, 0x15, 0x16, 0x17] → resolve p (fullAddr b o) =
      if b = 0#2 then some (fullAddr b o) else none) ∧
    (o.toNat ∈ [0x1B, 0x1C, 0x1D] → resolve p (fullAddr b o) = if b = 1#2 then some (fullAddr b o) else none) ∧
    (o.toNat ∈ [0x07, 0x08, 0x09, 0x0D, 0x13, 0x14, 0x1E] → resolve p (fullAddr b o) = none)

/-- R92 and R79: an access whose address fails resolution, or that names INDF through INDF, reads 0 and writes
nothing. -/
def Obligations.FailedAccessIsSilent : Prop :=
  ∀ (s : State) (a : RegAddr) (v keep : Byte), resolve s.params a = none ∨ offsetOf a = 0#7 →
    s.memRead a = 0x00#8 ∧ s.memWrite a v keep = s

/-- R76 with R24, R41 and R90: the byte a register-file write leaves in the resolved cell, the PCL coupling, and the
records it queues; every other cell and everything else are as before. -/
def Obligations.MemWriteStoresMaskedAndNotifies : Prop :=
  ∀ (s : State) (a c : RegAddr) (v keep : Byte), offsetOf a ≠ 0#7 → resolve s.params a = some c →
    ∃ t, s.memWrite a v keep = t ∧
      (c = Cell.status → t.cell c = (s.cell c &&& keep) ||| (v &&& ~~~keep)) ∧
      (c = Cell.pclath → t.cell c = v &&& 0x1F#8) ∧
      (c ≠ Cell.status → c ≠ Cell.pclath → t.cell c = v) ∧
      (∀ x : RegAddr, x ≠ c → t.cell x = s.cell x) ∧
      t.pch = (if c = Cell.pcl ∧ s.params.pcModel = .separatePch then (s.cell Cell.pclath).extractLsb' 0 5 else s.pch) ∧
      t.notifyQueue = s.notifyQueue ++
        (if c = Cell.tmr0 then [.notify .tmr0 (s.cell c) (t.cell c)]
         else if t.cell c = s.cell c then []
         else if c = Cell.option then [.notify .option (s.cell c) (t.cell c)]
         else if c = Cell.porta then [.notify .porta (s.cell c) (t.cell c)]
         else if c = Cell.intcon then [.notify .intcon (s.cell c) (t.cell c)]
         else if c = Cell.status then [.notify .status (s.cell c) (t.cell c)] else []) ∧
      t.w = s.w ∧ t.skip = s.skip ∧ DataFrame s t

/-- R77, R78: the address a file field names. -/
def Obligations.FileFieldNamesDirectOrIndirect : Prop :=
  (∀ (s : State) (f : FileField) (v keep : Byte), f ≠ 0#7 →
    s.fileRead f = s.memRead ((s.cell Cell.status).extractLsb' 5 2 ++ f) ∧
    s.fileWrite f v keep = s.memWrite ((s.cell Cell.status).extractLsb' 5 2 ++ f) v keep) ∧
  (∀ (s : State) (v keep : Byte),
    s.fileRead 0#7 = s.memRead ((s.cell Cell.status).extractLsb' 7 1 ++ s.cell Cell.fsr) ∧
    s.fileWrite 0#7 v keep = s.memWrite ((s.cell Cell.status).extractLsb' 7 1 ++ s.cell Cell.fsr) v keep)

/-! ## The program counter and the return stack (10_state.md) -/

/-- R22, R23: where `GetPC` and `SetPC` keep the PC under each `PC_MODEL`; `SetPC` notifies nothing. -/
def Obligations.SetPcThenGetPc : Prop :=
  ∀ (s : State) (v : ProgAddr), ∃ t, s.setPC v = t ∧ t.getPC = v ∧ t.cell Cell.pcl = v.extractLsb' 0 8 ∧
    (s.params.pcModel = .pclathSynth → t.cell Cell.pclath = (v.extractLsb' 8 5).setWidth 8 ∧ t.pch = s.pch ∧
      t.getPC = (t.cell Cell.pclath).extractLsb' 0 5 ++ t.cell Cell.pcl) ∧
    (s.params.pcModel = .separatePch → t.cell Cell.pclath = s.cell Cell.pclath ∧ t.pch = v.extractLsb' 8 5 ∧
      t.getPC = t.pch ++ t.cell Cell.pcl) ∧
    (∀ c : RegAddr, c ≠ Cell.pcl → c ≠ Cell.pclath → t.cell c = s.cell c) ∧
    t.notifyQueue = s.notifyQueue ∧ t.w = s.w ∧ t.skip = s.skip ∧ DataFrame s t

/-- R28: n pushes followed by n pops, n ≤ 8, give the values back in reverse order and SP where it started. -/
def Obligations.PushesThenPopsReturnInReverse : Prop :=
  ∀ (s : State) (vs : List ProgAddr), vs.length ≤ 8 →
    (popMany vs.length (pushAll s vs)).1 = vs.reverse ∧ (popMany vs.length (pushAll s vs)).2.sp = s.sp

/-- R27: a push moves SP down modulo 8, stores at the new SP and nowhere else; the ninth of nine pushes overwrites the
entry of the first. -/
def Obligations.PushWrapsAndTheNinthOverwrites : Prop :=
  (∀ (s : State) (v : ProgAddr), (s.push v).sp = s.sp - 1#3 ∧ (s.push v).top = v ∧
    ∀ j : Fin 8, j.val ≠ (s.sp - 1#3).toNat → (s.push v).stack[j] = s.stack[j]) ∧
  (∀ (s : State) (vs : List ProgAddr) (v : ProgAddr), vs.length = 8 →
    (pushAll s (vs ++ [v])).sp = s.sp - 1#3 ∧ (pushAll s (vs ++ [v])).top = v ∧
    (popMany 9 (pushAll s (vs ++ [v]))).1 = v :: (vs.tail.reverse ++ [v]))

/-! ## Flags and arithmetic (10_state.md R36; 40_file_alu.md R131, R132) -/

/-- R36: a flag primitive writes its one STATUS bit, past the mask, and a change of the byte is notified. -/
def Obligations.FlagPrimitiveWritesOneBit : Prop :=
  ∀ (s : State) (r : Byte) (b : Bool),
    ((s.setZ r).flagZ = (r == 0x00#8) ∧ (s.setZ r).cell Cell.status &&& 0xFB#8 = s.cell Cell.status &&& 0xFB#8) ∧
    ((s.setC b).flagC = b ∧ (s.setC b).cell Cell.status &&& 0xFE#8 = s.cell Cell.status &&& 0xFE#8) ∧
    ((s.setDC b).flagDC = b ∧ (s.setDC b).cell Cell.status &&& 0xFD#8 = s.cell Cell.status &&& 0xFD#8) ∧
    (∀ t ∈ [s.setZ r, s.setC b, s.setDC b],
      (∀ c : RegAddr, c ≠ Cell.status → t.cell c = s.cell c) ∧ t.w = s.w ∧ t.pch = s.pch ∧ t.skip = s.skip ∧
      DataFrame s t ∧
      t.notifyQueue = s.notifyQueue ++
        (if t.cell Cell.status = s.cell Cell.status then []
         else [.notify .status (s.cell Cell.status) (t.cell Cell.status)]))

/-- R131, R132: the adder's sum with its carry is exact; the subtractor's difference with its borrow is exact; digit
carry is the same at the low nibble. -/
def Obligations.AdderAndSubtractorAreExact : Prop :=
  (∀ a b : Byte, (add8 a b).r.toNat + 0x100 * (add8 a b).c.toNat = a.toNat + b.toNat ∧
    ((add8 a b).dc = true ↔ 0x10 ≤ (a &&& 0x0F#8).toNat + (b &&& 0x0F#8).toNat)) ∧
  (∀ x y : Byte, (sub8 x y).r.toNat + y.toNat = x.toNat + 0x100 * (!(sub8 x y).c).toNat ∧
    ((sub8 x y).c = true ↔ y.toNat ≤ x.toNat) ∧
    ((sub8 x y).dc = true ↔ (y &&& 0x0F#8).toNat ≤ (x &&& 0x0F#8).toNat))

/-! ## Byte-oriented instructions (40_file_alu.md) -/

/-- R134, R148: ADDWF and SUBWF (f minus W): the result, its place, C, DC, Z written in this order with their STATUS
notifications, and the frame. -/
def Obligations.ByteArithmeticResults : Prop :=
  ∀ (d : Dest) (f : FileField) (s : State),
    (∃ t, exec (.addwf d f) s = .next t ∧ ByteResult s t d f (s.w + s.fileRead f) keepFlags
        [(0, decide (0x100 ≤ s.w.toNat + (s.fileRead f).toNat)),
         (1, decide (0x10 ≤ s.w.toNat % 0x10 + (s.fileRead f).toNat % 0x10)), (2, s.w + s.fileRead f == 0x00#8)] ∧
      FlagsAre t (decide (0x100 ≤ s.w.toNat + (s.fileRead f).toNat))
        (decide (0x10 ≤ s.w.toNat % 0x10 + (s.fileRead f).toNat % 0x10)) (s.w + s.fileRead f == 0x00#8) ∧
      t.skip = false ∧ (Instr.addwf d f).cycles = 1 ∧
      decode (0b000111#6 ++ d.toBit ++ f) = .ok (.addwf d f)) ∧
    (∃ t, exec (.subwf d f) s = .next t ∧ ByteResult s t d f (s.fileRead f - s.w) keepFlags
        [(0, decide (s.w.toNat ≤ (s.fileRead f).toNat)),
         (1, decide (s.w.toNat % 0x10 ≤ (s.fileRead f).toNat % 0x10)), (2, s.fileRead f - s.w == 0x00#8)] ∧
      FlagsAre t (decide (s.w.toNat ≤ (s.fileRead f).toNat))
        (decide (s.w.toNat % 0x10 ≤ (s.fileRead f).toNat % 0x10)) (s.fileRead f - s.w == 0x00#8) ∧
      t.skip = false ∧ (Instr.subwf d f).cycles = 1 ∧
      decode (0b000010#6 ++ d.toBit ++ f) = .ok (.subwf d f))

/-- R135, R138, R139, R141, R143, R144, R150: ANDWF, COMF, DECF, INCF, IORWF, MOVF, XORWF. -/
def Obligations.ZeroFlagOperationResults : Prop :=
  ∀ (d : Dest) (f : FileField) (s : State),
    ZeroFlagResult (.andwf d f) 0b000101#6 d f (s.w &&& s.fileRead f) s ∧
    ZeroFlagResult (.comf d f) 0b001001#6 d f (~~~s.fileRead f) s ∧
    ZeroFlagResult (.decf d f) 0b000011#6 d f (s.fileRead f - 1#8) s ∧
    ZeroFlagResult (.incf d f) 0b001010#6 d f (s.fileRead f + 1#8) s ∧
    ZeroFlagResult (.iorwf d f) 0b000100#6 d f (s.w ||| s.fileRead f) s ∧
    ZeroFlagResult (.movf d f) 0b001000#6 d f (s.fileRead f) s ∧
    ZeroFlagResult (.xorwf d f) 0b000110#6 d f (s.w ^^^ s.fileRead f) s

/-- R140, R142: DECFSZ, INCFSZ. No flag is written; the skip test is on the result whatever d is. -/
def Obligations.SkipOnZeroResults : Prop :=
  ∀ (d : Dest) (f : FileField) (s : State),
    (∃ t, exec (.decfsz d f) s = .next t ∧ ByteResult s t d f (s.fileRead f - 1#8) keepTP [] ∧
      FlagsAsData s t (s.resultCell d f) (s.fileRead f - 1#8) ∧ (t.skip = true ↔ s.fileRead f = 0x01#8) ∧
      (Instr.decfsz d f).cycles = 1 ∧
      decode (0b001011#6 ++ d.toBit ++ f) = .ok (.decfsz d f)) ∧
    (∃ t, exec (.incfsz d f) s = .next t ∧ ByteResult s t d f (s.fileRead f + 1#8) keepTP [] ∧
      FlagsAsData s t (s.resultCell d f) (s.fileRead f + 1#8) ∧ (t.skip = true ↔ s.fileRead f = 0xFF#8) ∧
      (Instr.incfsz d f).cycles = 1 ∧
      decode (0b001111#6 ++ d.toBit ++ f) = .ok (.incfsz d f))

/-- R146, R147: RLF, RRF. C goes into the freed bit and takes the bit rotated out; Z and DC are unchanged. -/
def Obligations.RotateResults : Prop :=
  ∀ (d : Dest) (f : FileField) (s : State),
    (∃ (t : State) (r : Byte), exec (.rlf d f) s = .next t ∧
      r.toNat = (2 * (s.fileRead f).toNat + s.flagC.toNat) % 0x100 ∧
      ByteResult s t d f r keepFlags [(0, (s.fileRead f).getLsbD 7)] ∧
      FlagsAre t ((s.fileRead f).getLsbD 7) s.flagDC s.flagZ ∧ t.skip = false ∧ (Instr.rlf d f).cycles = 1 ∧
      decode (0b001101#6 ++ d.toBit ++ f) = .ok (.rlf d f)) ∧
    (∃ (t : State) (r : Byte), exec (.rrf d f) s = .next t ∧
      r.toNat = 0x80 * s.flagC.toNat + (s.fileRead f).toNat / 2 ∧
      ByteResult s t d f r keepFlags [(0, (s.fileRead f).getLsbD 0)] ∧
      FlagsAre t ((s.fileRead f).getLsbD 0) s.flagDC s.flagZ ∧ t.skip = false ∧ (Instr.rrf d f).cycles = 1 ∧
      decode (0b001100#6 ++ d.toBit ++ f) = .ok (.rrf d f))

/-- R149, R145: SWAPF, MOVWF. Neither writes a flag but as data into STATUS. -/
def Obligations.SwapAndStoreResults : Prop :=
  (∀ (d : Dest) (f : FileField) (s : State), ∃ (t : State) (r : Byte), exec (.swapf d f) s = .next t ∧
    r.toNat = 0x10 * ((s.fileRead f).toNat % 0x10) + (s.fileRead f).toNat / 0x10 ∧ ByteResult s t d f r keepTP [] ∧
    FlagsAsData s t (s.resultCell d f) r ∧ t.skip = false ∧ (Instr.swapf d f).cycles = 1 ∧
    decode (0b001110#6 ++ d.toBit ++ f) = .ok (.swapf d f)) ∧
  (∀ (f : FileField) (s : State), ∃ t, exec (.movwf f) s = .next t ∧ ByteResult s t .toF f s.w keepTP [] ∧
    FlagsAsData s t (s.fileCell f) s.w ∧ t.skip = false ∧ (Instr.movwf f).cycles = 1 ∧
    decode (0b0000001#7 ++ f) = .ok (.movwf f))

/-- R136, R137: CLRF, CLRW. Z is always 1, C and DC are unchanged. -/
def Obligations.ClearResults : Prop :=
  (∀ (f : FileField) (s : State), ∃ t, exec (.clrf f) s = .next t ∧ ByteResult s t .toF f 0x00#8 keepFlags [(2, true)] ∧
    FlagsAre t s.flagC s.flagDC true ∧ t.skip = false ∧ (Instr.clrf f).cycles = 1 ∧
    decode (0b0000011#7 ++ f) = .ok (.clrf f)) ∧
  (∀ s : State, ∃ t, exec .clrw s = .next t ∧ LiteralResult s t 0x00#8 [(2, true)] ∧ FlagsAre t s.flagC s.flagDC true ∧
    t.skip = false ∧ Instr.clrw.cycles = 1 ∧ ∀ x : BitVec 7, decode (0b0000010#7 ++ x) = .ok .clrw)

/-! ## Literal operations (41_literal.md) -/

/-- R181, R182: ADDLW, SUBLW (the literal minus W). -/
def Obligations.LiteralArithmeticResults : Prop :=
  ∀ (k : Byte) (s : State),
    (∃ t, exec (.addlw k) s = .next t ∧ LiteralResult s t (s.w + k)
        [(0, decide (0x100 ≤ s.w.toNat + k.toNat)), (1, decide (0x10 ≤ s.w.toNat % 0x10 + k.toNat % 0x10)),
         (2, s.w + k == 0x00#8)] ∧
      FlagsAre t (decide (0x100 ≤ s.w.toNat + k.toNat)) (decide (0x10 ≤ s.w.toNat % 0x10 + k.toNat % 0x10))
        (s.w + k == 0x00#8) ∧ t.skip = false ∧ (Instr.addlw k).cycles = 1 ∧
      ∀ x : BitVec 1, decode (0b11111#5 ++ x ++ k) = .ok (.addlw k)) ∧
    (∃ t, exec (.sublw k) s = .next t ∧ LiteralResult s t (k - s.w)
        [(0, decide (s.w.toNat ≤ k.toNat)), (1, decide (s.w.toNat % 0x10 ≤ k.toNat % 0x10)), (2, k - s.w == 0x00#8)] ∧
      FlagsAre t (decide (s.w.toNat ≤ k.toNat)) (decide (s.w.toNat % 0x10 ≤ k.toNat % 0x10)) (k - s.w == 0x00#8) ∧
      t.skip = false ∧ (Instr.sublw k).cycles = 1 ∧
      ∀ x : BitVec 1, decode (0b11110#5 ++ x ++ k) = .ok (.sublw k))

/-- R180, R183, R184, R185: MOVLW, which writes no flag, and ANDLW, IORLW, XORLW. -/
def Obligations.LiteralMoveAndLogicalResults : Prop :=
  ∀ (k : Byte) (s : State),
    (∃ t, exec (.movlw k) s = .next t ∧ LiteralResult s t k [] ∧ FlagsAre t s.flagC s.flagDC s.flagZ ∧
      t.skip = false ∧ (Instr.movlw k).cycles = 1 ∧
      ∀ x : BitVec 2, decode (0b1100#4 ++ x ++ k) = .ok (.movlw k)) ∧
    (∃ t, exec (.andlw k) s = .next t ∧ LiteralResult s t (s.w &&& k) [(2, s.w &&& k == 0x00#8)] ∧
      FlagsAre t s.flagC s.flagDC (s.w &&& k == 0x00#8) ∧ t.skip = false ∧ (Instr.andlw k).cycles = 1 ∧
      decode (0b111001#6 ++ k) = .ok (.andlw k)) ∧
    (∃ t, exec (.iorlw k) s = .next t ∧ LiteralResult s t (s.w ||| k) [(2, s.w ||| k == 0x00#8)] ∧
      FlagsAre t s.flagC s.flagDC (s.w ||| k == 0x00#8) ∧ t.skip = false ∧ (Instr.iorlw k).cycles = 1 ∧
      decode (0b111000#6 ++ k) = .ok (.iorlw k)) ∧
    (∃ t, exec (.xorlw k) s = .next t ∧ LiteralResult s t (s.w ^^^ k) [(2, s.w ^^^ k == 0x00#8)] ∧
      FlagsAre t s.flagC s.flagDC (s.w ^^^ k == 0x00#8) ∧ t.skip = false ∧ (Instr.xorlw k).cycles = 1 ∧
      decode (0b111010#6 ++ k) = .ok (.xorlw k))

/-! ## Bit operations (42_bit.md) -/

/-- R200, R201: BCF, BSF read and write the whole byte. -/
def Obligations.BitWriteResults : Prop :=
  ∀ (b : BitNumber) (f : FileField) (s : State),
    (∃ (t : State) (r : Byte), exec (.bcf b f) s = .next t ∧
      (∀ j, r.getLsbD j = ((s.fileRead f).getLsbD j && decide (j ≠ b.toNat))) ∧ ByteResult s t .toF f r keepTP [] ∧
      FlagsAsData s t (s.fileCell f) r ∧ t.skip = false ∧ (Instr.bcf b f).cycles = 1 ∧
      decode (0b0100#4 ++ b ++ f) = .ok (.bcf b f)) ∧
    (∃ (t : State) (r : Byte), exec (.bsf b f) s = .next t ∧
      (∀ j, r.getLsbD j = ((s.fileRead f).getLsbD j || decide (j = b.toNat))) ∧ ByteResult s t .toF f r keepTP [] ∧
      FlagsAsData s t (s.fileCell f) r ∧ t.skip = false ∧ (Instr.bsf b f).cycles = 1 ∧
      decode (0b0101#4 ++ b ++ f) = .ok (.bsf b f))

/-- R202, R203: BTFSC, BTFSS only read; a failed access reads 0. -/
def Obligations.BitTestResults : Prop :=
  ∀ (b : BitNumber) (f : FileField) (s : State),
    (exec (.btfsc b f) s = .next { s with skip := !(s.fileRead f).getLsbD b.toNat } ∧
      (Instr.btfsc b f).cycles = 1 ∧
      decode (0b0110#4 ++ b ++ f) = .ok (.btfsc b f)) ∧
    (exec (.btfss b f) s = .next { s with skip := (s.fileRead f).getLsbD b.toNat } ∧
      (Instr.btfss b f).cycles = 1 ∧
      decode (0b0111#4 ++ b ++ f) = .ok (.btfss b f)) ∧
    (s.fileCell f = none → s.fileRead f = 0x00#8)

/-! ## Control flow and system instructions (43_control.md) -/

/-- R210, R211, R217, R218: GOTO and CALL go to PCLATH[4:3] : k; CALL first pushes the PC, which at execute holds the
address of the next instruction. -/
def Obligations.GotoAndCallJumpToTheirTarget : Prop :=
  ∀ (k : BitVec 11) (s : State),
    (∃ t, exec (.goto k) s = .next t ∧ JumpsTo s t ((s.cell Cell.pclath).extractLsb' 3 2 ++ k) ∧
      t.cell Cell.intcon = s.cell Cell.intcon ∧ t.notifyQueue = s.notifyQueue ∧ t.w = s.w ∧ t.stack = s.stack ∧
      t.sp = s.sp ∧ ControlFrame s t ∧ t.skip = false ∧ (Instr.goto k).cycles = 2 ∧
      decode (0b101#3 ++ k) = .ok (.goto k)) ∧
    (∃ t, exec (.call k) s = .next t ∧ JumpsTo s t ((s.cell Cell.pclath).extractLsb' 3 2 ++ k) ∧
      t.cell Cell.intcon = s.cell Cell.intcon ∧ t.notifyQueue = s.notifyQueue ∧ t.w = s.w ∧
      t.sp = s.sp - 1#3 ∧ t.top = s.getPC ∧
      (∀ j : Fin 8, j.val ≠ (s.sp - 1#3).toNat → t.stack[j] = s.stack[j]) ∧ ControlFrame s t ∧
      t.skip = false ∧ (Instr.call k).cycles = 2 ∧
      decode (0b100#3 ++ k) = .ok (.call k))

/-- R186, R212: RETLW, RETURN. -/
def Obligations.ReturnsPopThePc : Prop :=
  (∀ (k : Byte) (s : State), ∃ t, exec (.retlw k) s = .next t ∧ JumpsTo s t (s.stack[s.sp.toNat]'s.sp.isLt) ∧
    t.cell Cell.intcon = s.cell Cell.intcon ∧ t.notifyQueue = s.notifyQueue ∧ t.w = k ∧ t.sp = s.sp + 1#3 ∧
    t.stack = s.stack ∧ ControlFrame s t ∧ t.skip = false ∧ (Instr.retlw k).cycles = 2 ∧
    ∀ x : BitVec 2, decode (0b1101#4 ++ x ++ k) = .ok (.retlw k)) ∧
  (∀ s : State, ∃ t, exec .ret s = .next t ∧ JumpsTo s t (s.stack[s.sp.toNat]'s.sp.isLt) ∧
    t.cell Cell.intcon = s.cell Cell.intcon ∧ t.notifyQueue = s.notifyQueue ∧ t.w = s.w ∧ t.sp = s.sp + 1#3 ∧
    t.stack = s.stack ∧ ControlFrame s t ∧ t.skip = false ∧ Instr.ret.cycles = 2 ∧ decode 0x0008#14 = .ok .ret)

/-- R213: RETFIE pops the PC and sets GIE, and an INTCON change is notified. -/
def Obligations.RetfiePopsThePcAndSetsGie : Prop :=
  ∀ s : State, ∃ t, exec .retfie s = .next t ∧ JumpsTo s t (s.stack[s.sp.toNat]'s.sp.isLt) ∧
    t.cell Cell.intcon = s.cell Cell.intcon ||| 0x80#8 ∧
    t.notifyQueue = s.notifyQueue ++
      (if s.gie then [] else [.notify .intcon (s.cell Cell.intcon) (s.cell Cell.intcon ||| 0x80#8)]) ∧
    t.w = s.w ∧ t.sp = s.sp + 1#3 ∧ t.stack = s.stack ∧ ControlFrame s t ∧ t.skip = false ∧ Instr.retfie.cycles = 2 ∧
    decode 0x0009#14 = .ok .retfie

/-- R214, R215: SLEEP sets TO, clears PD and sleeps unless the wake condition holds; CLRWDT sets both; each clears a
prescaler assigned to the watchdog. -/
def Obligations.SleepAndClrwdtResults : Prop :=
  ∀ s : State,
    (∃ t, exec .sleep s = .next t ∧ t.cell Cell.status = (s.cell Cell.status &&& 0xE7#8) ||| 0x10#8 ∧
      WdtPrescalerCleared s t ∧ t.sleeping = (if s.wakeCondition then s.sleeping else true) ∧ PowerFrame s t ∧
      t.skip = false ∧ Instr.sleep.cycles = 1 ∧ decode 0x0063#14 = .ok .sleep) ∧
    (∃ t, exec .clrwdt s = .next t ∧ t.cell Cell.status = s.cell Cell.status ||| 0x18#8 ∧
      WdtPrescalerCleared s t ∧ t.sleeping = s.sleeping ∧ PowerFrame s t ∧ t.skip = false ∧ Instr.clrwdt.cycles = 1 ∧
      decode 0x0064#14 = .ok .clrwdt)

/-- R216: NOP changes nothing; it returns no skip. -/
def Obligations.NopChangesNothing : Prop :=
  ∀ s : State, exec .nop s = .next { s with skip := false } ∧ Instr.nop.cycles = 1 ∧ decode 0x0000#14 = .ok .nop

/-! ## Whole-machine rules and invariants -/

/-- The power-on state meets the invariant, under every parameter value and CONFIG word; `State.reset` is one of them. -/
def Obligations.ResetMeetsTheInvariant : Prop :=
  State.reset.inv = true ∧ ∀ (p : Params) (config : BitVec 16), (State.powerOn p config).inv = true

/-- Every tick keeps the invariant: the memories canonical and inside their spaces, the register file's 0x200 bytes and the
`FLASH_SIZE` words of flash (20_memory.md R70, R91), the counters in
range (10_state.md R29, R32, R47), a latched fault with the clock stopped (R33), PCLATH[7:5] zero (R41). -/
def Obligations.EveryStepKeepsTheInvariant : Prop :=
  ∀ s t : State, s.inv = true → step s = .next t → t.inv = true

/-- R70: cells no address resolves to keep their reset contents through every tick, resets included. -/
def Obligations.UnreachedCellsKeepTheirResetValue : Prop :=
  ∀ s t : State, s.unreachedCellsAtReset → step s = .next t → t.unreachedCellsAtReset

/-- R85, R46, and the parameters of 00_scope.md R5: no tick changes program memory, the CONFIG word or a parameter, and
the host may load an image before the first tick or while a fault is latched, and then only (60_exceptions.md R323). A load
sets the words it names inside flash, masked to 14 bits, and changes nothing else. That a load in a run is a refusal is the
model's choice (log entry 11), and so are the field `started`, which tells that the run has begun (log entry 6), and that a
word a load does not name stays (log entry 19). -/
def Obligations.ProgramImageIsConstant : Prop :=
  (∀ s t : State, step s = .next t →
    t.flash = s.flash ∧ t.configWord = s.configWord ∧ t.params = s.params ∧ t.started = true) ∧
  (∀ (s : State) (image : List (Nat × Nat)), s.started = true → s.fault = none →
    hostLoadImage image s = .refused .imageLoadDuringRun) ∧
  (∀ (s : State) (image : List (Nat × Nat)), s.started = false ∨ s.fault ≠ none →
    ∃ t, hostLoadImage image s = .next t ∧ t = { s with flash := t.flash } ∧
      (∀ a, a ∉ image.map Prod.fst ∨ s.params.flashSize ≤ a → t.flashRead a = s.flashRead a) ∧
      ((image.map Prod.fst).Nodup → ∀ a w, (a, w) ∈ image → a < s.params.flashSize →
        t.flashRead a = BitVec.ofNat 14 (w % 0x4000))) ∧
  (∀ (s : State) (pa w a : Nat), (s.loadWord pa w).flashRead a =
    if a = pa ∧ pa < s.params.flashSize then BitVec.ofNat 14 (w % 0x4000) else s.flashRead a)

/-- R35 and R343: TO and PD change in no instruction but SLEEP and CLRWDT, whatever it writes and wherever. -/
def Obligations.OnlySleepAndClrwdtChangeToAndPd : Prop :=
  ∀ (i : Instr) (s t : State), exec i s = .next t → i ≠ .sleep → i ≠ .clrwdt →
    t.flagTO = s.flagTO ∧ t.flagPD = s.flagPD

/-- R236: only BTFSC, BTFSS, DECFSZ and INCFSZ return a skip; and R25: only CALL, RETURN, RETLW and RETFIE move SP, and
only CALL writes the stack. -/
def Obligations.OnlySkipsSkipAndOnlyCallsStack : Prop :=
  ∀ (i : Instr) (s t : State), exec i s = .next t →
    (t.skip = true → i.opcode ∈ [Opcode.btfsc, .btfss, .decfsz, .incfsz]) ∧
    (t.sp ≠ s.sp → i.opcode ∈ [Opcode.call, .ret, .retlw, .retfie]) ∧
    (t.stack ≠ s.stack → i.opcode = .call)
end

