-- ==== Sys2Proof/Laws/Decode.lean ====
section
/-! SUPPORT. The laws of the decoder: outside the whole-word space the low seven bits of a word choose no row, so a
statement about every word is a statement about its 128 high parts; and what each operand field reads. -/

namespace Sys2Proof

/-- Every row but the whole-word ones ignores the low seven bits; a whole-word row has its high part zero
(spec 30_encoding.md R105, R111). -/
theorem tableE1_low7 : ∀ r ∈ tableE1,
    r.mask &&& 0x3F80#14 = r.mask ∨ (r.mask = 0x3FFF#14 ∧ r.pattern &&& 0x3F80#14 = 0#14) := by decide

theorem append_and_high (h : BitVec 7) (f : FileField) : ((h ++ f : BitVec 14) &&& 0x3F80#14) = h ++ 0#7 := by
  apply BitVec.eq_of_getLsbD_eq
  intro i hi
  simp only [BitVec.getLsbD_and, BitVec.getLsbD_append]
  have hm : ∀ j < 14, (0x3F80#14).getLsbD j = decide (7 ≤ j) := by decide
  rw [hm i hi]
  by_cases hj : i < 7
  · simp [hj]
  · simp [hj, show 7 ≤ i by omega]

/-- A row of the table accepts a word outside the whole-word space by its high part alone. -/
theorem accepts_append {r : Descriptor} (hr : r ∈ tableE1) {h : BitVec 7} (hh : h ≠ 0#7) (f : FileField) :
    r.accepts (h ++ f) = r.accepts (h ++ 0#7) := by
  have hne : (h ++ 0#7 : BitVec 14) ≠ 0#14 := by
    revert h
    decide
  rcases tableE1_low7 r hr with hm | ⟨hm, hp⟩
  · have := append_and_high h f
    simp only [Descriptor.accepts]
    rw [← this, BitVec.and_assoc, BitVec.and_comm 0x3F80#14, hm]
  · have hx : ∀ x : BitVec 14, x &&& 0x3FFF#14 = x := fun x => BitVec.and_allOnes (x := x)
    have key : ∀ g : FileField, r.accepts (h ++ g) = false := by
      intro g
      simp only [Descriptor.accepts, hm, hx, beq_eq_false_iff_ne]
      intro he
      have h1 := append_and_high h g
      rw [he, hp] at h1
      exact hne h1.symm
    rw [key f, key 0#7]

/-- Outside the whole-word space the low seven bits do not change which row a word belongs to. -/
theorem lookup_append {h : BitVec 7} (hh : h ≠ 0#7) (f : FileField) : lookup (h ++ f) = lookup (h ++ 0#7) := by
  have hg : ∀ l : List Descriptor, (∀ r ∈ l, r ∈ tableE1) →
      (l.find? fun r => r.accepts (h ++ f)) = l.find? fun r => r.accepts (h ++ 0#7) := by
    intro l
    induction l with
    | nil => intro _; rfl
    | cons r l ih =>
      intro hl
      have hr := hl r (by simp)
      have hrest := ih fun x hx => hl x (by simp [hx])
      rw [List.find?_cons, List.find?_cons, accepts_append hr hh f, hrest]
  unfold lookup
  rw [hg tableE1 fun _ hr => hr]

/-- What a word outside the whole-word space decodes to, by its high part. -/
theorem decode_append {h : BitVec 7} {o : Opcode} (hh : h ≠ 0#7) (ho : lookup (h ++ 0#7) = some o) (f : FileField) :
    decode (h ++ f) = .ok (o.build (h ++ f)) := by
  unfold decode
  rw [lookup_append hh f, ho]

/-! ### The operand fields of a word given by its high part and its low seven bits -/

theorem word_getLsbD (h : BitVec 7) (f : FileField) (i : Nat) :
    BitVec.getLsbD (h ++ f : InsnWord) i = if i < 7 then f.getLsbD i else h.getLsbD (i - 7) :=
  BitVec.getLsbD_append (x := h) (y := f) (i := i)

theorem fieldF_append (h : BitVec 7) (f : FileField) : fieldF (h ++ f) = f := by
  apply BitVec.eq_of_getLsbD_eq
  intro i hi
  rw [fieldF, BitVec.getLsbD_extractLsb', Nat.zero_add, word_getLsbD, if_pos hi]
  simp [hi]

theorem fieldD_append (h : BitVec 7) (f : FileField) :
    fieldD (h ++ f) = if h.getLsbD 0 then .toF else .toW := by
  rw [fieldD, word_getLsbD, if_neg (show ¬ 7 < 7 by decide)]

theorem fieldB_append (h : BitVec 7) (f : FileField) : fieldB (h ++ f) = h.extractLsb' 0 3 := by
  apply BitVec.eq_of_getLsbD_eq
  intro i hi
  rw [fieldB, BitVec.getLsbD_extractLsb', BitVec.getLsbD_extractLsb', word_getLsbD, if_neg (by omega)]
  simp

theorem fieldK8_append (h : BitVec 7) (f : FileField) : fieldK8 (h ++ f) = h.extractLsb' 0 1 ++ f := by
  apply BitVec.eq_of_getLsbD_eq
  intro i hi
  have hi' : i < 8 := by simpa using hi
  simp only [fieldK8, BitVec.getLsbD_extractLsb', BitVec.getLsbD_append, hi', decide_true, Bool.true_and, Nat.zero_add]
  by_cases h7 : i < 7
  · simp [h7]
  · simp [h7, show i - 7 < 1 by omega]

theorem fieldK11_append (h : BitVec 7) (f : FileField) : fieldK11 (h ++ f) = h.extractLsb' 0 4 ++ f := by
  apply BitVec.eq_of_getLsbD_eq
  intro i hi
  have hi' : i < 11 := by simpa using hi
  simp only [fieldK11, BitVec.getLsbD_extractLsb', BitVec.getLsbD_append, hi', decide_true, Bool.true_and, Nat.zero_add]
  by_cases h7 : i < 7
  · simp [h7]
  · simp [h7, show i - 7 < 4 by omega]

/-- Every word is its high part followed by its low seven bits. -/
theorem word_split (op : InsnWord) : op = op.extractLsb' 7 7 ++ op.extractLsb' 0 7 := by
  apply BitVec.eq_of_getLsbD_eq
  intro i hi
  rw [word_getLsbD]
  by_cases h7 : i < 7
  · simp [h7]
  · simp [h7, show 7 + (i - 7) = i by omega, show i - 7 < 7 by omega]

/-- A six-bit opcode before a literal, as a high part and seven bits. -/
theorem literal_split (p : BitVec 6) (k : Byte) :
    (p ++ k : BitVec 14) = (p ++ k.extractLsb' 7 1 : BitVec 7) ++ k.extractLsb' 0 7 := by
  apply BitVec.eq_of_getLsbD_eq
  intro i hi
  simp only [BitVec.getLsbD_append, BitVec.getLsbD_extractLsb']
  by_cases h7 : i < 7
  · simp [h7, show i < 8 by omega]
  · by_cases h8 : i < 8
    · have : i = 7 := by omega
      subst this
      simp
    · simp [h7, h8, show ¬ i - 7 < 1 by omega, show i - 7 - 1 = i - 8 by omega]

/-- A three-bit opcode before a program address, as a high part and seven bits. -/
theorem address_split (p : BitVec 3) (k : BitVec 11) :
    (p ++ k : BitVec 14) = (p ++ k.extractLsb' 7 4 : BitVec 7) ++ k.extractLsb' 0 7 := by
  apply BitVec.eq_of_getLsbD_eq
  intro i hi
  simp only [BitVec.getLsbD_append, BitVec.getLsbD_extractLsb']
  by_cases h7 : i < 7
  · simp [h7, show i < 11 by omega]
  · by_cases h8 : i < 11
    · simp [h7, h8, show i - 7 < 4 by omega, show 7 + (i - 7) = i by omega]
    · simp [h7, h8, show ¬ i - 7 < 4 by omega, show i - 7 - 4 = i - 11 by omega]

theorem byte_split (k : Byte) : k = k.extractLsb' 7 1 ++ k.extractLsb' 0 7 := by
  revert k
  decide +kernel

theorem address11_split (k : BitVec 11) : k = k.extractLsb' 7 4 ++ k.extractLsb' 0 7 := by
  apply BitVec.eq_of_getLsbD_eq
  intro i hi
  have h1 : BitVec.getLsbD (k.extractLsb' 7 4 ++ k.extractLsb' 0 7 : BitVec 11) i = _ := BitVec.getLsbD_append
  rw [h1]
  by_cases h7 : i < 7
  · simp [h7]
  · simp [h7, show 7 + (i - 7) = i by omega, show i - 7 < 4 by omega]

/-- A word of a literal row decodes to that row's instruction on its low eight bits. -/
theorem decode_literal {p : BitVec 6} {o : Opcode} {mk : Byte → Instr}
    (hp : ∀ b : BitVec 1, lookup ((p ++ b : BitVec 7) ++ 0#7) = some o ∧ (p ++ b : BitVec 7) ≠ 0#7 ∧
      (p ++ b : BitVec 7).extractLsb' 0 1 = b)
    (hb : ∀ w, o.build w = mk (fieldK8 w)) (k : Byte) : decode (p ++ k) = .ok (mk k) := by
  obtain ⟨h1, h2, h3⟩ := hp (k.extractLsb' 7 1)
  have hk := byte_split k
  rw [literal_split]
  refine (decode_append h2 h1 _).trans ?_
  rw [hb, fieldK8_append, h3, ← hk]

/-- A word of a control-transfer row decodes to that row's instruction on its low eleven bits. -/
theorem decode_address {p : BitVec 3} {o : Opcode} {mk : BitVec 11 → Instr}
    (hp : ∀ b : BitVec 4, lookup ((p ++ b : BitVec 7) ++ 0#7) = some o ∧ (p ++ b : BitVec 7) ≠ 0#7 ∧
      (p ++ b : BitVec 7).extractLsb' 0 4 = b)
    (hb : ∀ w, o.build w = mk (fieldK11 w)) (k : BitVec 11) : decode (p ++ k) = .ok (mk k) := by
  obtain ⟨h1, h2, h3⟩ := hp (k.extractLsb' 7 4)
  have hk := address11_split k
  rw [address_split]
  refine (decode_append h2 h1 _).trans ?_
  rw [hb, fieldK11_append, h3, ← hk]

end Sys2Proof
end

