-- ==== Sys2Proof/Laws/State.lean ====
section
/-! SUPPORT. One lemma per field per named update of the state: what the update wrote, or that it left the field
alone. `cell` is the read of one register-file cell. -/

namespace Sys2Proof.Machine

/-! ### setCell -/

section
variable (s : State) (c : RegAddr) (v : Byte)

@[simp] theorem setCell_params : (s.setCell c v).params = s.params := rfl
@[simp] theorem setCell_configWord : (s.setCell c v).configWord = s.configWord := rfl
@[simp] theorem setCell_flash : (s.setCell c v).flash = s.flash := rfl
theorem setCell_regs : (s.setCell c v).regs = Store.write resetByte s.regs c.toNat v := rfl
@[simp] theorem setCell_w : (s.setCell c v).w = s.w := rfl
@[simp] theorem setCell_pch : (s.setCell c v).pch = s.pch := rfl
@[simp] theorem setCell_stack : (s.setCell c v).stack = s.stack := rfl
@[simp] theorem setCell_sp : (s.setCell c v).sp = s.sp := rfl
@[simp] theorem setCell_pendingCycles : (s.setCell c v).pendingCycles = s.pendingCycles := rfl
@[simp] theorem setCell_skip : (s.setCell c v).skip = s.skip := rfl
@[simp] theorem setCell_paused : (s.setCell c v).paused = s.paused := rfl
@[simp] theorem setCell_stepBudget : (s.setCell c v).stepBudget = s.stepBudget := rfl
@[simp] theorem setCell_fault : (s.setCell c v).fault = s.fault := rfl
@[simp] theorem setCell_sleeping : (s.setCell c v).sleeping = s.sleeping := rfl
@[simp] theorem setCell_wakeOne : (s.setCell c v).wakeOne = s.wakeOne := rfl
@[simp] theorem setCell_timer0 : (s.setCell c v).timer0 = s.timer0 := rfl
@[simp] theorem setCell_clock : (s.setCell c v).clock = s.clock := rfl
@[simp] theorem setCell_notifyQueue : (s.setCell c v).notifyQueue = s.notifyQueue := rfl
@[simp] theorem setCell_controlQueue : (s.setCell c v).controlQueue = s.controlQueue := rfl
@[simp] theorem setCell_hostInputs : (s.setCell c v).hostInputs = s.hostInputs := rfl
@[simp] theorem setCell_outputs : (s.setCell c v).outputs = s.outputs := rfl
@[simp] theorem setCell_drawCount : (s.setCell c v).drawCount = s.drawCount := rfl
@[simp] theorem setCell_started : (s.setCell c v).started = s.started := rfl

end

/-! ### setW -/

section
variable (s : State) (v : Byte)

@[simp] theorem setW_params : (s.setW v).params = s.params := rfl
@[simp] theorem setW_configWord : (s.setW v).configWord = s.configWord := rfl
@[simp] theorem setW_flash : (s.setW v).flash = s.flash := rfl
@[simp] theorem setW_regs : (s.setW v).regs = s.regs := rfl
@[simp] theorem setW_w : (s.setW v).w = v := rfl
@[simp] theorem setW_pch : (s.setW v).pch = s.pch := rfl
@[simp] theorem setW_stack : (s.setW v).stack = s.stack := rfl
@[simp] theorem setW_sp : (s.setW v).sp = s.sp := rfl
@[simp] theorem setW_pendingCycles : (s.setW v).pendingCycles = s.pendingCycles := rfl
@[simp] theorem setW_skip : (s.setW v).skip = s.skip := rfl
@[simp] theorem setW_paused : (s.setW v).paused = s.paused := rfl
@[simp] theorem setW_stepBudget : (s.setW v).stepBudget = s.stepBudget := rfl
@[simp] theorem setW_fault : (s.setW v).fault = s.fault := rfl
@[simp] theorem setW_sleeping : (s.setW v).sleeping = s.sleeping := rfl
@[simp] theorem setW_wakeOne : (s.setW v).wakeOne = s.wakeOne := rfl
@[simp] theorem setW_timer0 : (s.setW v).timer0 = s.timer0 := rfl
@[simp] theorem setW_clock : (s.setW v).clock = s.clock := rfl
@[simp] theorem setW_notifyQueue : (s.setW v).notifyQueue = s.notifyQueue := rfl
@[simp] theorem setW_controlQueue : (s.setW v).controlQueue = s.controlQueue := rfl
@[simp] theorem setW_hostInputs : (s.setW v).hostInputs = s.hostInputs := rfl
@[simp] theorem setW_outputs : (s.setW v).outputs = s.outputs := rfl
@[simp] theorem setW_drawCount : (s.setW v).drawCount = s.drawCount := rfl
@[simp] theorem setW_started : (s.setW v).started = s.started := rfl
@[simp] theorem setW_cell (x : RegAddr) : (s.setW v).cell x = s.cell x := rfl

end

/-! ### setPch -/

section
variable (s : State) (v : BitVec 5)

@[simp] theorem setPch_params : (s.setPch v).params = s.params := rfl
@[simp] theorem setPch_configWord : (s.setPch v).configWord = s.configWord := rfl
@[simp] theorem setPch_flash : (s.setPch v).flash = s.flash := rfl
@[simp] theorem setPch_regs : (s.setPch v).regs = s.regs := rfl
@[simp] theorem setPch_w : (s.setPch v).w = s.w := rfl
@[simp] theorem setPch_pch : (s.setPch v).pch = v := rfl
@[simp] theorem setPch_stack : (s.setPch v).stack = s.stack := rfl
@[simp] theorem setPch_sp : (s.setPch v).sp = s.sp := rfl
@[simp] theorem setPch_pendingCycles : (s.setPch v).pendingCycles = s.pendingCycles := rfl
@[simp] theorem setPch_skip : (s.setPch v).skip = s.skip := rfl
@[simp] theorem setPch_paused : (s.setPch v).paused = s.paused := rfl
@[simp] theorem setPch_stepBudget : (s.setPch v).stepBudget = s.stepBudget := rfl
@[simp] theorem setPch_fault : (s.setPch v).fault = s.fault := rfl
@[simp] theorem setPch_sleeping : (s.setPch v).sleeping = s.sleeping := rfl
@[simp] theorem setPch_wakeOne : (s.setPch v).wakeOne = s.wakeOne := rfl
@[simp] theorem setPch_timer0 : (s.setPch v).timer0 = s.timer0 := rfl
@[simp] theorem setPch_clock : (s.setPch v).clock = s.clock := rfl
@[simp] theorem setPch_notifyQueue : (s.setPch v).notifyQueue = s.notifyQueue := rfl
@[simp] theorem setPch_controlQueue : (s.setPch v).controlQueue = s.controlQueue := rfl
@[simp] theorem setPch_hostInputs : (s.setPch v).hostInputs = s.hostInputs := rfl
@[simp] theorem setPch_outputs : (s.setPch v).outputs = s.outputs := rfl
@[simp] theorem setPch_drawCount : (s.setPch v).drawCount = s.drawCount := rfl
@[simp] theorem setPch_started : (s.setPch v).started = s.started := rfl
@[simp] theorem setPch_cell (x : RegAddr) : (s.setPch v).cell x = s.cell x := rfl

end

/-! ### setStackEntry -/

section
variable (s : State) (i : BitVec 3) (v : ProgAddr)

@[simp] theorem setStackEntry_params : (s.setStackEntry i v).params = s.params := rfl
@[simp] theorem setStackEntry_configWord : (s.setStackEntry i v).configWord = s.configWord := rfl
@[simp] theorem setStackEntry_flash : (s.setStackEntry i v).flash = s.flash := rfl
@[simp] theorem setStackEntry_regs : (s.setStackEntry i v).regs = s.regs := rfl
@[simp] theorem setStackEntry_w : (s.setStackEntry i v).w = s.w := rfl
@[simp] theorem setStackEntry_pch : (s.setStackEntry i v).pch = s.pch := rfl
@[simp] theorem setStackEntry_stack : (s.setStackEntry i v).stack = s.stack.set i.toNat v i.isLt := rfl
@[simp] theorem setStackEntry_sp : (s.setStackEntry i v).sp = s.sp := rfl
@[simp] theorem setStackEntry_pendingCycles : (s.setStackEntry i v).pendingCycles = s.pendingCycles := rfl
@[simp] theorem setStackEntry_skip : (s.setStackEntry i v).skip = s.skip := rfl
@[simp] theorem setStackEntry_paused : (s.setStackEntry i v).paused = s.paused := rfl
@[simp] theorem setStackEntry_stepBudget : (s.setStackEntry i v).stepBudget = s.stepBudget := rfl
@[simp] theorem setStackEntry_fault : (s.setStackEntry i v).fault = s.fault := rfl
@[simp] theorem setStackEntry_sleeping : (s.setStackEntry i v).sleeping = s.sleeping := rfl
@[simp] theorem setStackEntry_wakeOne : (s.setStackEntry i v).wakeOne = s.wakeOne := rfl
@[simp] theorem setStackEntry_timer0 : (s.setStackEntry i v).timer0 = s.timer0 := rfl
@[simp] theorem setStackEntry_clock : (s.setStackEntry i v).clock = s.clock := rfl
@[simp] theorem setStackEntry_notifyQueue : (s.setStackEntry i v).notifyQueue = s.notifyQueue := rfl
@[simp] theorem setStackEntry_controlQueue : (s.setStackEntry i v).controlQueue = s.controlQueue := rfl
@[simp] theorem setStackEntry_hostInputs : (s.setStackEntry i v).hostInputs = s.hostInputs := rfl
@[simp] theorem setStackEntry_outputs : (s.setStackEntry i v).outputs = s.outputs := rfl
@[simp] theorem setStackEntry_drawCount : (s.setStackEntry i v).drawCount = s.drawCount := rfl
@[simp] theorem setStackEntry_started : (s.setStackEntry i v).started = s.started := rfl
@[simp] theorem setStackEntry_cell (x : RegAddr) : (s.setStackEntry i v).cell x = s.cell x := rfl

end

/-! ### setSp -/

section
variable (s : State) (v : BitVec 3)

@[simp] theorem setSp_params : (s.setSp v).params = s.params := rfl
@[simp] theorem setSp_configWord : (s.setSp v).configWord = s.configWord := rfl
@[simp] theorem setSp_flash : (s.setSp v).flash = s.flash := rfl
@[simp] theorem setSp_regs : (s.setSp v).regs = s.regs := rfl
@[simp] theorem setSp_w : (s.setSp v).w = s.w := rfl
@[simp] theorem setSp_pch : (s.setSp v).pch = s.pch := rfl
@[simp] theorem setSp_stack : (s.setSp v).stack = s.stack := rfl
@[simp] theorem setSp_sp : (s.setSp v).sp = v := rfl
@[simp] theorem setSp_pendingCycles : (s.setSp v).pendingCycles = s.pendingCycles := rfl
@[simp] theorem setSp_skip : (s.setSp v).skip = s.skip := rfl
@[simp] theorem setSp_paused : (s.setSp v).paused = s.paused := rfl
@[simp] theorem setSp_stepBudget : (s.setSp v).stepBudget = s.stepBudget := rfl
@[simp] theorem setSp_fault : (s.setSp v).fault = s.fault := rfl
@[simp] theorem setSp_sleeping : (s.setSp v).sleeping = s.sleeping := rfl
@[simp] theorem setSp_wakeOne : (s.setSp v).wakeOne = s.wakeOne := rfl
@[simp] theorem setSp_timer0 : (s.setSp v).timer0 = s.timer0 := rfl
@[simp] theorem setSp_clock : (s.setSp v).clock = s.clock := rfl
@[simp] theorem setSp_notifyQueue : (s.setSp v).notifyQueue = s.notifyQueue := rfl
@[simp] theorem setSp_controlQueue : (s.setSp v).controlQueue = s.controlQueue := rfl
@[simp] theorem setSp_hostInputs : (s.setSp v).hostInputs = s.hostInputs := rfl
@[simp] theorem setSp_outputs : (s.setSp v).outputs = s.outputs := rfl
@[simp] theorem setSp_drawCount : (s.setSp v).drawCount = s.drawCount := rfl
@[simp] theorem setSp_started : (s.setSp v).started = s.started := rfl
@[simp] theorem setSp_cell (x : RegAddr) : (s.setSp v).cell x = s.cell x := rfl

end

/-! ### setSkip -/

section
variable (s : State) (b : Bool)

@[simp] theorem setSkip_params : (s.setSkip b).params = s.params := rfl
@[simp] theorem setSkip_configWord : (s.setSkip b).configWord = s.configWord := rfl
@[simp] theorem setSkip_flash : (s.setSkip b).flash = s.flash := rfl
@[simp] theorem setSkip_regs : (s.setSkip b).regs = s.regs := rfl
@[simp] theorem setSkip_w : (s.setSkip b).w = s.w := rfl
@[simp] theorem setSkip_pch : (s.setSkip b).pch = s.pch := rfl
@[simp] theorem setSkip_stack : (s.setSkip b).stack = s.stack := rfl
@[simp] theorem setSkip_sp : (s.setSkip b).sp = s.sp := rfl
@[simp] theorem setSkip_pendingCycles : (s.setSkip b).pendingCycles = s.pendingCycles := rfl
@[simp] theorem setSkip_skip : (s.setSkip b).skip = b := rfl
@[simp] theorem setSkip_paused : (s.setSkip b).paused = s.paused := rfl
@[simp] theorem setSkip_stepBudget : (s.setSkip b).stepBudget = s.stepBudget := rfl
@[simp] theorem setSkip_fault : (s.setSkip b).fault = s.fault := rfl
@[simp] theorem setSkip_sleeping : (s.setSkip b).sleeping = s.sleeping := rfl
@[simp] theorem setSkip_wakeOne : (s.setSkip b).wakeOne = s.wakeOne := rfl
@[simp] theorem setSkip_timer0 : (s.setSkip b).timer0 = s.timer0 := rfl
@[simp] theorem setSkip_clock : (s.setSkip b).clock = s.clock := rfl
@[simp] theorem setSkip_notifyQueue : (s.setSkip b).notifyQueue = s.notifyQueue := rfl
@[simp] theorem setSkip_controlQueue : (s.setSkip b).controlQueue = s.controlQueue := rfl
@[simp] theorem setSkip_hostInputs : (s.setSkip b).hostInputs = s.hostInputs := rfl
@[simp] theorem setSkip_outputs : (s.setSkip b).outputs = s.outputs := rfl
@[simp] theorem setSkip_drawCount : (s.setSkip b).drawCount = s.drawCount := rfl
@[simp] theorem setSkip_started : (s.setSkip b).started = s.started := rfl
@[simp] theorem setSkip_cell (x : RegAddr) : (s.setSkip b).cell x = s.cell x := rfl

end

/-! ### setPending -/

section
variable (s : State) (n : Nat)

@[simp] theorem setPending_params : (s.setPending n).params = s.params := rfl
@[simp] theorem setPending_configWord : (s.setPending n).configWord = s.configWord := rfl
@[simp] theorem setPending_flash : (s.setPending n).flash = s.flash := rfl
@[simp] theorem setPending_regs : (s.setPending n).regs = s.regs := rfl
@[simp] theorem setPending_w : (s.setPending n).w = s.w := rfl
@[simp] theorem setPending_pch : (s.setPending n).pch = s.pch := rfl
@[simp] theorem setPending_stack : (s.setPending n).stack = s.stack := rfl
@[simp] theorem setPending_sp : (s.setPending n).sp = s.sp := rfl
@[simp] theorem setPending_pendingCycles : (s.setPending n).pendingCycles = n := rfl
@[simp] theorem setPending_skip : (s.setPending n).skip = s.skip := rfl
@[simp] theorem setPending_paused : (s.setPending n).paused = s.paused := rfl
@[simp] theorem setPending_stepBudget : (s.setPending n).stepBudget = s.stepBudget := rfl
@[simp] theorem setPending_fault : (s.setPending n).fault = s.fault := rfl
@[simp] theorem setPending_sleeping : (s.setPending n).sleeping = s.sleeping := rfl
@[simp] theorem setPending_wakeOne : (s.setPending n).wakeOne = s.wakeOne := rfl
@[simp] theorem setPending_timer0 : (s.setPending n).timer0 = s.timer0 := rfl
@[simp] theorem setPending_clock : (s.setPending n).clock = s.clock := rfl
@[simp] theorem setPending_notifyQueue : (s.setPending n).notifyQueue = s.notifyQueue := rfl
@[simp] theorem setPending_controlQueue : (s.setPending n).controlQueue = s.controlQueue := rfl
@[simp] theorem setPending_hostInputs : (s.setPending n).hostInputs = s.hostInputs := rfl
@[simp] theorem setPending_outputs : (s.setPending n).outputs = s.outputs := rfl
@[simp] theorem setPending_drawCount : (s.setPending n).drawCount = s.drawCount := rfl
@[simp] theorem setPending_started : (s.setPending n).started = s.started := rfl
@[simp] theorem setPending_cell (x : RegAddr) : (s.setPending n).cell x = s.cell x := rfl

end

/-! ### setSleeping -/

section
variable (s : State) (b : Bool)

@[simp] theorem setSleeping_params : (s.setSleeping b).params = s.params := rfl
@[simp] theorem setSleeping_configWord : (s.setSleeping b).configWord = s.configWord := rfl
@[simp] theorem setSleeping_flash : (s.setSleeping b).flash = s.flash := rfl
@[simp] theorem setSleeping_regs : (s.setSleeping b).regs = s.regs := rfl
@[simp] theorem setSleeping_w : (s.setSleeping b).w = s.w := rfl
@[simp] theorem setSleeping_pch : (s.setSleeping b).pch = s.pch := rfl
@[simp] theorem setSleeping_stack : (s.setSleeping b).stack = s.stack := rfl
@[simp] theorem setSleeping_sp : (s.setSleeping b).sp = s.sp := rfl
@[simp] theorem setSleeping_pendingCycles : (s.setSleeping b).pendingCycles = s.pendingCycles := rfl
@[simp] theorem setSleeping_skip : (s.setSleeping b).skip = s.skip := rfl
@[simp] theorem setSleeping_paused : (s.setSleeping b).paused = s.paused := rfl
@[simp] theorem setSleeping_stepBudget : (s.setSleeping b).stepBudget = s.stepBudget := rfl
@[simp] theorem setSleeping_fault : (s.setSleeping b).fault = s.fault := rfl
@[simp] theorem setSleeping_sleeping : (s.setSleeping b).sleeping = b := rfl
@[simp] theorem setSleeping_wakeOne : (s.setSleeping b).wakeOne = s.wakeOne := rfl
@[simp] theorem setSleeping_timer0 : (s.setSleeping b).timer0 = s.timer0 := rfl
@[simp] theorem setSleeping_clock : (s.setSleeping b).clock = s.clock := rfl
@[simp] theorem setSleeping_notifyQueue : (s.setSleeping b).notifyQueue = s.notifyQueue := rfl
@[simp] theorem setSleeping_controlQueue : (s.setSleeping b).controlQueue = s.controlQueue := rfl
@[simp] theorem setSleeping_hostInputs : (s.setSleeping b).hostInputs = s.hostInputs := rfl
@[simp] theorem setSleeping_outputs : (s.setSleeping b).outputs = s.outputs := rfl
@[simp] theorem setSleeping_drawCount : (s.setSleeping b).drawCount = s.drawCount := rfl
@[simp] theorem setSleeping_started : (s.setSleeping b).started = s.started := rfl
@[simp] theorem setSleeping_cell (x : RegAddr) : (s.setSleeping b).cell x = s.cell x := rfl

end

/-! ### setWakeOne -/

section
variable (s : State) (b : Bool)

@[simp] theorem setWakeOne_params : (s.setWakeOne b).params = s.params := rfl
@[simp] theorem setWakeOne_configWord : (s.setWakeOne b).configWord = s.configWord := rfl
@[simp] theorem setWakeOne_flash : (s.setWakeOne b).flash = s.flash := rfl
@[simp] theorem setWakeOne_regs : (s.setWakeOne b).regs = s.regs := rfl
@[simp] theorem setWakeOne_w : (s.setWakeOne b).w = s.w := rfl
@[simp] theorem setWakeOne_pch : (s.setWakeOne b).pch = s.pch := rfl
@[simp] theorem setWakeOne_stack : (s.setWakeOne b).stack = s.stack := rfl
@[simp] theorem setWakeOne_sp : (s.setWakeOne b).sp = s.sp := rfl
@[simp] theorem setWakeOne_pendingCycles : (s.setWakeOne b).pendingCycles = s.pendingCycles := rfl
@[simp] theorem setWakeOne_skip : (s.setWakeOne b).skip = s.skip := rfl
@[simp] theorem setWakeOne_paused : (s.setWakeOne b).paused = s.paused := rfl
@[simp] theorem setWakeOne_stepBudget : (s.setWakeOne b).stepBudget = s.stepBudget := rfl
@[simp] theorem setWakeOne_fault : (s.setWakeOne b).fault = s.fault := rfl
@[simp] theorem setWakeOne_sleeping : (s.setWakeOne b).sleeping = s.sleeping := rfl
@[simp] theorem setWakeOne_wakeOne : (s.setWakeOne b).wakeOne = b := rfl
@[simp] theorem setWakeOne_timer0 : (s.setWakeOne b).timer0 = s.timer0 := rfl
@[simp] theorem setWakeOne_clock : (s.setWakeOne b).clock = s.clock := rfl
@[simp] theorem setWakeOne_notifyQueue : (s.setWakeOne b).notifyQueue = s.notifyQueue := rfl
@[simp] theorem setWakeOne_controlQueue : (s.setWakeOne b).controlQueue = s.controlQueue := rfl
@[simp] theorem setWakeOne_hostInputs : (s.setWakeOne b).hostInputs = s.hostInputs := rfl
@[simp] theorem setWakeOne_outputs : (s.setWakeOne b).outputs = s.outputs := rfl
@[simp] theorem setWakeOne_drawCount : (s.setWakeOne b).drawCount = s.drawCount := rfl
@[simp] theorem setWakeOne_started : (s.setWakeOne b).started = s.started := rfl
@[simp] theorem setWakeOne_cell (x : RegAddr) : (s.setWakeOne b).cell x = s.cell x := rfl

end

/-! ### setTimer0 -/

section
variable (s : State) (t : Timer0)

@[simp] theorem setTimer0_params : (s.setTimer0 t).params = s.params := rfl
@[simp] theorem setTimer0_configWord : (s.setTimer0 t).configWord = s.configWord := rfl
@[simp] theorem setTimer0_flash : (s.setTimer0 t).flash = s.flash := rfl
@[simp] theorem setTimer0_regs : (s.setTimer0 t).regs = s.regs := rfl
@[simp] theorem setTimer0_w : (s.setTimer0 t).w = s.w := rfl
@[simp] theorem setTimer0_pch : (s.setTimer0 t).pch = s.pch := rfl
@[simp] theorem setTimer0_stack : (s.setTimer0 t).stack = s.stack := rfl
@[simp] theorem setTimer0_sp : (s.setTimer0 t).sp = s.sp := rfl
@[simp] theorem setTimer0_pendingCycles : (s.setTimer0 t).pendingCycles = s.pendingCycles := rfl
@[simp] theorem setTimer0_skip : (s.setTimer0 t).skip = s.skip := rfl
@[simp] theorem setTimer0_paused : (s.setTimer0 t).paused = s.paused := rfl
@[simp] theorem setTimer0_stepBudget : (s.setTimer0 t).stepBudget = s.stepBudget := rfl
@[simp] theorem setTimer0_fault : (s.setTimer0 t).fault = s.fault := rfl
@[simp] theorem setTimer0_sleeping : (s.setTimer0 t).sleeping = s.sleeping := rfl
@[simp] theorem setTimer0_wakeOne : (s.setTimer0 t).wakeOne = s.wakeOne := rfl
@[simp] theorem setTimer0_timer0 : (s.setTimer0 t).timer0 = t := rfl
@[simp] theorem setTimer0_clock : (s.setTimer0 t).clock = s.clock := rfl
@[simp] theorem setTimer0_notifyQueue : (s.setTimer0 t).notifyQueue = s.notifyQueue := rfl
@[simp] theorem setTimer0_controlQueue : (s.setTimer0 t).controlQueue = s.controlQueue := rfl
@[simp] theorem setTimer0_hostInputs : (s.setTimer0 t).hostInputs = s.hostInputs := rfl
@[simp] theorem setTimer0_outputs : (s.setTimer0 t).outputs = s.outputs := rfl
@[simp] theorem setTimer0_drawCount : (s.setTimer0 t).drawCount = s.drawCount := rfl
@[simp] theorem setTimer0_started : (s.setTimer0 t).started = s.started := rfl
@[simp] theorem setTimer0_cell (x : RegAddr) : (s.setTimer0 t).cell x = s.cell x := rfl

end

/-! ### setClock -/

section
variable (s : State) (k : ClockGen)

@[simp] theorem setClock_params : (s.setClock k).params = s.params := rfl
@[simp] theorem setClock_configWord : (s.setClock k).configWord = s.configWord := rfl
@[simp] theorem setClock_flash : (s.setClock k).flash = s.flash := rfl
@[simp] theorem setClock_regs : (s.setClock k).regs = s.regs := rfl
@[simp] theorem setClock_w : (s.setClock k).w = s.w := rfl
@[simp] theorem setClock_pch : (s.setClock k).pch = s.pch := rfl
@[simp] theorem setClock_stack : (s.setClock k).stack = s.stack := rfl
@[simp] theorem setClock_sp : (s.setClock k).sp = s.sp := rfl
@[simp] theorem setClock_pendingCycles : (s.setClock k).pendingCycles = s.pendingCycles := rfl
@[simp] theorem setClock_skip : (s.setClock k).skip = s.skip := rfl
@[simp] theorem setClock_paused : (s.setClock k).paused = s.paused := rfl
@[simp] theorem setClock_stepBudget : (s.setClock k).stepBudget = s.stepBudget := rfl
@[simp] theorem setClock_fault : (s.setClock k).fault = s.fault := rfl
@[simp] theorem setClock_sleeping : (s.setClock k).sleeping = s.sleeping := rfl
@[simp] theorem setClock_wakeOne : (s.setClock k).wakeOne = s.wakeOne := rfl
@[simp] theorem setClock_timer0 : (s.setClock k).timer0 = s.timer0 := rfl
@[simp] theorem setClock_clock : (s.setClock k).clock = k := rfl
@[simp] theorem setClock_notifyQueue : (s.setClock k).notifyQueue = s.notifyQueue := rfl
@[simp] theorem setClock_controlQueue : (s.setClock k).controlQueue = s.controlQueue := rfl
@[simp] theorem setClock_hostInputs : (s.setClock k).hostInputs = s.hostInputs := rfl
@[simp] theorem setClock_outputs : (s.setClock k).outputs = s.outputs := rfl
@[simp] theorem setClock_drawCount : (s.setClock k).drawCount = s.drawCount := rfl
@[simp] theorem setClock_started : (s.setClock k).started = s.started := rfl
@[simp] theorem setClock_cell (x : RegAddr) : (s.setClock k).cell x = s.cell x := rfl

end

/-! ### enqueue -/

section
variable (s : State) (r : Record)

@[simp] theorem enqueue_params : (s.enqueue r).params = s.params := rfl
@[simp] theorem enqueue_configWord : (s.enqueue r).configWord = s.configWord := rfl
@[simp] theorem enqueue_flash : (s.enqueue r).flash = s.flash := rfl
@[simp] theorem enqueue_regs : (s.enqueue r).regs = s.regs := rfl
@[simp] theorem enqueue_w : (s.enqueue r).w = s.w := rfl
@[simp] theorem enqueue_pch : (s.enqueue r).pch = s.pch := rfl
@[simp] theorem enqueue_stack : (s.enqueue r).stack = s.stack := rfl
@[simp] theorem enqueue_sp : (s.enqueue r).sp = s.sp := rfl
@[simp] theorem enqueue_pendingCycles : (s.enqueue r).pendingCycles = s.pendingCycles := rfl
@[simp] theorem enqueue_skip : (s.enqueue r).skip = s.skip := rfl
@[simp] theorem enqueue_paused : (s.enqueue r).paused = s.paused := rfl
@[simp] theorem enqueue_stepBudget : (s.enqueue r).stepBudget = s.stepBudget := rfl
@[simp] theorem enqueue_fault : (s.enqueue r).fault = s.fault := rfl
@[simp] theorem enqueue_sleeping : (s.enqueue r).sleeping = s.sleeping := rfl
@[simp] theorem enqueue_wakeOne : (s.enqueue r).wakeOne = s.wakeOne := rfl
@[simp] theorem enqueue_timer0 : (s.enqueue r).timer0 = s.timer0 := rfl
@[simp] theorem enqueue_clock : (s.enqueue r).clock = s.clock := rfl
@[simp] theorem enqueue_notifyQueue : (s.enqueue r).notifyQueue = s.notifyQueue ++ [r] := rfl
@[simp] theorem enqueue_controlQueue : (s.enqueue r).controlQueue = s.controlQueue := rfl
@[simp] theorem enqueue_hostInputs : (s.enqueue r).hostInputs = s.hostInputs := rfl
@[simp] theorem enqueue_outputs : (s.enqueue r).outputs = s.outputs := rfl
@[simp] theorem enqueue_drawCount : (s.enqueue r).drawCount = s.drawCount := rfl
@[simp] theorem enqueue_started : (s.enqueue r).started = s.started := rfl
@[simp] theorem enqueue_cell (x : RegAddr) : (s.enqueue r).cell x = s.cell x := rfl

end

/-! ### notify -/

section
variable (s : State) (c : RegAddr) (old new : Byte)

@[simp] theorem notify_params : (s.notify c old new).params = s.params := rfl
@[simp] theorem notify_configWord : (s.notify c old new).configWord = s.configWord := rfl
@[simp] theorem notify_flash : (s.notify c old new).flash = s.flash := rfl
@[simp] theorem notify_regs : (s.notify c old new).regs = s.regs := rfl
@[simp] theorem notify_w : (s.notify c old new).w = s.w := rfl
@[simp] theorem notify_pch : (s.notify c old new).pch = s.pch := rfl
@[simp] theorem notify_stack : (s.notify c old new).stack = s.stack := rfl
@[simp] theorem notify_sp : (s.notify c old new).sp = s.sp := rfl
@[simp] theorem notify_pendingCycles : (s.notify c old new).pendingCycles = s.pendingCycles := rfl
@[simp] theorem notify_skip : (s.notify c old new).skip = s.skip := rfl
@[simp] theorem notify_paused : (s.notify c old new).paused = s.paused := rfl
@[simp] theorem notify_stepBudget : (s.notify c old new).stepBudget = s.stepBudget := rfl
@[simp] theorem notify_fault : (s.notify c old new).fault = s.fault := rfl
@[simp] theorem notify_sleeping : (s.notify c old new).sleeping = s.sleeping := rfl
@[simp] theorem notify_wakeOne : (s.notify c old new).wakeOne = s.wakeOne := rfl
@[simp] theorem notify_timer0 : (s.notify c old new).timer0 = s.timer0 := rfl
@[simp] theorem notify_clock : (s.notify c old new).clock = s.clock := rfl
@[simp] theorem notify_notifyQueue : (s.notify c old new).notifyQueue = s.notifyQueue ++ notifyRecords c old new := rfl
@[simp] theorem notify_controlQueue : (s.notify c old new).controlQueue = s.controlQueue := rfl
@[simp] theorem notify_hostInputs : (s.notify c old new).hostInputs = s.hostInputs := rfl
@[simp] theorem notify_outputs : (s.notify c old new).outputs = s.outputs := rfl
@[simp] theorem notify_drawCount : (s.notify c old new).drawCount = s.drawCount := rfl
@[simp] theorem notify_started : (s.notify c old new).started = s.started := rfl
@[simp] theorem notify_cell (x : RegAddr) : (s.notify c old new).cell x = s.cell x := rfl

end

/-! ### emit -/

section
variable (s : State) (o : HostOutput)

@[simp] theorem emit_params : (s.emit o).params = s.params := rfl
@[simp] theorem emit_configWord : (s.emit o).configWord = s.configWord := rfl
@[simp] theorem emit_flash : (s.emit o).flash = s.flash := rfl
@[simp] theorem emit_regs : (s.emit o).regs = s.regs := rfl
@[simp] theorem emit_w : (s.emit o).w = s.w := rfl
@[simp] theorem emit_pch : (s.emit o).pch = s.pch := rfl
@[simp] theorem emit_stack : (s.emit o).stack = s.stack := rfl
@[simp] theorem emit_sp : (s.emit o).sp = s.sp := rfl
@[simp] theorem emit_pendingCycles : (s.emit o).pendingCycles = s.pendingCycles := rfl
@[simp] theorem emit_skip : (s.emit o).skip = s.skip := rfl
@[simp] theorem emit_paused : (s.emit o).paused = s.paused := rfl
@[simp] theorem emit_stepBudget : (s.emit o).stepBudget = s.stepBudget := rfl
@[simp] theorem emit_fault : (s.emit o).fault = s.fault := rfl
@[simp] theorem emit_sleeping : (s.emit o).sleeping = s.sleeping := rfl
@[simp] theorem emit_wakeOne : (s.emit o).wakeOne = s.wakeOne := rfl
@[simp] theorem emit_timer0 : (s.emit o).timer0 = s.timer0 := rfl
@[simp] theorem emit_clock : (s.emit o).clock = s.clock := rfl
@[simp] theorem emit_notifyQueue : (s.emit o).notifyQueue = s.notifyQueue := rfl
@[simp] theorem emit_controlQueue : (s.emit o).controlQueue = s.controlQueue := rfl
@[simp] theorem emit_hostInputs : (s.emit o).hostInputs = s.hostInputs := rfl
@[simp] theorem emit_outputs : (s.emit o).outputs = s.outputs ++ [o] := rfl
@[simp] theorem emit_drawCount : (s.emit o).drawCount = s.drawCount := rfl
@[simp] theorem emit_started : (s.emit o).started = s.started := rfl
@[simp] theorem emit_cell (x : RegAddr) : (s.emit o).cell x = s.cell x := rfl

end

end Sys2Proof.Machine
end

