-- ==== Sys2Proof/Laws/Memory.lean ====
section
/-! SUPPORT. The laws of canonical memories: read after write, and that every write keeps the canonical form. -/

namespace Sys2Proof.Machine

section
variable {n : Nat} (d : Nat → BitVec n)

@[simp] theorem Store.read_nil (a : Nat) : Store.read d [] a = d a := rfl

theorem Store.read_cons (e : Nat × BitVec n) (m : List (Nat × BitVec n)) (a : Nat) :
    Store.read d (e :: m) a = if e.1 = a then e.2 else Store.read d m a := rfl

theorem Store.read_erase_same (m : List (Nat × BitVec n)) (a : Nat) :
    Store.read d (Store.erase m a) a = d a := by
  induction m with
  | nil => rfl
  | cons e m ih =>
    by_cases h : e.1 = a
    · simpa [Store.erase, h] using ih
    · simpa [Store.erase, h, Store.read] using ih

theorem Store.read_erase_other (m : List (Nat × BitVec n)) {a b : Nat} (h : b ≠ a) :
    Store.read d (Store.erase m a) b = Store.read d m b := by
  induction m with
  | nil => rfl
  | cons e m ih =>
    by_cases he : e.1 = a
    · have hb : e.1 ≠ b := fun hb => h (hb ▸ he)
      simpa [Store.erase, he, Store.read, hb, h.symm] using ih
    · by_cases hb : e.1 = b
      · simp [Store.erase, Store.read, hb, h]
      · simpa [Store.erase, he, Store.read, hb] using ih

/-- Placing an address the list does not hold lists its value and changes no other read. -/
theorem Store.read_place (m : List (Nat × BitVec n)) (a b : Nat) (v : BitVec n)
    (h : ∀ e ∈ m, e.1 ≠ a) :
    Store.read d (Store.place a v m) b = if a = b then v else Store.read d m b := by
  induction m with
  | nil => rfl
  | cons e m ih =>
    have he : e.1 ≠ a := h e (by simp)
    have hm : ∀ x ∈ m, x.1 ≠ a := fun x hx => h x (by simp [hx])
    by_cases hlt : a < e.1
    · simp [Store.place, hlt, Store.read]
    · by_cases hb : a = b
      · subst hb
        simpa [Store.place, hlt, Store.read, he] using ih hm
      · have := ih hm
        simp only [hb, if_false] at this
        simp [Store.place, hlt, Store.read, hb, this]

theorem Store.not_mem_erase (m : List (Nat × BitVec n)) (a : Nat) : ∀ e ∈ Store.erase m a, e.1 ≠ a := by
  intro e he
  simpa using (List.mem_filter.mp he).2

/-- A read after a write gives the value written at the address written, and what was there elsewhere. -/
theorem Store.read_write (m : List (Nat × BitVec n)) (a b : Nat) (v : BitVec n) :
    Store.read d (Store.write d m a v) b = if a = b then v else Store.read d m b := by
  by_cases hv : v = d a
  · by_cases hab : a = b
    · subst hab
      simpa [Store.write, hv] using Store.read_erase_same d m a
    · simpa [Store.write, hv, hab] using Store.read_erase_other d m (Ne.symm hab)
  · rw [Store.write, if_neg hv, Store.read_place d _ _ _ _ (Store.not_mem_erase m a)]
    by_cases hab : a = b
    · simp [hab]
    · simp [hab, Store.read_erase_other d m (Ne.symm hab)]

/-- The canonical form as a list fact: entries differ from the default and addresses rise. -/
theorem Store.wf_cons (e : Nat × BitVec n) (m : List (Nat × BitVec n)) :
    Store.wf d (e :: m) = true ↔ e.2 ≠ d e.1 ∧ (∀ x ∈ m, e.1 < x.1) ∧ Store.wf d m = true := by
  simp [Store.wf, and_assoc]

theorem Store.wf_erase {m : List (Nat × BitVec n)} (h : Store.wf d m = true) (a : Nat) :
    Store.wf d (Store.erase m a) = true := by
  induction m with
  | nil => rfl
  | cons e m ih =>
    obtain ⟨h1, h2, h3⟩ := (Store.wf_cons d e m).mp h
    by_cases he : e.1 = a
    · simpa [Store.erase, he] using ih h3
    · have hc : Store.erase (e :: m) a = e :: Store.erase m a := by simp [Store.erase, he]
      rw [hc, Store.wf_cons]
      exact ⟨h1, fun x hx => h2 x (List.mem_filter.mp hx).1, ih h3⟩

theorem Store.mem_place {m : List (Nat × BitVec n)} {a : Nat} {v : BitVec n} {x : Nat × BitVec n}
    (h : x ∈ Store.place a v m) : x = (a, v) ∨ x ∈ m := by
  induction m with
  | nil => simpa [Store.place] using h
  | cons e m ih =>
    by_cases hlt : a < e.1
    · simpa [Store.place, hlt] using h
    · rw [Store.place, if_neg hlt, List.mem_cons] at h
      rcases h with h | h
      · exact .inr (by simp [h])
      · rcases ih h with h | h
        · exact .inl h
        · exact .inr (by simp [h])

theorem Store.wf_place {m : List (Nat × BitVec n)} (h : Store.wf d m = true) {a : Nat} {v : BitVec n}
    (hv : v ≠ d a) (hm : ∀ e ∈ m, e.1 ≠ a) : Store.wf d (Store.place a v m) = true := by
  induction m with
  | nil => simp [Store.place, Store.wf, hv]
  | cons e m ih =>
    obtain ⟨h1, h2, h3⟩ := (Store.wf_cons d e m).mp h
    have he : e.1 ≠ a := hm e (by simp)
    by_cases hlt : a < e.1
    · rw [Store.place, if_pos hlt, Store.wf_cons]
      refine ⟨hv, fun x hx => ?_, h⟩
      rcases List.mem_cons.mp hx with hx | hx
      · exact hx ▸ hlt
      · exact lt_trans hlt (h2 x hx)
    · rw [Store.place, if_neg hlt, Store.wf_cons]
      refine ⟨h1, fun x hx => ?_, ih h3 fun x hx => hm x (by simp [hx])⟩
      rcases Store.mem_place hx with hx | hx
      · subst hx
        show e.1 < a
        omega
      · exact h2 x hx

/-- A write keeps the canonical form. -/
theorem Store.wf_write {m : List (Nat × BitVec n)} (h : Store.wf d m = true) (a : Nat) (v : BitVec n) :
    Store.wf d (Store.write d m a v) = true := by
  by_cases hv : v = d a
  · simpa [Store.write, hv] using Store.wf_erase d h a
  · rw [Store.write, if_neg hv]
    exact Store.wf_place d (Store.wf_erase d h a) hv (Store.not_mem_erase m a)

/-- Every address a write lists was listed before, or is the one written. -/
theorem Store.mem_write {m : List (Nat × BitVec n)} {a : Nat} {v : BitVec n} {x : Nat × BitVec n}
    (h : x ∈ Store.write d m a v) : x.1 = a ∨ x ∈ m := by
  unfold Store.write at h
  split at h
  · exact .inr (List.mem_filter.mp h).1
  · rcases Store.mem_place h with h | h
    · exact .inl (by simp [h])
    · exact .inr (List.mem_filter.mp h).1

end

/-! ### The parts of a full address -/

theorem fullAddr_getLsbD (b : Bank) (o : FileField) (i : Nat) :
    BitVec.getLsbD (fullAddr b o) i = if i < 7 then o.getLsbD i else b.getLsbD (i - 7) :=
  BitVec.getLsbD_append (x := b) (y := o) (i := i)

@[simp] theorem bankOf_fullAddr (b : Bank) (o : FileField) : bankOf (fullAddr b o) = b := by
  apply BitVec.eq_of_getLsbD_eq
  intro i hi
  rw [bankOf, BitVec.getLsbD_extractLsb', fullAddr_getLsbD]
  simp [hi]

@[simp] theorem offsetOf_fullAddr (b : Bank) (o : FileField) : offsetOf (fullAddr b o) = o := by
  apply BitVec.eq_of_getLsbD_eq
  intro i hi
  rw [offsetOf, BitVec.getLsbD_extractLsb', fullAddr_getLsbD]
  simp [hi]

/-- A cell reads as what was last written to it (spec 20_memory.md R87). -/
@[simp] theorem setCell_cell (s : State) (c x : RegAddr) (v : Byte) :
    (s.setCell c v).cell x = if c = x then v else s.cell x := by
  have h : (c.toNat = x.toNat) ↔ c = x := BitVec.toNat_inj
  simp [State.cell, setCell_regs, Store.read_write, h]

theorem setCell_regs_wf {s : State} (h : Store.wf resetByte s.regs = true) (c : RegAddr) (v : Byte) :
    Store.wf resetByte (s.setCell c v).regs = true :=
  Store.wf_write _ h _ _

/-- A write of a cell lists no address beyond the register file. -/
theorem setCell_range {s : State} (h : ∀ e ∈ s.regs, e.1 < 0x200) (c : RegAddr) (v : Byte) :
    ∀ e ∈ (s.setCell c v).regs, e.1 < 0x200 := by
  intro e he
  rcases Store.mem_write _ he with h1 | h1
  · rw [h1]
    exact c.isLt
  · exact h e h1

theorem reset_regs_wf : Store.wf resetByte State.reset.regs = true := rfl

theorem reset_flash_wf : Store.wf (fun _ => State.reset.params.flashFill) State.reset.flash = true := rfl

end Sys2Proof.Machine
end

