-- ==== Sys2Proof/Laws/Ops.lean ====
section
/-! SUPPORT. One lemma for each shared operation that says what it does: the shape of the state it leaves, the cells it
writes, and the form it keeps. Callers cite these instead of unfolding the operation. -/

namespace Sys2Proof.Machine

/-! ### The shape of what a register-file write leaves -/

/-- `t` differs from `s` at most in the register file, PCH and the notification queue. -/
structure OnlyRegs (s t : State) : Prop where
  engine : EngineSame s t
  w : t.w = s.w
  stack : t.stack = s.stack
  sp : t.sp = s.sp
  skip : t.skip = s.skip
  sleeping : t.sleeping = s.sleeping
  timer0 : t.timer0 = s.timer0

theorem EngineSame.rfl {s : State} : EngineSame s s := by constructor <;> rfl

theorem EngineSame.trans {s t u : State} (h : EngineSame s t) (k : EngineSame t u) : EngineSame s u := by
  constructor
  · exact k.params.trans h.params
  · exact k.configWord.trans h.configWord
  · exact k.flash.trans h.flash
  · exact k.pendingCycles.trans h.pendingCycles
  · exact k.paused.trans h.paused
  · exact k.stepBudget.trans h.stepBudget
  · exact k.fault.trans h.fault
  · exact k.wakeOne.trans h.wakeOne
  · exact k.clock.trans h.clock
  · exact k.controlQueue.trans h.controlQueue
  · exact k.hostInputs.trans h.hostInputs
  · exact k.outputs.trans h.outputs
  · exact k.drawCount.trans h.drawCount
  · exact k.started.trans h.started

theorem OnlyRegs.rfl {s : State} : OnlyRegs s s := by
  constructor <;> first | exact EngineSame.rfl | exact Eq.refl _

theorem OnlyRegs.trans {s t u : State} (h : OnlyRegs s t) (k : OnlyRegs t u) : OnlyRegs s u := by
  constructor
  · exact h.engine.trans k.engine
  · exact k.w.trans h.w
  · exact k.stack.trans h.stack
  · exact k.sp.trans h.sp
  · exact k.skip.trans h.skip
  · exact k.sleeping.trans h.sleeping
  · exact k.timer0.trans h.timer0

theorem EngineSame.setSkip {s t : State} (h : EngineSame s t) (b : Bool) : EngineSame s (t.setSkip b) :=
  h.trans (by constructor <;> rfl)

theorem push_engineSame (s : State) (v : ProgAddr) : EngineSame s (s.push v) := by constructor <;> rfl

theorem pop_engineSame (s : State) : EngineSame s s.pop := by constructor <;> rfl

theorem setW_engineSame (s : State) (v : Byte) : EngineSame s (s.setW v) := by constructor <;> rfl

theorem setSleeping_engineSame (s : State) (b : Bool) : EngineSame s (s.setSleeping b) := by
  constructor <;> rfl

theorem clearWdtPrescaler_engineSame (s : State) : EngineSame s s.clearWdtPrescaler := by
  unfold State.clearWdtPrescaler
  split
  · constructor <;> rfl
  · exact EngineSame.rfl

theorem OnlyRegs.dataFrame {s t : State} (h : OnlyRegs s t) : DataFrame s t :=
  ⟨h.engine, h.stack, h.sp, h.sleeping, h.timer0⟩

/-- Any change of the register file, PCH and the notification queue alone. -/
theorem onlyRegs_mk (s : State) (r : List Host.Cell) (p : BitVec 5) (q : List Record) :
    OnlyRegs s { s with regs := r, pch := p, notifyQueue := q } := by
  constructor <;> first | rfl | (constructor <;> rfl)

theorem setCell_onlyRegs (s : State) (c : RegAddr) (v : Byte) : OnlyRegs s (s.setCell c v) := onlyRegs_mk s _ _ _
theorem setPch_onlyRegs (s : State) (v : BitVec 5) : OnlyRegs s (s.setPch v) := onlyRegs_mk s _ _ _
theorem notify_onlyRegs (s : State) (c : RegAddr) (o n : Byte) : OnlyRegs s (s.notify c o n) := onlyRegs_mk s _ _ _
theorem writeDirect_onlyRegs (s : State) (c : RegAddr) (v : Byte) : OnlyRegs s (s.writeDirect c v) := onlyRegs_mk s _ _ _

theorem couplePcl_onlyRegs (s : State) (c : RegAddr) : OnlyRegs s (s.couplePcl c) := by
  unfold State.couplePcl
  split
  · exact setPch_onlyRegs s _
  · exact OnlyRegs.rfl

theorem writeCell_onlyRegs (s : State) (c : RegAddr) (v keep : Byte) : OnlyRegs s (s.writeCell c v keep) :=
  ((setCell_onlyRegs s c _).trans (couplePcl_onlyRegs _ c)).trans (notify_onlyRegs _ c _ _)

theorem memWrite_onlyRegs (s : State) (a : RegAddr) (v keep : Byte) : OnlyRegs s (s.memWrite a v keep) := by
  unfold State.memWrite
  split
  · exact OnlyRegs.rfl
  · exact writeCell_onlyRegs s _ v keep

theorem fileWrite_onlyRegs (s : State) (f : FileField) (v keep : Byte) : OnlyRegs s (s.fileWrite f v keep) :=
  memWrite_onlyRegs s _ v keep

theorem dest_engineSame (s : State) (d : Dest) (f : FileField) (r keep : Byte) : EngineSame s (s.dest d f r keep) := by
  cases d with
  | toW => exact setW_engineSame s r
  | toF => exact (fileWrite_onlyRegs s f r keep).engine

theorem setStatusBit_onlyRegs (s : State) (i : Nat) (v : Bool) : OnlyRegs s (s.setStatusBit i v) :=
  writeDirect_onlyRegs s _ _

theorem setPC_onlyRegs (s : State) (v : ProgAddr) : OnlyRegs s (s.setPC v) := by
  unfold State.setPC
  cases s.params.pcModel <;> exact onlyRegs_mk s _ _ _

theorem setGIE_onlyRegs (s : State) (v : Bool) : OnlyRegs s (s.setGIE v) := writeDirect_onlyRegs s _ _

theorem setStatusTP_onlyRegs (s : State) (a b : Bool) : OnlyRegs s (s.setStatusTP a b) := writeDirect_onlyRegs s _ _

theorem setZ_onlyRegs (s : State) (r : Byte) : OnlyRegs s (s.setZ r) := writeDirect_onlyRegs s _ _
theorem setC_onlyRegs (s : State) (c : Bool) : OnlyRegs s (s.setC c) := writeDirect_onlyRegs s _ _
theorem setDC_onlyRegs (s : State) (c : Bool) : OnlyRegs s (s.setDC c) := writeDirect_onlyRegs s _ _

theorem setCDCZ_onlyRegs (s : State) (x : AluResult) : OnlyRegs s (s.setCDCZ x) :=
  ((setC_onlyRegs s x.c).trans (setDC_onlyRegs _ x.dc)).trans (setZ_onlyRegs _ x.r)

/-! ### What the writes do to the cells, PCH and the queue -/

@[simp] theorem writeDirect_cell (s : State) (c x : RegAddr) (v : Byte) :
    (s.writeDirect c v).cell x = if c = x then v else s.cell x := by simp [State.writeDirect]

@[simp] theorem writeDirect_pch (s : State) (c : RegAddr) (v : Byte) : (s.writeDirect c v).pch = s.pch := rfl

@[simp] theorem writeDirect_notifyQueue (s : State) (c : RegAddr) (v : Byte) :
    (s.writeDirect c v).notifyQueue = s.notifyQueue ++ notifyRecords c (s.cell c) v := rfl

@[simp] theorem couplePcl_cell (s : State) (c x : RegAddr) : (s.couplePcl c).cell x = s.cell x := by
  unfold State.couplePcl
  split <;> simp

@[simp] theorem couplePcl_notifyQueue (s : State) (c : RegAddr) : (s.couplePcl c).notifyQueue = s.notifyQueue := by
  unfold State.couplePcl
  split <;> simp

theorem couplePcl_pch (s : State) (c : RegAddr) : (s.couplePcl c).pch =
    if c = Cell.pcl ∧ s.params.pcModel = .separatePch then (s.cell Cell.pclath).extractLsb' 0 5 else s.pch := by
  unfold State.couplePcl
  split <;> simp

@[simp] theorem writeCell_cell (s : State) (c x : RegAddr) (v keep : Byte) :
    (s.writeCell c v keep).cell x = if c = x then storedByte c keep (s.cell c) v else s.cell x := by
  simp [State.writeCell]

@[simp] theorem writeCell_notifyQueue (s : State) (c : RegAddr) (v keep : Byte) :
    (s.writeCell c v keep).notifyQueue =
      s.notifyQueue ++ notifyRecords c (s.cell c) (storedByte c keep (s.cell c) v) := by
  simp [State.writeCell]

theorem writeCell_pch (s : State) (c : RegAddr) (v keep : Byte) : (s.writeCell c v keep).pch =
    if c = Cell.pcl ∧ s.params.pcModel = .separatePch then (s.cell Cell.pclath).extractLsb' 0 5 else s.pch := by
  simp only [State.writeCell, notify_pch, couplePcl_pch, setCell_params, setCell_pch, setCell_cell]
  by_cases h : c = Cell.pcl
  · subst h
    simp [Cell.pcl, Cell.pclath]
  · simp [h]

/-- Every write at a full address, by the cell it reaches. -/
theorem memWrite_eq (s : State) (a : RegAddr) (v keep : Byte) : s.memWrite a v keep =
    match storageCell s.params a with
    | none => s
    | some c => s.writeCell c v keep := rfl

theorem fileWrite_eq (s : State) (f : FileField) (v keep : Byte) : s.fileWrite f v keep =
    match s.fileCell f with
    | none => s
    | some c => s.writeCell c v keep := rfl

theorem fileRead_eq (s : State) (f : FileField) : s.fileRead f =
    match s.fileCell f with
    | none => 0x00#8
    | some c => s.cell c := rfl

/-! A result write, by where the result goes. -/

theorem dest_toW (s : State) (f : FileField) (r keep : Byte) : s.dest .toW f r keep = s.setW r := rfl

theorem dest_toF_none {s : State} {f : FileField} (h : s.fileCell f = none) (r keep : Byte) :
    s.dest .toF f r keep = s := by
  show s.fileWrite f r keep = s
  rw [fileWrite_eq, h]

theorem dest_toF_some {s : State} {f : FileField} {c : RegAddr} (h : s.fileCell f = some c) (r keep : Byte) :
    s.dest .toF f r keep = s.writeCell c r keep := by
  show s.fileWrite f r keep = _
  rw [fileWrite_eq, h]

/-! The records a write of each special-function cell appends (spec 20_memory.md R90). -/

theorem notifyRecords_tmr0 (o n : Byte) : notifyRecords Cell.tmr0 o n = [.notify .tmr0 o n] := rfl

theorem notifyRecords_option (o n : Byte) :
    notifyRecords Cell.option o n = if n = o then [] else [.notify .option o n] := by
  by_cases h : n = o <;> simp [notifyRecords, monitored, Cell.tmr0, Cell.option, h]

theorem notifyRecords_porta (o n : Byte) :
    notifyRecords Cell.porta o n = if n = o then [] else [.notify .porta o n] := by
  by_cases h : n = o <;> simp [notifyRecords, monitored, Cell.tmr0, Cell.option, Cell.porta, h]

theorem notifyRecords_intcon (o n : Byte) :
    notifyRecords Cell.intcon o n = if n = o then [] else [.notify .intcon o n] := by
  by_cases h : n = o <;> simp [notifyRecords, monitored, Cell.tmr0, Cell.option, Cell.porta, Cell.intcon, h]

theorem notifyRecords_status (o n : Byte) :
    notifyRecords Cell.status o n = if n = o then [] else [.notify .status o n] := by
  by_cases h : n = o <;>
    simp [notifyRecords, monitored, Cell.tmr0, Cell.option, Cell.porta, Cell.intcon, Cell.status, h]

theorem notifyRecords_other {c : RegAddr} (h : monitored c = none) (o n : Byte) : notifyRecords c o n = [] := by
  simp [notifyRecords, h]

/-! ### The program counter and the return stack -/

theorem setPC_cell (s : State) (v : ProgAddr) (x : RegAddr) : (s.setPC v).cell x =
    if x = Cell.pcl then v.extractLsb' 0 8
    else if x = Cell.pclath ∧ s.params.pcModel = .pclathSynth then (v.extractLsb' 8 5).setWidth 8
    else s.cell x := by
  unfold State.setPC
  by_cases h1 : x = Cell.pcl
  · subst h1
    cases s.params.pcModel <;> simp [Cell.pcl, Cell.pclath]
  · by_cases h2 : x = Cell.pclath
    · subst h2
      cases s.params.pcModel <;> simp [Cell.pcl, Cell.pclath]
    · cases s.params.pcModel <;> simp [Ne.symm h1, Ne.symm h2, h1, h2]

theorem setPC_pch (s : State) (v : ProgAddr) : (s.setPC v).pch =
    match s.params.pcModel with
    | .pclathSynth => s.pch
    | .separatePch => v.extractLsb' 8 5 := by
  unfold State.setPC
  cases s.params.pcModel <;> rfl

/-- Only the register file, PCH, the stack pointer and the stack hold the PC and the return addresses. -/
@[simp] theorem setPC_notifyQueue (s : State) (v : ProgAddr) : (s.setPC v).notifyQueue = s.notifyQueue := by
  unfold State.setPC
  cases s.params.pcModel <;> rfl

/-- `GetPC` after `SetPC` (spec 10_state.md R22, R23). -/
theorem setPC_getPC (s : State) (v : ProgAddr) : (s.setPC v).getPC = v := by
  have h5 : ∀ x : BitVec 5, (x.setWidth 8 : Byte).extractLsb' 0 5 = x := by decide
  have hv : (v.extractLsb' 8 5 ++ v.extractLsb' 0 8 : BitVec 13) = v := by
    apply BitVec.eq_of_getLsbD_eq
    intro i hi
    have h1 : BitVec.getLsbD (v.extractLsb' 8 5 ++ v.extractLsb' 0 8 : BitVec 13) i = _ := BitVec.getLsbD_append
    rw [h1]
    by_cases h : i < 8
    · simp [h]
    · simp [h, show 8 + (i - 8) = i by omega, show i - 8 < 5 by omega]
  unfold State.getPC State.pcHigh
  rw [(setPC_onlyRegs s v).engine.params]
  cases h : s.params.pcModel
  · simp only [setPC_cell, h, if_true]
    simp [Cell.pcl, Cell.pclath, h5, hv]
  · simp only [setPC_cell, setPC_pch, h, if_true, hv]

theorem push_stack (s : State) (v : ProgAddr) (j : Fin 8) :
    (s.push v).stack[j] = if j.val = (s.sp - 1#3).toNat then v else s.stack[j] := by
  show (s.stack.set (s.sp - 1#3).toNat v (s.sp - 1#3).isLt)[j.val] = _
  rw [Vector.getElem_set]
  simp [eq_comm]

theorem push_sp (s : State) (v : ProgAddr) : (s.push v).sp = s.sp - 1#3 := rfl

theorem push_top (s : State) (v : ProgAddr) : (s.push v).top = v := by
  simp [State.top, State.push]

theorem pop_push_sp (s : State) (v : ProgAddr) : (s.push v).pop.sp = s.sp := by
  simp [State.pop, State.push]

/-! ### Canonical form -/

theorem writeDirect_wf {s : State} (h : Store.wf resetByte s.regs = true) (c : RegAddr) (v : Byte) :
    Store.wf resetByte (s.writeDirect c v).regs = true := setCell_regs_wf h c v

theorem couplePcl_regs (s : State) (c : RegAddr) : (s.couplePcl c).regs = s.regs := by
  unfold State.couplePcl
  split <;> rfl

theorem writeCell_wf {s : State} (h : Store.wf resetByte s.regs = true) (c : RegAddr) (v keep : Byte) :
    Store.wf resetByte (s.writeCell c v keep).regs = true := by
  simpa [State.writeCell, couplePcl_regs] using setCell_regs_wf h c _

theorem memWrite_wf {s : State} (h : Store.wf resetByte s.regs = true) (a : RegAddr) (v keep : Byte) :
    Store.wf resetByte (s.memWrite a v keep).regs = true := by
  rw [memWrite_eq]
  split
  · exact h
  · exact writeCell_wf h _ v keep

theorem fileWrite_wf {s : State} (h : Store.wf resetByte s.regs = true) (f : FileField) (v keep : Byte) :
    Store.wf resetByte (s.fileWrite f v keep).regs = true := memWrite_wf h _ v keep

theorem setPC_wf {s : State} (h : Store.wf resetByte s.regs = true) (v : ProgAddr) :
    Store.wf resetByte (s.setPC v).regs = true := by
  unfold State.setPC
  cases s.params.pcModel
  · exact setCell_regs_wf (setCell_regs_wf h _ _) _ _
  · exact setCell_regs_wf h _ _

/-- An image word sets its own flash word, masked to 14 bits, where the address is inside flash (spec 60_exceptions.md
R323). -/
theorem loadWord_flashRead (s : State) (pa w a : Nat) : (s.loadWord pa w).flashRead a =
    if a = pa ∧ pa < s.params.flashSize then BitVec.ofNat 14 (w % 0x4000) else s.flashRead a := by
  have hm : BitVec.ofNat 14 (w % 0x4000) = BitVec.ofNat 14 w := BitVec.eq_of_toNat_eq (by simp)
  unfold State.loadWord State.flashRead
  split
  · rename_i h
    simp only [Store.read_write, hm, h, and_true, eq_comm]
  · rename_i h
    simp [h]

theorem loadWord_eq (s : State) (pa w : Nat) : s.loadWord pa w = { s with flash := (s.loadWord pa w).flash } := by
  unfold State.loadWord
  split <;> rfl

theorem loadWord_params (s : State) (pa w : Nat) : (s.loadWord pa w).params = s.params := by rw [loadWord_eq]

/-- An image word lands inside flash (spec 60_exceptions.md R323). -/
theorem loadWord_range {s : State} (h : ∀ e ∈ s.flash, e.1 < s.params.flashSize) (pa w : Nat) :
    ∀ e ∈ (s.loadWord pa w).flash, e.1 < (s.loadWord pa w).params.flashSize := by
  unfold State.loadWord
  split
  · rename_i hpa
    intro e he
    rcases Store.mem_write (fun _ => s.params.flashFill) he with h1 | h1
    · exact h1 ▸ hpa
    · exact h e h1
  · exact h

theorem loadWord_wf {s : State} (h : Store.wf (fun _ => s.params.flashFill) s.flash = true) (pa w : Nat) :
    Store.wf (fun _ => (s.loadWord pa w).params.flashFill) (s.loadWord pa w).flash = true := by
  unfold State.loadWord
  split
  · exact Store.wf_write _ h _ _
  · exact h

end Sys2Proof.Machine
end

