-- ==== Sys2Proof/Laws/Flags.lean ====
section
/-! SUPPORT. The laws of single STATUS bits and of the result write: what each leaves in every bit of STATUS, and that a
flag primitive after a result write keeps what the result write did. -/

namespace Sys2Proof.Machine

/-- One bit replaced, the others kept. -/
theorem withBit_getLsbD (x : Byte) {i : Nat} (hi : i < 8) (v : Bool) (j : Nat) :
    (withBit x i v).getLsbD j = if i = j then v else x.getLsbD j := by
  by_cases hj : j < 8
  · have h1 : (1#8 <<< i).getLsbD j = decide (i = j) := by
      rw [BitVec.getLsbD_shiftLeft, BitVec.getLsbD_one]
      by_cases h : i = j
      · subst h
        simp [hi]
      · by_cases hk : j < i
        · simp [hk, h]
        · have : j - i ≠ 0 := by omega
          simp [h, this]
    cases v <;> by_cases h : i = j <;> simp [withBit, BitVec.getLsbD_or, BitVec.getLsbD_and, BitVec.getLsbD_not, -BitVec.getLsbD_eq_getElem, h1, h, hj]
  · have hij : i ≠ j := by omega
    rw [BitVec.getLsbD_of_ge _ j (by omega), if_neg hij, BitVec.getLsbD_of_ge _ j (by omega)]

theorem setStatusBit_statusBit (s : State) {i : Nat} (hi : i < 8) (v : Bool) (j : Nat) :
    (s.setStatusBit i v).statusBit j = if i = j then v else s.statusBit j := by
  simp [State.setStatusBit, State.statusBit, withBit_getLsbD _ hi]

theorem setStatusBit_cell_other (s : State) (i : Nat) (v : Bool) {c : RegAddr} (h : c ≠ Cell.status) :
    (s.setStatusBit i v).cell c = s.cell c := by
  simp [State.setStatusBit, h.symm]

@[simp] theorem setStatusBit_pch (s : State) (i : Nat) (v : Bool) : (s.setStatusBit i v).pch = s.pch := rfl

/-- A flag primitive's notifications: at most one, a STATUS change. -/
theorem setStatusBit_notifyQueue (s : State) (i : Nat) (v : Bool) :
    (s.setStatusBit i v).notifyQueue = s.notifyQueue ++
      (if (s.setStatusBit i v).cell Cell.status = s.cell Cell.status then []
       else [.notify .status (s.cell Cell.status) ((s.setStatusBit i v).cell Cell.status)]) := by
  simp [State.setStatusBit, notifyRecords_status]

theorem setStatusBit_status (s : State) (i : Nat) (v : Bool) :
    (s.setStatusBit i v).cell Cell.status = withBit (s.cell Cell.status) i v := by simp [State.setStatusBit]

/-! Flag writes, one more at the end. -/

theorem statusAfterFlags_concat (x : Byte) (ws : List (Nat × Bool)) (i : Nat) (v : Bool) :
    statusAfterFlags x (ws ++ [(i, v)]) = withBit (statusAfterFlags x ws) i v := by simp [statusAfterFlags]

theorem flagRecords_concat (x : Byte) (ws : List (Nat × Bool)) (i : Nat) (v : Bool) :
    flagRecords x (ws ++ [(i, v)]) = flagRecords x ws ++
      (if withBit (statusAfterFlags x ws) i v = statusAfterFlags x ws then []
       else [.notify .status (statusAfterFlags x ws) (withBit (statusAfterFlags x ws) i v)]) := by
  induction ws generalizing x with
  | nil => exact List.append_nil _
  | cons w ws ih =>
    show _ ++ flagRecords (withBit x w.1 w.2) (ws ++ [(i, v)]) = _
    rw [ih, ← List.append_assoc]
    rfl

/-- Bits of a byte merged under a mask. -/
theorem merge_getLsbD (old keep v : Byte) {j : Nat} (hj : j < 8) :
    ((old &&& keep) ||| (v &&& ~~~keep)).getLsbD j = if keep.getLsbD j then old.getLsbD j else v.getLsbD j := by
  rw [BitVec.getLsbD_or, BitVec.getLsbD_and, BitVec.getLsbD_and, BitVec.getLsbD_not]
  cases keep.getLsbD j <;> simp [hj, -BitVec.getLsbD_eq_getElem]

/-- STATUS after a result write, bit by bit: kept where `keep` says so or where STATUS is not the target. -/
theorem dest_statusBit (s : State) (d : Dest) (f : FileField) (r keep : Byte) {j : Nat} (hj : j < 8) :
    (s.dest d f r keep).statusBit j =
      if s.resultCell d f = some Cell.status ∧ keep.getLsbD j = false then r.getLsbD j else s.statusBit j := by
  cases d with
  | toW => simp [dest_toW, State.resultCell, State.statusBit]
  | toF =>
    rcases hc : s.fileCell f with _ | c
    · simp [dest_toF_none hc, State.resultCell, hc]
    · rw [dest_toF_some hc]
      by_cases h : c = Cell.status
      · subst h
        simp only [State.statusBit, State.resultCell, hc, writeCell_cell, storedByte, if_true, true_and,
          merge_getLsbD _ _ _ hj]
        cases keep.getLsbD j <;> simp
      · simp [State.statusBit, State.resultCell, hc, h]

/-- A 3-bit field by its bits. -/
theorem extract3_eq {x y : Byte} (k : Nat) (h : ∀ j, j < 3 → x.getLsbD (k + j) = y.getLsbD (k + j)) :
    x.extractLsb' k 3 = y.extractLsb' k 3 := by
  apply BitVec.eq_of_getLsbD_eq
  intro i hi
  simp [hi, h i hi]

/-- What the result write alone does, before any flag. -/
theorem dest_result (s : State) (d : Dest) (f : FileField) (r : Byte) {keep : Byte}
    (hk : keep = keepTP ∨ keep = keepFlags) : ByteResult s (s.dest d f r keep) d f r keep [] := by
  have hbank : ∀ j, j < 3 → keep.getLsbD (5 + j) = false := by
    rcases hk with rfl | rfl <;> decide
  have htp : keep.getLsbD 4 = true ∧ keep.getLsbD 3 = true := by
    rcases hk with rfl | rfl <;> decide
  have hbit := fun j hj => dest_statusBit s d f r keep (j := j) hj
  refine ⟨?_, ⟨?_, ?_⟩, ⟨?_, ?_, ?_⟩, ⟨?_, ?_⟩, ?_⟩
  · cases d with
    | toW => rfl
    | toF => exact (fileWrite_onlyRegs s f r keep).w
  · intro c hc
    cases d with
    | toW => simp [dest_toW, State.resultCell]
    | toF =>
      rcases h : s.fileCell f with _ | x
      · simp [dest_toF_none h, State.resultCell, h]
      · by_cases hx : x = c
        · subst hx
          simp [dest_toF_some h, State.resultCell, h, storedByte, hc]
        · simp [dest_toF_some h, State.resultCell, h, hx]
  · cases d with
    | toW => simp [dest_toW, State.resultCell]
    | toF =>
      rcases h : s.fileCell f with _ | x
      · simp [dest_toF_none h, State.resultCell, h]
      · simp [dest_toF_some h, State.resultCell, h, writeCell_pch]
  · refine extract3_eq 5 fun j hj => ?_
    have h1 := hbit (5 + j) (by omega)
    simp only [hbank j hj, and_true] at h1
    have h2 : (if s.resultCell d f = some Cell.status then r else s.cell Cell.status).getLsbD (5 + j) =
        if s.resultCell d f = some Cell.status then r.getLsbD (5 + j) else s.statusBit (5 + j) := by
      split <;> rfl
    rw [h2, ← h1]
    rfl
  · have := hbit 4 (by omega)
    rwa [htp.1, if_neg (by simp)] at this
  · have := hbit 3 (by omega)
    rwa [htp.2, if_neg (by simp)] at this
  · cases d with
    | toW => simp [dest_toW, State.resultCell, statusAfterFlags, State.statusAfterResult]
    | toF =>
      rcases h : s.fileCell f with _ | x
      · simp [dest_toF_none h, State.resultCell, h, statusAfterFlags, State.statusAfterResult]
      · by_cases hx : x = Cell.status
        · subst hx
          simp [dest_toF_some h, State.resultCell, h, statusAfterFlags, State.statusAfterResult, storedByte]
        · simp [dest_toF_some h, State.resultCell, h, statusAfterFlags, State.statusAfterResult, hx]
  · cases d with
    | toW => simp [dest_toW, State.resultCell, State.resultRecords, flagRecords]
    | toF =>
      rcases h : s.fileCell f with _ | x
      · simp [dest_toF_none h, State.resultCell, State.resultRecords, h, flagRecords]
      · simp [dest_toF_some h, State.resultCell, State.resultRecords, h, flagRecords]
  · cases d with
    | toW => exact ⟨by constructor <;> rfl, rfl, rfl, rfl, rfl⟩
    | toF => exact (fileWrite_onlyRegs s f r keep).dataFrame

/-- A flag primitive on Z, DC or C after a result write keeps the result. -/
theorem ByteResult.setStatusBit {s t : State} {d : Dest} {f : FileField} {r keep : Byte} {writes : List (Nat × Bool)}
    (h : ByteResult s t d f r keep writes) {i : Nat} (hi : i < 3) (v : Bool) :
    ByteResult s (t.setStatusBit i v) d f r keep (writes ++ [(i, v)]) := by
  have hbit := fun j => setStatusBit_statusBit t (i := i) (by omega) v j
  obtain ⟨hw, ⟨hcells, hpch⟩, ⟨hbank, hto, hpd⟩, ⟨hstatus, hq⟩, hframe⟩ := h
  have ho := setStatusBit_onlyRegs t i v
  refine ⟨ho.w.trans hw, ⟨?_, hpch⟩, ⟨?_, ?_, ?_⟩, ⟨?_, ?_⟩, ?_⟩
  · intro c hc
    rw [setStatusBit_cell_other t i v hc, hcells c hc]
  · rw [← hbank]
    refine extract3_eq 5 fun j hj => ?_
    have := hbit (5 + j)
    rw [if_neg (by omega)] at this
    exact this
  · rw [← hto]
    simpa [State.flagTO, show i ≠ 4 by omega] using hbit 4
  · rw [← hpd]
    simpa [State.flagPD, show i ≠ 3 by omega] using hbit 3
  · rw [setStatusBit_status, hstatus, statusAfterFlags_concat]
  · rw [setStatusBit_notifyQueue, setStatusBit_status, hstatus, hq, flagRecords_concat, ← List.append_assoc]
  · exact ⟨hframe.engine.trans ho.engine, ho.stack.trans hframe.stack, ho.sp.trans hframe.sp,
      ho.sleeping.trans hframe.sleeping, ho.timer0.trans hframe.timer0⟩

/-- Returning the skip value keeps the result. -/
theorem ByteResult.setSkip {s t : State} {d : Dest} {f : FileField} {r keep : Byte} {writes : List (Nat × Bool)}
    (h : ByteResult s t d f r keep writes) (b : Bool) : ByteResult s (t.setSkip b) d f r keep writes := by
  obtain ⟨hw, ⟨hcells, hpch⟩, ⟨hbank, hto, hpd⟩, ⟨hs, hq⟩, ⟨e, h1, h2, h3, h4⟩⟩ := h
  exact ⟨hw, ⟨hcells, hpch⟩, ⟨hbank, hto, hpd⟩, ⟨hs, hq⟩, ⟨e.trans (by constructor <;> rfl), h1, h2, h3, h4⟩⟩

/-- The flags a result write with `keepFlags` leaves are those before it. -/
theorem dest_flag_kept (s : State) (d : Dest) (f : FileField) (r : Byte) {j : Nat} (hj : j < 5) :
    (s.dest d f r keepFlags).statusBit j = s.statusBit j := by
  have hk : keepFlags.getLsbD j = true := by
    have : ∀ i < 5, keepFlags.getLsbD i = true := by decide
    exact this j hj
  simp [dest_statusBit s d f r keepFlags (show j < 8 by omega), hk]

/-- A result write with `keepTP` leaves Z, DC and C as data. -/
theorem dest_flagsAsData (s : State) (d : Dest) (f : FileField) (r : Byte) :
    FlagsAsData s (s.dest d f r keepTP) (s.resultCell d f) r := by
  refine extract3_eq 0 fun j hj => ?_
  have hk : keepTP.getLsbD (0 + j) = false := by
    have : ∀ i < 3, keepTP.getLsbD (0 + i) = false := by decide
    exact this j hj
  have h := dest_statusBit s d f r keepTP (show 0 + j < 8 by omega)
  simp only [hk, and_true] at h
  rw [State.statusBit] at h
  rw [h]
  split <;> rfl

end Sys2Proof.Machine
end

