-- ==== Sys2Proof/Laws/Exec.lean ====
section
/-! SUPPORT. What an execute and a cycle step can do, said once: every instruction gives a next state, leaves the engine
alone, and changes the state only by a few named writes, so that a property those writes keep is kept by every
instruction. -/

namespace Sys2Proof.Machine

/-! ### Every instruction completes and leaves the engine alone -/

theorem exec_next (i : Instr) (s : State) : ∃ t, exec i s = .next t := by
  cases i <;> exact ⟨_, rfl⟩

/-- The writes an execute is made of. A property they all keep is `Kept`. -/
structure Kept (P : State → Prop) : Prop where
  /-- A write of a cell some address resolves to; one of PCLATH has bits 7:5 zero. -/
  cell : ∀ (s : State) (c : RegAddr) (v : Byte), P s → (∃ a, storageCell s.params a = some c) →
    (c = Cell.pclath → v.extractLsb' 5 3 = 0#3) → P (s.setCell c v)
  w : ∀ (s : State) (v : Byte), P s → P (s.setW v)
  /-- PCH is written only when the PC model has it. -/
  pch : ∀ (s : State) (v : BitVec 5), P s → s.params.pcModel = .separatePch → P (s.setPch v)
  stackEntry : ∀ (s : State) (i : BitVec 3) (v : ProgAddr), P s → P (s.setStackEntry i v)
  sp : ∀ (s : State) (v : BitVec 3), P s → P (s.setSp v)
  skip : ∀ (s : State) (b : Bool), P s → P (s.setSkip b)
  sleeping : ∀ (s : State) (b : Bool), P s → P (s.setSleeping b)
  /-- Timer0's prescaler is cleared, the rest of Timer0 kept. -/
  presc : ∀ s : State, P s → P (s.setTimer0 { s.timer0 with presc := 0#8 })
  notify : ∀ (s : State) (c : RegAddr) (old new : Byte), P s → P (s.notify c old new)

/-- The special-function cells the engine writes by name are reached by some address, whatever the parameters. -/
theorem named_cells_reached (p : Params) :
    (∃ a, storageCell p a = some Cell.pcl) ∧ (∃ a, storageCell p a = some Cell.pclath) ∧
    (∃ a, storageCell p a = some Cell.status) ∧ (∃ a, storageCell p a = some Cell.intcon) ∧
    (∃ a, storageCell p a = some Cell.tmr0) :=
  ⟨⟨Cell.pcl, rfl⟩, ⟨Cell.pclath, rfl⟩, ⟨Cell.status, rfl⟩, ⟨Cell.intcon, rfl⟩, ⟨Cell.tmr0, rfl⟩⟩

section
variable {P : State → Prop} (K : Kept P)
include K

theorem Kept.writeDirect {s : State} (h : P s) {c : RegAddr} (hc : ∃ a, storageCell s.params a = some c)
    (hp : c ≠ Cell.pclath) (v : Byte) : P (s.writeDirect c v) :=
  K.notify _ _ _ _ (K.cell s c v h hc fun he => absurd he hp)

theorem Kept.setStatusBit {s : State} (h : P s) (i : Nat) (v : Bool) : P (s.setStatusBit i v) :=
  K.writeDirect h (named_cells_reached s.params).2.2.1 (by decide) _

theorem Kept.setGIE {s : State} (h : P s) (v : Bool) : P (s.setGIE v) :=
  K.writeDirect h (named_cells_reached s.params).2.2.2.1 (by decide) _

theorem Kept.setStatusTP {s : State} (h : P s) (a b : Bool) : P (s.setStatusTP a b) :=
  K.writeDirect h (named_cells_reached s.params).2.2.1 (by decide) _

theorem Kept.writeCell {s : State} (h : P s) {a c : RegAddr} (hc : storageCell s.params a = some c) (v keep : Byte) :
    P (s.writeCell c v keep) := by
  have hm : ∀ x : Byte, (x &&& 0x1F#8).extractLsb' 5 3 = 0#3 := by decide +kernel
  have h1 : P (s.setCell c (storedByte c keep (s.cell c) v)) := by
    refine K.cell s c _ h ⟨a, hc⟩ fun he => ?_
    subst he
    simpa [storedByte, Cell.pclath, Cell.status] using hm v
  refine K.notify _ _ _ _ ?_
  unfold State.couplePcl
  split
  · rename_i hm
    exact K.pch _ _ h1 hm.2
  · exact h1

theorem Kept.memWrite {s : State} (h : P s) (a : RegAddr) (v keep : Byte) : P (s.memWrite a v keep) := by
  rw [memWrite_eq]
  split
  · exact h
  · rename_i hc
    exact K.writeCell h hc v keep

theorem Kept.fileWrite {s : State} (h : P s) (f : FileField) (v keep : Byte) : P (s.fileWrite f v keep) :=
  K.memWrite h _ v keep

theorem Kept.dest {s : State} (h : P s) (d : Dest) (f : FileField) (r keep : Byte) : P (s.dest d f r keep) := by
  cases d with
  | toW => exact K.w s r h
  | toF => exact K.fileWrite h f r keep

theorem Kept.setCDCZ {s : State} (h : P s) (x : AluResult) : P (s.setCDCZ x) :=
  K.setStatusBit (K.setStatusBit (K.setStatusBit h 0 x.c) 1 x.dc) 2 _

theorem Kept.setPC {s : State} (h : P s) (v : ProgAddr) : P (s.setPC v) := by
  have hm : ∀ x : BitVec 5, (x.setWidth 8 : Byte).extractLsb' 5 3 = 0#3 := by decide
  have h1 : P (s.setCell Cell.pcl (v.extractLsb' 0 8)) :=
    K.cell s _ _ h (named_cells_reached s.params).1 fun he => absurd he (by decide)
  unfold State.setPC
  cases hpc : s.params.pcModel with
  | pclathSynth => exact K.cell _ _ _ h1 (named_cells_reached s.params).2.1 fun _ => hm _
  | separatePch => exact K.pch _ _ h1 hpc

theorem Kept.push {s : State} (h : P s) (v : ProgAddr) : P (s.push v) := K.sp _ _ (K.stackEntry s _ v h)

theorem Kept.pop {s : State} (h : P s) : P s.pop := K.sp s _ h

theorem Kept.clearWdtPrescaler {s : State} (h : P s) : P s.clearWdtPrescaler := by
  unfold State.clearWdtPrescaler
  split
  · exact K.presc s h
  · exact h

/-- A property the writes keep is kept by every instruction. -/
theorem Kept.exec (i : Instr) {s t : State} (h : P s) (he : Machine.exec i s = .next t) : P t := by
  have resultZ : ∀ d f r, P (((s.dest d f r keepFlags).setZ r).setSkip false) := fun d f r =>
    K.skip _ _ (K.setStatusBit (K.dest h d f r _) _ _)
  have resultS : ∀ d f r b, P ((s.dest d f r keepTP).setSkip b) := fun d f r b => K.skip _ _ (K.dest h d f r _)
  have resultC : ∀ d f r c, P (((s.dest d f r keepFlags).setC c).setSkip false) := fun d f r c =>
    K.skip _ _ (K.setStatusBit (K.dest h d f r _) _ _)
  have resultA : ∀ d f r x, P (((s.dest d f r keepFlags).setCDCZ x).setSkip false) := fun d f r x =>
    K.skip _ _ (K.setCDCZ (K.dest h d f r _) x)
  have literalA : ∀ r x, P (((s.setW r).setCDCZ x).setSkip false) := fun r x =>
    K.skip _ _ (K.setCDCZ (K.w s r h) x)
  have literalZ : ∀ r, P (((s.setW r).setZ r).setSkip false) := fun r =>
    K.skip _ _ (K.setStatusBit (K.w s r h) _ _)
  have store : ∀ f v k, P ((s.fileWrite f v k).setSkip false) := fun f v k => K.skip _ _ (K.fileWrite h f v k)
  cases i with
  | addwf d f => exact Host.Outcome.next.inj he ▸ resultA d f _ _
  | andwf d f => exact Host.Outcome.next.inj he ▸ resultZ d f _
  | clrf f => exact Host.Outcome.next.inj he ▸ K.skip _ _ (K.setStatusBit (K.fileWrite h f _ _) _ _)
  | clrw => exact Host.Outcome.next.inj he ▸ literalZ _
  | comf d f => exact Host.Outcome.next.inj he ▸ resultZ d f _
  | decf d f => exact Host.Outcome.next.inj he ▸ resultZ d f _
  | decfsz d f => exact Host.Outcome.next.inj he ▸ resultS d f _ _
  | incf d f => exact Host.Outcome.next.inj he ▸ resultZ d f _
  | incfsz d f => exact Host.Outcome.next.inj he ▸ resultS d f _ _
  | iorwf d f => exact Host.Outcome.next.inj he ▸ resultZ d f _
  | movf d f => exact Host.Outcome.next.inj he ▸ resultZ d f _
  | movwf f => exact Host.Outcome.next.inj he ▸ store f _ _
  | rlf d f => exact Host.Outcome.next.inj he ▸ resultC d f _ _
  | rrf d f => exact Host.Outcome.next.inj he ▸ resultC d f _ _
  | subwf d f => exact Host.Outcome.next.inj he ▸ resultA d f _ _
  | swapf d f => exact Host.Outcome.next.inj he ▸ resultS d f _ _
  | xorwf d f => exact Host.Outcome.next.inj he ▸ resultZ d f _
  | movlw k => exact Host.Outcome.next.inj he ▸ K.skip _ _ (K.w s k h)
  | addlw k => exact Host.Outcome.next.inj he ▸ literalA _ _
  | sublw k => exact Host.Outcome.next.inj he ▸ literalA _ _
  | andlw k => exact Host.Outcome.next.inj he ▸ literalZ _
  | iorlw k => exact Host.Outcome.next.inj he ▸ literalZ _
  | xorlw k => exact Host.Outcome.next.inj he ▸ literalZ _
  | retlw k => exact Host.Outcome.next.inj he ▸ K.skip _ _ (K.setPC (K.pop (K.w s k h)) _)
  | bcf b f => exact Host.Outcome.next.inj he ▸ store f _ _
  | bsf b f => exact Host.Outcome.next.inj he ▸ store f _ _
  | btfsc b f => exact Host.Outcome.next.inj he ▸ K.skip s _ h
  | btfss b f => exact Host.Outcome.next.inj he ▸ K.skip s _ h
  | call k => exact Host.Outcome.next.inj he ▸ K.skip _ _ (K.setPC (K.push h _) _)
  | goto k => exact Host.Outcome.next.inj he ▸ K.skip _ _ (K.setPC h _)
  | ret => exact Host.Outcome.next.inj he ▸ K.skip _ _ (K.setPC (K.pop h) _)
  | retfie => exact Host.Outcome.next.inj he ▸ K.skip _ _ (K.setGIE (K.setPC (K.pop h) _) _)
  | sleep =>
    have h1 := K.clearWdtPrescaler (K.setStatusTP h true false)
    refine Host.Outcome.next.inj he ▸ K.skip _ _ ?_
    split
    · exact h1
    · exact K.sleeping _ _ h1
  | clrwdt => exact Host.Outcome.next.inj he ▸ K.skip _ _ (K.clearWdtPrescaler (K.setStatusTP h true true))
  | nop => exact Host.Outcome.next.inj he ▸ K.skip s _ h

end

/-- The engine's state is as before: none of the writes of an execute touches it. -/
theorem engineSame_kept (s : State) : Kept (EngineSame s) where
  cell _ _ _ h _ _ := h.trans (setCell_onlyRegs _ _ _).engine
  w _ v h := h.trans (setW_engineSame _ v)
  pch _ _ h _ := h.trans (setPch_onlyRegs _ _).engine
  stackEntry _ _ _ h := h.trans (by constructor <;> rfl)
  sp _ _ h := h.trans (by constructor <;> rfl)
  skip _ b h := h.setSkip b
  sleeping _ b h := h.trans (setSleeping_engineSame _ b)
  presc _ h := h.trans (by constructor <;> rfl)
  notify _ _ _ _ h := h.trans (notify_onlyRegs _ _ _ _).engine

theorem exec_engineSame {i : Instr} {s t : State} (h : exec i s = .next t) : EngineSame s t :=
  (engineSame_kept s).exec i EngineSame.rfl h

/-- An execute only appends to the notification queue. -/
theorem queue_kept (q : List Record) : Kept (fun s => q <+: s.notifyQueue) where
  cell _ _ _ h _ _ := h
  w _ _ h := h
  pch _ _ h _ := h
  stackEntry _ _ _ h := h
  sp _ _ h := h
  skip _ _ h := h
  sleeping _ _ h := h
  presc _ h := h
  notify _ _ _ _ h := h.trans (List.prefix_append _ _)

theorem exec_queue {i : Instr} {s t : State} (h : exec i s = .next t) : s.notifyQueue <+: t.notifyQueue :=
  (queue_kept s.notifyQueue).exec i (List.prefix_refl _) h

/-! ### The cycle step, by what holds it back -/

theorem cycleStep_faulted {s : State} (h : s.fault ≠ none) : s.cycleStep = .next s := by
  have : s.fault.isSome = true := Option.isSome_iff_ne_none.mpr h
  simp [State.cycleStep, this]

theorem cycleStep_ready {s : State} (hf : s.fault = none) (hp : ¬(s.paused = true ∧ s.stepBudget = 0))
    (hs : s.sleeping = false) (hc : s.pendingCycles = 0) :
    s.cycleStep = if s.interruptDue then .next s.interruptCycle else s.fetchExecute := by
  have hg : s.gatedByPause = false := by simpa [State.gatedByPause] using hp
  simp [State.cycleStep, hf, hg, hs, hc]

theorem cycleStep_stalled {s : State} (hf : s.fault = none) (hp : ¬(s.paused = true ∧ s.stepBudget = 0))
    (hs : s.sleeping = false) (hc : 0 < s.pendingCycles) : s.cycleStep = .next s.stallCycle := by
  have hg : s.gatedByPause = false := by simpa [State.gatedByPause] using hp
  simp [State.cycleStep, hf, hg, hs, hc]

theorem cycleStep_asleep {s : State} (hf : s.fault = none) (hp : ¬(s.paused = true ∧ s.stepBudget = 0))
    (hs : s.sleeping = true) : s.cycleStep = .next s.sleepCycle := by
  have hg : s.gatedByPause = false := by simpa [State.gatedByPause] using hp
  simp [State.cycleStep, hf, hg, hs]

theorem fetchExecute_ok {s t : State} {i : Instr} (hd : decode s.fetchWord = .ok i)
    (he : exec i (s.fetchAdvance i) = .next t) :
    s.fetchExecute = .next (t.useBudget.trace .exec (some s.fetchWord) s.fetchAddr) := by
  simp [State.fetchExecute, hd, he, andThen]

theorem fetchExecute_rejected {s : State} {e : DecodeError} (hd : decode s.fetchWord = .rejected e) :
    s.fetchExecute = .next (s.raiseDecodeFault s.fetchWord s.fetchAddr) := by
  simp [State.fetchExecute, hd]

/-- A cycle step never stops the machine: it gives a next state. -/
theorem cycleStep_next (s : State) : ∃ t, s.cycleStep = .next t := by
  unfold State.cycleStep
  split
  · exact ⟨_, rfl⟩
  split
  · exact ⟨_, rfl⟩
  split
  · exact ⟨_, rfl⟩
  split
  · exact ⟨_, rfl⟩
  split
  · exact ⟨_, rfl⟩
  · cases hd : decode s.fetchWord with
    | rejected e => exact ⟨_, fetchExecute_rejected hd⟩
    | ok i =>
      obtain ⟨t, ht⟩ := exec_next i (s.fetchAdvance i)
      exact ⟨_, fetchExecute_ok hd ht⟩

theorem fetchAdvance_getPC (s : State) (i : Instr) : (s.fetchAdvance i).getPC = s.nextAddr s.fetchAddr :=
  setPC_getPC (s.setSkip false) _

end Sys2Proof.Machine
end

