-- ==== Sys2Proof/Laws/HostPort.lean ====
section
/-! SUPPORT. The register file a reset leaves, cell by cell, and that it is in canonical form; what an image load sets. -/

namespace Sys2Proof.Machine

/-- The general-purpose cells (spec 10_state.md R52). -/
theorem mem_gprCells (p : Params) (c : RegAddr) :
    c ∈ gprCells p ↔ 0x20 ≤ (offsetOf c).toNat ∧ resolve p c = some c := by
  simp only [gprCells, List.mem_filter, List.mem_map, List.mem_range, Bool.and_eq_true, decide_eq_true_eq, beq_iff_eq]
  constructor
  · rintro ⟨_, h⟩
    exact h
  · intro h
    exact ⟨⟨c.toNat, c.isLt, by simp⟩, h⟩

/-- The reads of a memory written at every cell of a list. -/
theorem Store.read_foldl_write (d : Nat → Byte) (g : RegAddr → Byte) (l : List RegAddr) (m : List Host.Cell)
    (x : RegAddr) : Store.read d (l.foldl (fun m c => Store.write d m c.toNat (g c)) m) x.toNat =
      if x ∈ l then g x else Store.read d m x.toNat := by
  induction l generalizing m with
  | nil => simp
  | cons c l ih =>
    rw [List.foldl_cons, ih, Store.read_write]
    by_cases h1 : x ∈ l
    · simp [h1]
    · by_cases h2 : c = x
      · subst h2
        simp [h1]
      · have : ¬ c.toNat = x.toNat := fun h => h2 (BitVec.toNat_inj.mp h)
        simp [h1, this, Ne.symm h2]

/-- The register file after a reset, with general-purpose cells at zero (spec 70_reset_and_hazards.md R331). -/
theorem resetRegs_read_zero {p : Params} (h : p.gprReset = .zero) (n : Nat) (c : RegAddr) :
    Store.read resetByte (resetRegs p n) c.toNat = resetByte c.toNat := by
  simp [resetRegs, h]

/-- The register file after a reset that draws its general-purpose cells. -/
theorem resetRegs_read_unknown {p : Params} (h : p.gprReset = .unknown) (n : Nat) (c : RegAddr) :
    Store.read resetByte (resetRegs p n) c.toNat =
      if c ∈ gprCells p then Config.gprDraw n c.toNat else resetByte c.toNat := by
  simp only [resetRegs, h]
  exact Store.read_foldl_write resetByte (fun c => Config.gprDraw n c.toNat) (gprCells p) [] c

/-- A reset leaves every cell outside the general-purpose ones at its reset contents. -/
theorem resetRegs_read_other (p : Params) (n : Nat) {c : RegAddr} (hc : c ∉ gprCells p) :
    Store.read resetByte (resetRegs p n) c.toNat = resetByte c.toNat := by
  cases h : p.gprReset
  · exact resetRegs_read_zero h n c
  · rw [resetRegs_read_unknown h, if_neg hc]

theorem resetRegs_wf (p : Params) (n : Nat) : Store.wf resetByte (resetRegs p n) = true := by
  unfold resetRegs
  cases p.gprReset
  · rfl
  · have : ∀ (l : List RegAddr) (m : List Host.Cell), Store.wf resetByte m = true →
        Store.wf resetByte (l.foldl (fun m c => Store.write resetByte m c.toNat (Config.gprDraw n c.toNat)) m) = true := by
      intro l
      induction l with
      | nil => intro m h; exact h
      | cons c l ih => intro m h; exact ih _ (Store.wf_write _ h _ _)
    exact this _ _ rfl

theorem resetRegs_range (p : Params) (n : Nat) : ∀ e ∈ resetRegs p n, e.1 < 0x200 := by
  unfold resetRegs
  cases p.gprReset
  · simp
  · have : ∀ (l : List RegAddr) (m : List Host.Cell), (∀ e ∈ m, e.1 < 0x200) →
        ∀ e ∈ l.foldl (fun m c => Store.write resetByte m c.toNat (Config.gprDraw n c.toNat)) m, e.1 < 0x200 := by
      intro l
      induction l with
      | nil => intro m h; exact h
      | cons c l ih =>
        intro m h
        refine ih _ fun e he => ?_
        rcases Store.mem_write _ he with h1 | h1
        · rw [h1]
          exact c.isLt
        · exact h e h1
    exact this _ _ (by simp)

/-- The power-on state at the default parameters, no CONFIG word, is `State.reset` (spec 10_state.md R53). -/
theorem powerOn_default : State.powerOn Params.default 0x0000#16 = State.reset := rfl

/-! ### Image loads (spec 60_exceptions.md R323) -/

theorem loadImage_cons (s : State) (e : Nat × Nat) (image : List (Nat × Nat)) :
    s.loadImage (e :: image) = (s.loadWord e.1 e.2).loadImage image := rfl

/-- A load changes flash only. -/
theorem loadImage_eq (s : State) (image : List (Nat × Nat)) :
    s.loadImage image = { s with flash := (s.loadImage image).flash } := by
  induction image generalizing s with
  | nil => rfl
  | cons e image ih =>
    rw [loadImage_cons, ih, loadWord_eq]

/-- A load leaves a word it does not name, and none lies outside flash (log entry 19). -/
theorem loadImage_flashRead_other {s : State} {image : List (Nat × Nat)} {a : Nat}
    (h : a ∉ image.map Prod.fst ∨ s.params.flashSize ≤ a) : (s.loadImage image).flashRead a = s.flashRead a := by
  induction image generalizing s with
  | nil => rfl
  | cons e image ih =>
    rw [loadImage_cons, ih, loadWord_flashRead, if_neg]
    · rintro ⟨rfl, hl⟩
      rcases h with h | h
      · simp at h
      · exact Nat.not_lt.mpr h hl
    · rw [loadWord_params]
      exact h.imp_left fun h => by simp at h ⊢; exact h.2

/-- A load sets the words it names. -/
theorem loadImage_flashRead_named {s : State} {image : List (Nat × Nat)} (hn : (image.map Prod.fst).Nodup) {a w : Nat}
    (h : (a, w) ∈ image) (ha : a < s.params.flashSize) :
    (s.loadImage image).flashRead a = BitVec.ofNat 14 (w % 0x4000) := by
  induction image generalizing s with
  | nil => cases h
  | cons e image ih =>
    rw [List.map_cons, List.nodup_cons] at hn
    rw [loadImage_cons]
    rcases List.mem_cons.mp h with rfl | h
    · rw [loadImage_flashRead_other (.inl hn.1), loadWord_flashRead, if_pos ⟨rfl, ha⟩]
    · exact ih hn.2 h (by rw [loadWord_params]; exact ha)

end Sys2Proof.Machine
end

