-- ==== Sys2Proof/Laws/PerInstr.lean ====
section
/-! SUPPORT. The family of statements made for every constructor of `Instr`: the decoder reads back what the encoder
writes (spec 30_encoding.md R107, R118). One lemma per constructor; the host's case split joins them. -/

namespace Sys2Proof.Laws.Roundtrip

/-- Decoding an encoded instruction gives it back. -/
def Statement (i : Instr) : Prop := decode (encode i) = .ok i

theorem addwf (d : Dest) (f : FileField) : Statement (.addwf d f) := by
  cases d <;> refine (decode_append (by decide) (by decide : _ = some Opcode.addwf) f).trans ?_ <;>
    simp only [Opcode.build, fieldF_append, fieldD_append] <;> rfl

theorem andwf (d : Dest) (f : FileField) : Statement (.andwf d f) := by
  cases d <;> refine (decode_append (by decide) (by decide : _ = some Opcode.andwf) f).trans ?_ <;>
    simp only [Opcode.build, fieldF_append, fieldD_append] <;> rfl

theorem clrf (f : FileField) : Statement (.clrf f) := by
  refine (decode_append (by decide) (by decide : _ = some Opcode.clrf) f).trans ?_
  simp only [Opcode.build, fieldF_append]

theorem clrw : Statement .clrw := by
  unfold Statement
  decide

theorem comf (d : Dest) (f : FileField) : Statement (.comf d f) := by
  cases d <;> refine (decode_append (by decide) (by decide : _ = some Opcode.comf) f).trans ?_ <;>
    simp only [Opcode.build, fieldF_append, fieldD_append] <;> rfl

theorem decf (d : Dest) (f : FileField) : Statement (.decf d f) := by
  cases d <;> refine (decode_append (by decide) (by decide : _ = some Opcode.decf) f).trans ?_ <;>
    simp only [Opcode.build, fieldF_append, fieldD_append] <;> rfl

theorem decfsz (d : Dest) (f : FileField) : Statement (.decfsz d f) := by
  cases d <;> refine (decode_append (by decide) (by decide : _ = some Opcode.decfsz) f).trans ?_ <;>
    simp only [Opcode.build, fieldF_append, fieldD_append] <;> rfl

theorem incf (d : Dest) (f : FileField) : Statement (.incf d f) := by
  cases d <;> refine (decode_append (by decide) (by decide : _ = some Opcode.incf) f).trans ?_ <;>
    simp only [Opcode.build, fieldF_append, fieldD_append] <;> rfl

theorem incfsz (d : Dest) (f : FileField) : Statement (.incfsz d f) := by
  cases d <;> refine (decode_append (by decide) (by decide : _ = some Opcode.incfsz) f).trans ?_ <;>
    simp only [Opcode.build, fieldF_append, fieldD_append] <;> rfl

theorem iorwf (d : Dest) (f : FileField) : Statement (.iorwf d f) := by
  cases d <;> refine (decode_append (by decide) (by decide : _ = some Opcode.iorwf) f).trans ?_ <;>
    simp only [Opcode.build, fieldF_append, fieldD_append] <;> rfl

theorem movf (d : Dest) (f : FileField) : Statement (.movf d f) := by
  cases d <;> refine (decode_append (by decide) (by decide : _ = some Opcode.movf) f).trans ?_ <;>
    simp only [Opcode.build, fieldF_append, fieldD_append] <;> rfl

theorem movwf (f : FileField) : Statement (.movwf f) := by
  refine (decode_append (by decide) (by decide : _ = some Opcode.movwf) f).trans ?_
  simp only [Opcode.build, fieldF_append]

theorem rlf (d : Dest) (f : FileField) : Statement (.rlf d f) := by
  cases d <;> refine (decode_append (by decide) (by decide : _ = some Opcode.rlf) f).trans ?_ <;>
    simp only [Opcode.build, fieldF_append, fieldD_append] <;> rfl

theorem rrf (d : Dest) (f : FileField) : Statement (.rrf d f) := by
  cases d <;> refine (decode_append (by decide) (by decide : _ = some Opcode.rrf) f).trans ?_ <;>
    simp only [Opcode.build, fieldF_append, fieldD_append] <;> rfl

theorem subwf (d : Dest) (f : FileField) : Statement (.subwf d f) := by
  cases d <;> refine (decode_append (by decide) (by decide : _ = some Opcode.subwf) f).trans ?_ <;>
    simp only [Opcode.build, fieldF_append, fieldD_append] <;> rfl

theorem swapf (d : Dest) (f : FileField) : Statement (.swapf d f) := by
  cases d <;> refine (decode_append (by decide) (by decide : _ = some Opcode.swapf) f).trans ?_ <;>
    simp only [Opcode.build, fieldF_append, fieldD_append] <;> rfl

theorem xorwf (d : Dest) (f : FileField) : Statement (.xorwf d f) := by
  cases d <;> refine (decode_append (by decide) (by decide : _ = some Opcode.xorwf) f).trans ?_ <;>
    simp only [Opcode.build, fieldF_append, fieldD_append] <;> rfl

theorem movlw (k : Byte) : Statement (.movlw k) := decode_literal (o := .movlw) (by decide) (fun w => rfl) k

theorem addlw (k : Byte) : Statement (.addlw k) := decode_literal (o := .addlw) (by decide) (fun w => rfl) k

theorem sublw (k : Byte) : Statement (.sublw k) := decode_literal (o := .sublw) (by decide) (fun w => rfl) k

theorem andlw (k : Byte) : Statement (.andlw k) := decode_literal (o := .andlw) (by decide) (fun w => rfl) k

theorem iorlw (k : Byte) : Statement (.iorlw k) := decode_literal (o := .iorlw) (by decide) (fun w => rfl) k

theorem xorlw (k : Byte) : Statement (.xorlw k) := decode_literal (o := .xorlw) (by decide) (fun w => rfl) k

theorem retlw (k : Byte) : Statement (.retlw k) := decode_literal (o := .retlw) (by decide) (fun w => rfl) k

theorem bcf (b : BitNumber) (f : FileField) : Statement (.bcf b f) := by
  have hb : ∀ b : BitNumber, lookup ((0b0100#4 ++ b : BitVec 7) ++ 0#7) = some Opcode.bcf ∧
      (0b0100#4 ++ b : BitVec 7) ≠ 0#7 ∧ (0b0100#4 ++ b : BitVec 7).extractLsb' 0 3 = b := by decide
  refine (decode_append (hb b).2.1 (hb b).1 f).trans ?_
  simp only [Opcode.build, fieldF_append, fieldB_append, (hb b).2.2]

theorem bsf (b : BitNumber) (f : FileField) : Statement (.bsf b f) := by
  have hb : ∀ b : BitNumber, lookup ((0b0101#4 ++ b : BitVec 7) ++ 0#7) = some Opcode.bsf ∧
      (0b0101#4 ++ b : BitVec 7) ≠ 0#7 ∧ (0b0101#4 ++ b : BitVec 7).extractLsb' 0 3 = b := by decide
  refine (decode_append (hb b).2.1 (hb b).1 f).trans ?_
  simp only [Opcode.build, fieldF_append, fieldB_append, (hb b).2.2]

theorem btfsc (b : BitNumber) (f : FileField) : Statement (.btfsc b f) := by
  have hb : ∀ b : BitNumber, lookup ((0b0110#4 ++ b : BitVec 7) ++ 0#7) = some Opcode.btfsc ∧
      (0b0110#4 ++ b : BitVec 7) ≠ 0#7 ∧ (0b0110#4 ++ b : BitVec 7).extractLsb' 0 3 = b := by decide
  refine (decode_append (hb b).2.1 (hb b).1 f).trans ?_
  simp only [Opcode.build, fieldF_append, fieldB_append, (hb b).2.2]

theorem btfss (b : BitNumber) (f : FileField) : Statement (.btfss b f) := by
  have hb : ∀ b : BitNumber, lookup ((0b0111#4 ++ b : BitVec 7) ++ 0#7) = some Opcode.btfss ∧
      (0b0111#4 ++ b : BitVec 7) ≠ 0#7 ∧ (0b0111#4 ++ b : BitVec 7).extractLsb' 0 3 = b := by decide
  refine (decode_append (hb b).2.1 (hb b).1 f).trans ?_
  simp only [Opcode.build, fieldF_append, fieldB_append, (hb b).2.2]

theorem call (k : BitVec 11) : Statement (.call k) := decode_address (o := .call) (by decide) (fun w => rfl) k

theorem goto (k : BitVec 11) : Statement (.goto k) := decode_address (o := .goto) (by decide) (fun w => rfl) k

theorem ret : Statement .ret := by
  unfold Statement
  decide

theorem retfie : Statement .retfie := by
  unfold Statement
  decide

theorem sleep : Statement .sleep := by
  unfold Statement
  decide

theorem clrwdt : Statement .clrwdt := by
  unfold Statement
  decide

theorem nop : Statement .nop := by
  unfold Statement
  decide

end Sys2Proof.Laws.Roundtrip
end

