-- ==== Sys2Proof/Laws/Timer0.lean ====
section
/-! SUPPORT. What Timer0 does with each record: every delivery keeps all state but TMR0, INTCON's T0IF, Timer0's own state
and the outputs, and the CLKOUT records with no synchronized pulse pending, by level. -/

namespace Sys2Proof.Machine

/-- `t` differs from `s` at most in the register file, Timer0's state and the outputs. -/
structure OnlyTimer (s t : State) : Prop where
  params : t.params = s.params
  configWord : t.configWord = s.configWord
  flash : t.flash = s.flash
  w : t.w = s.w
  pch : t.pch = s.pch
  stack : t.stack = s.stack
  sp : t.sp = s.sp
  pendingCycles : t.pendingCycles = s.pendingCycles
  skip : t.skip = s.skip
  paused : t.paused = s.paused
  stepBudget : t.stepBudget = s.stepBudget
  fault : t.fault = s.fault
  sleeping : t.sleeping = s.sleeping
  wakeOne : t.wakeOne = s.wakeOne
  clock : t.clock = s.clock
  notifyQueue : t.notifyQueue = s.notifyQueue
  controlQueue : t.controlQueue = s.controlQueue
  hostInputs : t.hostInputs = s.hostInputs
  drawCount : t.drawCount = s.drawCount
  started : t.started = s.started
  /-- Timer0 writes no cell but TMR0 and INTCON (spec 60_exceptions.md R295). -/
  cells : ∀ c : RegAddr, c ≠ Cell.tmr0 → c ≠ Cell.intcon → t.cell c = s.cell c
  /-- Of INTCON it only sets T0IF, bit 2 (R296). -/
  intcon : ∀ i, i ≠ 2 → t.intconBit i = s.intconBit i
  wf : Store.wf resetByte s.regs = true → Store.wf resetByte t.regs = true
  range : (∀ e ∈ s.regs, e.1 < 0x200) → ∀ e ∈ t.regs, e.1 < 0x200

theorem OnlyTimer.rfl {s : State} : OnlyTimer s s := by
  constructor <;> first | exact Eq.refl _ | exact fun h => h | exact fun _ _ => Eq.refl _ | exact fun _ _ _ => Eq.refl _

theorem OnlyTimer.trans {s t u : State} (h : OnlyTimer s t) (k : OnlyTimer t u) : OnlyTimer s u where
  params := k.params.trans h.params
  configWord := k.configWord.trans h.configWord
  flash := k.flash.trans h.flash
  w := k.w.trans h.w
  pch := k.pch.trans h.pch
  stack := k.stack.trans h.stack
  sp := k.sp.trans h.sp
  pendingCycles := k.pendingCycles.trans h.pendingCycles
  skip := k.skip.trans h.skip
  paused := k.paused.trans h.paused
  stepBudget := k.stepBudget.trans h.stepBudget
  fault := k.fault.trans h.fault
  sleeping := k.sleeping.trans h.sleeping
  wakeOne := k.wakeOne.trans h.wakeOne
  clock := k.clock.trans h.clock
  notifyQueue := k.notifyQueue.trans h.notifyQueue
  controlQueue := k.controlQueue.trans h.controlQueue
  hostInputs := k.hostInputs.trans h.hostInputs
  drawCount := k.drawCount.trans h.drawCount
  started := k.started.trans h.started
  cells := fun c h1 h2 => (k.cells c h1 h2).trans (h.cells c h1 h2)
  intcon := fun i hi => (k.intcon i hi).trans (h.intcon i hi)
  wf := fun hw => k.wf (h.wf hw)
  range := fun hr => k.range (h.range hr)

theorem setTimer0_onlyTimer (s : State) (t : Timer0) : OnlyTimer s (s.setTimer0 t) := by
  constructor <;> first | exact Eq.refl _ | exact fun h => h | exact fun _ _ => Eq.refl _ | exact fun _ _ _ => Eq.refl _

theorem emit_onlyTimer (s : State) (o : HostOutput) : OnlyTimer s (s.emit o) := by
  constructor <;> first | exact Eq.refl _ | exact fun h => h | exact fun _ _ => Eq.refl _ | exact fun _ _ _ => Eq.refl _

theorem setTmr0_onlyTimer (s : State) (v : Byte) : OnlyTimer s (s.setCell Cell.tmr0 v) := by
  constructor <;> first
    | exact Eq.refl _
    | exact fun h => setCell_regs_wf h _ _
    | exact fun h => setCell_range h _ _
    | exact fun c h1 _ => by simp [Ne.symm h1]
    | exact fun i _ => by simp [State.intconBit, Cell.tmr0, Cell.intcon]

theorem t0Overflow_onlyTimer (s : State) : OnlyTimer s s.t0Overflow := by
  have hb : ∀ (x : Byte) (i : Nat), i ≠ 2 → (withBit x 2 true).getLsbD i = x.getLsbD i := by
    intro x i hi
    by_cases h8 : i < 8
    · have : ∀ (x : Byte) (i : Fin 8), i.val ≠ 2 → (withBit x 2 true).getLsbD i.val = x.getLsbD i.val := by decide +kernel
      exact this x ⟨i, h8⟩ hi
    · rw [BitVec.getLsbD_of_ge _ i (by omega), BitVec.getLsbD_of_ge _ i (by omega)]
  constructor <;> first
    | exact Eq.refl _
    | exact fun h => setCell_regs_wf h _ _
    | exact fun h => setCell_range h _ _
    | exact fun c _ h2 => by simp [State.t0Overflow, Ne.symm h2]
    | exact fun i hi => by simpa [State.intconBit, State.t0Overflow] using hb _ i hi

theorem t0Increment_onlyTimer (s : State) : OnlyTimer s s.t0Increment := by
  unfold State.t0Increment
  split
  · exact OnlyTimer.rfl
  · simp only []
    split
    · exact (setTmr0_onlyTimer s _).trans (t0Overflow_onlyTimer _)
    · exact (setTmr0_onlyTimer s _).trans (emit_onlyTimer _ _)

/-- The increment leaves Timer0's own state alone. -/
@[simp] theorem t0Increment_timer0 (s : State) : s.t0Increment.timer0 = s.timer0 := by
  unfold State.t0Increment
  split
  · rfl
  · simp only []
    split <;> rfl

theorem t0Pulse_onlyTimer (s : State) (src : T0Source) : OnlyTimer s (s.t0Pulse src) := by
  cases src
  · exact t0Increment_onlyTimer s
  · exact setTimer0_onlyTimer s _

theorem t0Prescale_onlyTimer (s : State) (src : T0Source) : OnlyTimer s (s.t0Prescale src) := by
  unfold State.t0Prescale
  split
  · exact t0Pulse_onlyTimer s src
  · simp only []
    split
    · exact (setTimer0_onlyTimer s _).trans (t0Pulse_onlyTimer _ src)
    · exact setTimer0_onlyTimer s _

theorem t0Prescale_inhibit (s : State) (src : T0Source) : (s.t0Prescale src).timer0.inhibit = s.timer0.inhibit := by
  have hp : ∀ u : State, (u.t0Pulse src).timer0.inhibit = u.timer0.inhibit := by
    intro u
    cases src <;> simp [State.t0Pulse]
  unfold State.t0Prescale
  split
  · exact hp s
  · simp only []
    split
    · exact hp _
    · rfl

theorem t0ApplySync_onlyTimer (s : State) : OnlyTimer s s.t0ApplySync := by
  unfold State.t0ApplySync
  split
  · exact (setTimer0_onlyTimer s _).trans (t0Increment_onlyTimer _)
  · exact OnlyTimer.rfl

theorem t0RisingEdge_onlyTimer (s : State) : OnlyTimer s s.t0RisingEdge := by
  have h1 : OnlyTimer s (if (!s.t0cs && !s.sleeping) = true then s.t0Prescale .internal else s) := by
    split
    · exact t0Prescale_onlyTimer s _
    · exact OnlyTimer.rfl
  have h2 : ∀ u : State, OnlyTimer s u →
      OnlyTimer s (if 0 < u.timer0.inhibit then u.setTimer0 { u.timer0 with inhibit := u.timer0.inhibit - 1 } else u) := by
    intro u hu
    split
    · exact hu.trans (setTimer0_onlyTimer u _)
    · exact hu
  exact h2 _ h1

/-- Whatever record is delivered, Timer0 changes only TMR0, T0IF, its own state and the outputs. -/
theorem deliver_onlyTimer (s : State) (r : Record) : OnlyTimer s (s.deliver r) := by
  cases r with
  | clkout p l =>
    have h1 := (t0ApplySync_onlyTimer s).trans
      (setTimer0_onlyTimer s.t0ApplySync { s.t0ApplySync.timer0 with clkPrev := l })
    show OnlyTimer s (s.t0Clock l)
    unfold State.t0Clock
    simp only []
    split
    · exact h1.trans (t0RisingEdge_onlyTimer _)
    · exact h1
  | notify m o n =>
    cases m with
    | tmr0 => exact setTimer0_onlyTimer s _
    | porta =>
      have h1 : ∀ (b : Bool) (u : State), OnlyTimer s u → OnlyTimer s (if b = true then u.t0Prescale .external else u) := by
        intro b u hu
        cases b
        · exact hu
        · exact hu.trans (t0Prescale_onlyTimer u _)
      exact h1 _ _ (setTimer0_onlyTimer s _)
    | option => exact OnlyTimer.rfl
    | intcon => exact OnlyTimer.rfl
    | status => exact emit_onlyTimer s _

theorem drain_onlyTimer (s : State) (snap : List Record) : OnlyTimer s (s.drain snap) := by
  induction snap generalizing s with
  | nil => exact OnlyTimer.rfl
  | cons r l ih => exact (deliver_onlyTimer s r).trans (ih _)

theorem drain_append (s : State) (a b : List Record) : s.drain (a ++ b) = (s.drain a).drain b := List.foldl_append

/-! ### CLKOUT records with no synchronized pulse pending -/

theorem deliver_clkout_flat {s : State} (hs : s.timer0.sync = false) (p : Phase) {l : Bool}
    (h : s.timer0.clkPrev = true ∨ l = false) :
    s.deliver (.clkout p l) = s.setTimer0 { s.timer0 with clkPrev := l } := by
  have ha : s.t0ApplySync = s := by simp [State.t0ApplySync, hs]
  show s.t0Clock l = _
  unfold State.t0Clock
  rw [ha]
  rcases h with h | h <;> simp [h]

theorem deliver_clkout_rising {s : State} (hs : s.timer0.sync = false) (p : Phase) (h : s.timer0.clkPrev = false) :
    s.deliver (.clkout p true) = (s.setTimer0 { s.timer0 with clkPrev := true }).t0RisingEdge := by
  have ha : s.t0ApplySync = s := by simp [State.t0ApplySync, hs]
  show s.t0Clock true = _
  unfold State.t0Clock
  rw [ha]
  simp [h]

/-- A rising edge of the internal source with no write inhibit is one prescaled edge. -/
theorem t0RisingEdge_internal {s : State} (hc : s.t0cs = false) (hs : s.sleeping = false)
    (hi : s.timer0.inhibit = 0) : s.t0RisingEdge = s.t0Prescale .internal := by
  have := t0Prescale_inhibit s .internal
  simp [State.t0RisingEdge, hc, hs, this, hi]

end Sys2Proof.Machine
end

