-- ==== Sys2Proof/Laws/Step.lean ====
section
/-! SUPPORT. What a tick can do, said once: its micro-steps in order (spec 60_exceptions.md R310), each by its cases, so that
a proof about a step is a case analysis and not an unfolding. -/

namespace Sys2Proof.Machine

/-- A step that answers next ran its first three micro-steps and then the clock. -/
theorem step_cases {s t : State} (h : step s = .next t) : ∃ u, s.beforeClock = .next u ∧ u.clockToggle = .next t := by
  unfold step State.tick at h
  cases hu : s.beforeClock with
  | next u =>
    rw [hu] at h
    exact ⟨u, rfl, h⟩
  | fault r => exact nomatch r
  | refused r =>
    rw [hu] at h
    cases h

theorem step_of_beforeClock {s u : State} (h : s.beforeClock = .next u) : step s = u.clockToggle := by
  unfold step State.tick
  rw [h]
  rfl

/-- The first three micro-steps: the environment's writes, the drain, the control events. -/
theorem beforeClock_cases {s u : State} (h : s.beforeClock = .next u) :
    ∃ v : State, s.openTick.applyEnvWrites s.nextInput.envWrites = .next v ∧
      u = State.drainControl
        (({ v with controlQueue := v.controlQueue ++ s.nextInput.controlEvents } : State).drain s.notifyQueue) := by
  unfold State.beforeClock State.applyInput at h
  cases hv : s.openTick.applyEnvWrites s.nextInput.envWrites with
  | next v =>
    rw [hv] at h
    cases h
    exact ⟨v, rfl, rfl⟩
  | fault r => exact nomatch r
  | refused r =>
    rw [hv] at h
    cases h

/-- A property every allowed environment write keeps is kept by all of them. -/
theorem applyEnvWrites_kept {P : State → Prop}
    (hP : ∀ (s : State) (c : RegAddr) (v : Byte), P s → s.envWriteAllowed c v = true → P (s.writeDirect c v)) :
    ∀ (ws : List (RegAddr × Byte)) (s t : State), P s → s.applyEnvWrites ws = .next t → P t := by
  intro ws
  induction ws with
  | nil =>
    intro s t h he
    cases he
    exact h
  | cons e ws ih =>
    intro s t h he
    simp only [State.applyEnvWrites, State.applyEnvWrite] at he
    split at he
    · rename_i hal
      exact ih _ _ (hP s e.1 e.2 h hal) he
    · cases he

/-- The records of environment writes depend on the register file alone. -/
theorem envRecords_congr {s t : State} (h : t.regs = s.regs) (ws : List (RegAddr × Byte)) :
    envRecords t ws = envRecords s ws := by
  induction ws generalizing s t with
  | nil => rfl
  | cons e ws ih =>
    have hc : t.cell e.1 = s.cell e.1 := by simp only [State.cell, h]
    have hr : (t.writeDirect e.1 e.2).regs = (s.writeDirect e.1 e.2).regs := by
      simp only [State.writeDirect, State.setCell, State.notify, h]
    simp only [envRecords, hc, ih hr]

/-- The environment micro-step's writes change the register file and append their records, and nothing else. -/
theorem applyEnvWrites_onlyRegs (ws : List (RegAddr × Byte)) {s t : State} (h : s.applyEnvWrites ws = .next t) :
    OnlyRegs s t :=
  applyEnvWrites_kept (P := OnlyRegs s) (fun _ c v hs _ => hs.trans (writeDirect_onlyRegs _ c v)) ws s t OnlyRegs.rfl h

theorem applyEnvWrites_notifyQueue (ws : List (RegAddr × Byte)) {s t : State} (h : s.applyEnvWrites ws = .next t) :
    t.notifyQueue = s.notifyQueue ++ envRecords s ws := by
  induction ws generalizing s with
  | nil =>
    cases h
    exact (List.append_nil _).symm
  | cons e ws ih =>
    simp only [State.applyEnvWrites, State.applyEnvWrite] at h
    split at h
    · rw [ih h, writeDirect_notifyQueue, List.append_assoc]
      rfl
    · cases h

/-- A property kept by a change of `paused`, by a fresh budget and by a reset is kept by run control. -/
theorem runControl_kept {P : State → Prop} (hp : ∀ (s : State) (b : Bool), P s → P { s with paused := b })
    (hb : ∀ s : State, P s → P { s with stepBudget := 2 }) (hr : ∀ s : State, P s → P s.controlReset) :
    ∀ (es : List ControlEvent) (s : State), P s → P (s.runControl es) := by
  intro es
  induction es with
  | nil => intro s h; exact h
  | cons e es ih =>
    intro s h
    cases e
    · exact ih _ (hp s false h)
    · exact ih _ (hp s true h)
    · simp only [State.runControl]
      split
      · exact ih _ (hb s h)
      · exact ih _ h
    · exact hr s h
    · exact hr s h
    · exact ih _ h

/-- Run control with no reset event changes at most `paused` and the budget. -/
theorem runControl_no_reset (es : List ControlEvent) (s : State) (h : ∀ e ∈ es, e ≠ .reset ∧ e ≠ .back) :
    ∃ p b, s.runControl es = { s with paused := p, stepBudget := b } := by
  induction es generalizing s with
  | nil => exact ⟨s.paused, s.stepBudget, rfl⟩
  | cons e es ih =>
    have he := h e (by simp)
    have hes : ∀ x ∈ es, x ≠ ControlEvent.reset ∧ x ≠ ControlEvent.back := fun x hx => h x (by simp [hx])
    cases e
    · exact ih { s with paused := false } hes
    · exact ih { s with paused := true } hes
    · simp only [State.runControl]
      split
      · exact ih { s with stepBudget := 2 } hes
      · exact ih s hes
    · exact absurd rfl he.2
    · exact absurd rfl he.1
    · exact ih s hes

/-- The clock micro-step: nothing, a toggle, a toggle with a CLKOUT record, or the start of Q1. -/
theorem clockToggle_cases {u t : State} (h : u.clockToggle = .next t) :
    (u.clock.running = false ∧ t = u) ∨
    (u.clock.running = true ∧ t = u.setClock u.clock.toggle) ∨
    (u.clock.running = true ∧ ∃ p, t = (u.setClock u.clock.toggle).queueClkout p) ∨
    (u.clock.running = true ∧ ∃ v, (u.setClock u.clock.toggle).cycleStep = .next v ∧ t = v.queueClkout .q1) := by
  unfold State.clockToggle at h
  split at h
  · rename_i hr
    simp only [] at h
    split at h
    · split at h
      · obtain ⟨v, hv⟩ := cycleStep_next (u.setClock u.clock.toggle)
        rw [hv] at h
        cases h
        exact .inr (.inr (.inr ⟨hr, v, hv, rfl⟩))
      all_goals
        cases h
        exact .inr (.inr (.inl ⟨hr, _, rfl⟩))
    · cases h
      exact .inr (.inl ⟨hr, rfl⟩)
  · rename_i hr
    cases h
    exact .inl ⟨by simpa using hr, rfl⟩

/-- The cycle step: held back, asleep, stalled, interrupted, a decode fault, or one execute. -/
theorem cycleStep_cases {s t : State} (h : s.cycleStep = .next t) :
    t = s ∨
    (s.sleeping = true ∧ t = s.sleepCycle) ∨
    (0 < s.pendingCycles ∧ t = s.stallCycle) ∨
    (s.interruptDue = true ∧ t = s.interruptCycle) ∨
    (s.fault = none ∧ (∃ e, decode s.fetchWord = .rejected e) ∧ t = s.raiseDecodeFault s.fetchWord s.fetchAddr) ∨
    (∃ i u, decode s.fetchWord = .ok i ∧ exec i (s.fetchAdvance i) = .next u ∧
      t = u.useBudget.trace .exec (some s.fetchWord) s.fetchAddr) := by
  unfold State.cycleStep at h
  split at h
  · cases h
    exact .inl rfl
  rename_i hf
  split at h
  · cases h
    exact .inl rfl
  split at h
  · rename_i hs
    cases h
    exact .inr (.inl ⟨hs, rfl⟩)
  split at h
  · rename_i hc
    cases h
    exact .inr (.inr (.inl ⟨hc, rfl⟩))
  split at h
  · rename_i hi
    cases h
    exact .inr (.inr (.inr (.inl ⟨hi, rfl⟩)))
  · cases hd : decode s.fetchWord with
    | rejected e =>
      rw [fetchExecute_rejected hd] at h
      cases h
      exact .inr (.inr (.inr (.inr (.inl ⟨by simpa using hf, ⟨e, rfl⟩, rfl⟩))))
    | ok i =>
      obtain ⟨u, hu⟩ := exec_next i (s.fetchAdvance i)
      rw [fetchExecute_ok hd hu] at h
      cases h
      exact .inr (.inr (.inr (.inr (.inr ⟨i, u, rfl, hu, rfl⟩))))

end Sys2Proof.Machine
end

