-- ==== Sys2Proof/Tests/Slice0.lean ====
section
/-! SUPPORT. Tests of the model. Expected results come from the spec's vectors (95_test_vectors.md); the number of the
vector stands in the test's name or comment. The witnesses at the end meet the hypotheses of the statements. -/

-- One thread: the kernel evaluations below would else run all at once.
set_option Elab.async false

namespace Sys2Proof.Tests

open Sys2Proof.Machine

/-! ### Helpers -/

/-- The reset state with these cells and W. -/
def st (w : Byte) (cells : List (RegAddr × Byte)) : State :=
  cells.foldl (fun s e => s.setCell e.1 e.2) (State.reset.setW w)

/-- The next state of an outcome, if it is one. -/
def nextOf (o : Host.Outcome State Fault Refusal) : Option State :=
  match o with
  | .next t => some t
  | .fault _ | .refused _ => none

theorem exists_next {o : Host.Outcome State Fault Refusal} {P : State → Prop} (h : ∃ t ∈ nextOf o, P t) :
    ∃ t, o = .next t ∧ P t := by
  obtain ⟨t, ht, hp⟩ := h
  cases o with
  | next u => cases ht; exact ⟨_, rfl, hp⟩
  | fault _ => cases ht
  | refused _ => cases ht

theorem next_of_isSome {o : Host.Outcome State Fault Refusal} (h : (nextOf o).isSome) : ∃ t, o = .next t := by
  cases o with
  | next t => exact ⟨t, rfl⟩
  | fault _ => cases h
  | refused _ => cases h

/-- One cycle step from `s` with the word `op` at its fetch address. -/
def cyc (op : Nat) (s : State) : Option State := nextOf (s.loadWord s.fetchAddr.toNat op).cycleStep

/-- `n` cycle steps. -/
def cycles : Nat → State → Option State
  | 0, s => some s
  | n + 1, s => (nextOf s.cycleStep).bind (cycles n)

/-- W and STATUS after. -/
def wStatus (t : State) : Byte × Byte := (t.w, t.cell Cell.status)

/-- A cell and STATUS after. -/
def cellStatus (c : RegAddr) (t : State) : Byte × Byte := (t.cell c, t.cell Cell.status)

/-- The trace records of a state's outputs: opcode and pc. -/
def traced (t : State) : List (Option InsnWord × ProgAddr) :=
  t.outputs.filterMap fun
    | .trace _ op pc _ _ => some (op, pc)
    | _ => none

/-! ### WellFormed: a parameter set or an image the check refuses -/

theorem test_wf_default : Params.default.wf = true := by decide
theorem test_wf_refuses_flash_size : ({ Params.default with flashSize := 1000 } : Params).wf = false := by decide
theorem test_wf_refuses_no_flash : ({ Params.default with flashSize := 0 } : Params).wf = false := by decide
theorem test_image_wf : imageWf Params.default [(0, 0x3022), (2047, 0x0000)] = true := by decide
theorem test_image_wf_refuses_address : imageWf Params.default [(0, 0x3022), (2048, 0x0000)] = false := by decide

/-! ### Decoding: words written out bit by bit from Table E1 (30_encoding.md R111) with the operands of L1.1 -/

theorem test_decode_byte : (([
    (0b00011110100101#14, .addwf .toF 0x25#7),
    (0b00010110100101#14, .andwf .toF 0x25#7),
    (0b00000110100101#14, .clrf 0x25#7),
    (0b00000100000000#14, .clrw),
    (0b00100110100101#14, .comf .toF 0x25#7),
    (0b00001110100101#14, .decf .toF 0x25#7),
    (0b00101110100101#14, .decfsz .toF 0x25#7),
    (0b00101010100101#14, .incf .toF 0x25#7),
    (0b00111110100101#14, .incfsz .toF 0x25#7),
    (0b00010010100101#14, .iorwf .toF 0x25#7),
    (0b00100010100101#14, .movf .toF 0x25#7),
    (0b00000010100101#14, .movwf 0x25#7),
    (0b00110110100101#14, .rlf .toF 0x25#7),
    (0b00110010100101#14, .rrf .toF 0x25#7),
    (0b00001010100101#14, .subwf .toF 0x25#7),
    (0b00111010100101#14, .swapf .toF 0x25#7),
    (0b00011010100101#14, .xorwf .toF 0x25#7),
    (0b00011100100000#14, .addwf .toW 0x20#7),
    (0b00000101111111#14, .clrw)] : List (InsnWord × Instr)).all fun p =>
    decide (decode p.1 = .ok p.2)) = true := by decide +kernel

theorem test_decode_literal : (([
    (0b11000001011010#14, .movlw 0x5A#8),
    (0b11111001011010#14, .addlw 0x5A#8),
    (0b11110001011010#14, .sublw 0x5A#8),
    (0b11100101011010#14, .andlw 0x5A#8),
    (0b11100001011010#14, .iorlw 0x5A#8),
    (0b11101001011010#14, .xorlw 0x5A#8),
    (0b11010001011010#14, .retlw 0x5A#8),
    (0b11001100100010#14, .movlw 0x22#8),
    (0b11111100000101#14, .addlw 0x05#8)] : List (InsnWord × Instr)).all fun p =>
    decide (decode p.1 = .ok p.2)) = true := by decide +kernel

theorem test_decode_bit : (([
    (0b01000110100101#14, .bcf 3#3 0x25#7),
    (0b01010110100101#14, .bsf 3#3 0x25#7),
    (0b01100110100101#14, .btfsc 3#3 0x25#7),
    (0b01110110100101#14, .btfss 3#3 0x25#7)] : List (InsnWord × Instr)).all fun p =>
    decide (decode p.1 = .ok p.2)) = true := by decide +kernel

theorem test_decode_control : (([
    (0b10000100100011#14, .call 0x123#11),
    (0b10100100100011#14, .goto 0x123#11),
    (0b00000000001000#14, .ret),
    (0b00000000001001#14, .retfie),
    (0b00000001100011#14, .sleep),
    (0b00000001100100#14, .clrwdt),
    (0b00000000000000#14, .nop)] : List (InsnWord × Instr)).all fun p =>
    decide (decode p.1 = .ok p.2)) = true := by decide +kernel

/-- The encoder's words, again from L1.1. -/
theorem test_encode :
    encode (.addwf .toF 0x25#7) = 0b00011110100101#14 ∧ encode (.addlw 0x5A#8) = 0b11111001011010#14 ∧
    encode (.bcf 3#3 0x25#7) = 0b01000110100101#14 ∧ encode (.call 0x123#11) = 0b10000100100011#14 := by decide

/-- Illegal words at the ends of the holes of R112, and X-2 to X-5. -/
theorem test_illegal_words : ([0x0001#14, 0x0007#14, 0x000A#14, 0x0020#14, 0x0040#14, 0x0060#14, 0x0062#14,
    0x0065#14, 0x007F#14, 0x3B00#14, 0x3BFF#14].all fun op =>
    decide (decode op = .rejected (.invalidOpcode op))) = true := by decide +kernel

theorem test_table_word : decodeTableWord 16 0x2923 = some (.goto 0x123#11) ∧ decodeTableWord 16 0x0001 = none := by
  decide +kernel

/-! ### One instruction each, at most twice (L1.3 to L1.5, L2.1 to L2.5) -/

theorem test_L1_3_addwf : (cyc 0x0720 (st 0xFF#8 [(0x020#9, 0x01#8)])).map wStatus = some (0x00#8, 0x1F#8) := by decide +kernel
theorem test_A3_addwf_status : (cyc 0x0783 (st 0x20#8 [])).map (cellStatus Cell.status) = some (0x38#8, 0x38#8) := by
  decide +kernel
theorem test_A4_andwf : (cyc 0x0520 (st 0x0F#8 [(0x020#9, 0x3C#8)])).map wStatus = some (0x0C#8, 0x18#8) := by decide +kernel
theorem test_A5_andwf : (cyc 0x05A0 (st 0xF0#8 [(0x020#9, 0x0F#8)])).map (cellStatus 0x020#9) = some (0x00#8, 0x1C#8) := by
  decide +kernel
theorem test_A6_clrf : (cyc 0x01A0 (st 0x00#8 [(0x020#9, 0x55#8)])).map (cellStatus 0x020#9) = some (0x00#8, 0x1C#8) := by
  decide +kernel
theorem test_A7_clrf_status : (cyc 0x0183 (st 0x00#8 [(Cell.status, 0x39#8)])).map (cellStatus Cell.status) = some (0x1D#8, 0x1D#8) := by
  decide +kernel
theorem test_A8_clrw : (cyc 0x0100 (st 0xA5#8 [])).map wStatus = some (0x00#8, 0x1C#8) := by decide +kernel
theorem test_A9_clrw_dont_care : (cyc 0x017F (st 0x12#8 [])).map wStatus = some (0x00#8, 0x1C#8) := by decide +kernel
theorem test_A10_comf : (cyc 0x0920 (st 0x00#8 [(0x020#9, 0x13#8)])).map wStatus = some (0xEC#8, 0x18#8) := by decide +kernel
theorem test_A11_comf : (cyc 0x09A0 (st 0x00#8 [(0x020#9, 0xFF#8)])).map (cellStatus 0x020#9) = some (0x00#8, 0x1C#8) := by
  decide +kernel
theorem test_A12_decf : (cyc 0x03A0 (st 0x00#8 [(0x020#9, 0x01#8), (Cell.status, 0x19#8)])).map (cellStatus 0x020#9) = some (0x00#8, 0x1D#8) := by
  decide +kernel
theorem test_A13_decf : (cyc 0x03A0 (st 0x00#8 [])).map (cellStatus 0x020#9) = some (0xFF#8, 0x18#8) := by
  decide +kernel
theorem test_A15_decfsz : (cyc 0x0B20 (st 0x77#8 [(0x020#9, 0x01#8)])).map (fun t => (t.w, t.cell 0x020#9, t.skip, t.cell Cell.status)) =
    some (0x00#8, 0x01#8, true, 0x18#8) := by decide +kernel
theorem test_A16_decfsz : (cyc 0x0BA0 (st 0x00#8 [])).map (fun t => (t.cell 0x020#9, t.skip)) =
    some (0xFF#8, false) := by decide +kernel
theorem test_A17_incf : (cyc 0x0AA0 (st 0x00#8 [(0x020#9, 0x7F#8)])).map (cellStatus 0x020#9) = some (0x80#8, 0x18#8) := by
  decide +kernel
theorem test_A18_incf : (cyc 0x0AA0 (st 0x00#8 [(0x020#9, 0xFF#8)])).map (cellStatus 0x020#9) = some (0x00#8, 0x1C#8) := by
  decide +kernel
theorem test_A19_incfsz : (cyc 0x0FA0 (st 0x00#8 [(0x020#9, 0xFE#8)])).map (fun t => (t.cell 0x020#9, t.skip)) =
    some (0xFF#8, false) := by decide +kernel
theorem test_A20_incfsz : (cyc 0x0F20 (st 0x00#8 [(0x020#9, 0xFF#8)])).map (fun t => (t.w, t.cell 0x020#9, t.skip)) =
    some (0x00#8, 0xFF#8, true) := by decide +kernel
theorem test_A21_iorwf : (cyc 0x0420 (st 0x91#8 [(0x020#9, 0x13#8)])).map wStatus = some (0x93#8, 0x18#8) := by decide +kernel
theorem test_A22_iorwf : (cyc 0x0420 (st 0x00#8 [])).map wStatus = some (0x00#8, 0x1C#8) := by decide +kernel
theorem test_A24_movf : (cyc 0x08A0 (st 0x33#8 [])).map (fun t => (t.w, t.cell 0x020#9, t.flagZ)) =
    some (0x33#8, 0x00#8, true) := by decide +kernel
theorem test_M2_movf_indirect : (cyc 0x0800 (st 0x00#8 [(Cell.status, 0x98#8), (Cell.fsr, 0x20#8), (0x120#9, 0x77#8)])).map wStatus = some (0x77#8, 0x98#8) := by decide +kernel
theorem test_A26_movwf_status : (cyc 0x0083 (st 0x07#8 [])).map (cellStatus Cell.status) = some (0x1F#8, 0x1F#8) := by
  decide +kernel
theorem test_M1_movwf_indirect : (cyc 0x0080 (st 0x3C#8 [(Cell.fsr, 0x85#8)])).map (cellStatus Cell.trisa) = some (0x3C#8, 0x18#8) := by
  decide +kernel
theorem test_A28_rlf : (cyc 0x0DA0 (st 0x00#8 [(0x020#9, 0xE6#8)])).map (cellStatus 0x020#9) = some (0xCC#8, 0x19#8) := by
  decide +kernel
theorem test_A29_rlf : (cyc 0x0D20 (st 0x00#8 [(0x020#9, 0x80#8)])).map wStatus = some (0x00#8, 0x19#8) := by decide +kernel
theorem test_A30_rrf : (cyc 0x0C20 (st 0x00#8 [(0x020#9, 0xE6#8)])).map wStatus = some (0x73#8, 0x18#8) := by decide +kernel
theorem test_A31_rrf : (cyc 0x0CA0 (st 0x00#8 [(0x020#9, 0x01#8), (Cell.status, 0x19#8)])).map (cellStatus 0x020#9) = some (0x80#8, 0x19#8) := by
  decide +kernel
theorem test_L1_4_subwf : (cyc 0x0220 (st 0x07#8 [(0x020#9, 0x05#8)])).map wStatus = some (0xFE#8, 0x18#8) := by decide +kernel
theorem test_A33_subwf : (cyc 0x0220 (st 0x01#8 [(0x020#9, 0x10#8)])).map wStatus = some (0x0F#8, 0x19#8) := by decide +kernel
theorem test_A35_swapf : (cyc 0x0E20 (st 0x00#8 [(0x020#9, 0xA5#8)])).map wStatus = some (0x5A#8, 0x18#8) := by decide +kernel
theorem test_A36_swapf_status : (cyc 0x0E03 (st 0x00#8 [(Cell.status, 0x1D#8)])).map wStatus = some (0xD1#8, 0x1D#8) := by decide +kernel
theorem test_A37_xorwf : (cyc 0x06A0 (st 0xB5#8 [(0x020#9, 0xAF#8)])).map (cellStatus 0x020#9) = some (0x1A#8, 0x18#8) := by
  decide +kernel
theorem test_A38_xorwf : (cyc 0x0620 (st 0x3C#8 [(0x020#9, 0x3C#8)])).map wStatus = some (0x00#8, 0x1C#8) := by decide +kernel

theorem test_K1_movlw : (cyc 0x3022 (st 0x00#8 [])).map wStatus = some (0x22#8, 0x18#8) := by decide +kernel
theorem test_K4_addlw : (cyc 0x3E15 (st 0x10#8 [])).map wStatus = some (0x25#8, 0x18#8) := by decide +kernel
theorem test_K5_addlw : (cyc 0x3EFF (st 0x01#8 [])).map wStatus = some (0x00#8, 0x1F#8) := by decide +kernel
theorem test_K7_sublw : (cyc 0x3C02 (st 0x01#8 [])).map wStatus = some (0x01#8, 0x1B#8) := by decide +kernel
theorem test_K8_sublw : (cyc 0x3C00 (st 0x01#8 [])).map wStatus = some (0xFF#8, 0x18#8) := by decide +kernel
theorem test_K10_andlw : (cyc 0x395F (st 0xA3#8 [])).map wStatus = some (0x03#8, 0x18#8) := by decide +kernel
theorem test_K12_iorlw : (cyc 0x3835 (st 0x9A#8 [])).map wStatus = some (0xBF#8, 0x18#8) := by decide +kernel
theorem test_K14_xorlw : (cyc 0x3AAF (st 0xB5#8 [])).map wStatus = some (0x1A#8, 0x18#8) := by decide +kernel
theorem test_K15_xorlw : (cyc 0x3A5A (st 0x5A#8 [])).map wStatus = some (0x00#8, 0x1C#8) := by decide +kernel
theorem test_K16_retlw : (cyc 0x3410 (((st 0x00#8 []).setPC 0x006#13).push 0x002#13)).map
    (fun t => (t.w, t.sp, t.getPC, t.cell Cell.pclath, t.pendingCycles)) =
    some (0x10#8, 0#3, 0x002#13, 0x00#8, 1) := by decide +kernel

theorem test_B2_bcf : (cyc 0x1283 (st 0x00#8 [(Cell.status, 0x38#8)])).map (cellStatus Cell.status) = some (0x18#8, 0x18#8) := by
  decide +kernel
theorem test_B3_bcf_TO : (cyc 0x1203 (st 0x00#8 [])).map (cellStatus Cell.status) = some (0x18#8, 0x18#8) := by
  decide +kernel
theorem test_B4_bsf_PD : (cyc 0x1583 (st 0x00#8 [(Cell.status, 0x10#8)])).map (cellStatus Cell.status) = some (0x10#8, 0x10#8) := by
  decide +kernel
theorem test_B8_bsf_indirect : (cyc 0x1400 (st 0x00#8 [(Cell.fsr, 0x20#8), (0x020#9, 0x40#8)])).map (cellStatus 0x020#9) = some (0x41#8, 0x18#8) := by
  decide +kernel
theorem test_B10_btfsc : (cyc 0x1903 (st 0x00#8 [(Cell.status, 0x1C#8)])).map (fun t => t.skip) =
    some (false) := by decide +kernel
theorem test_B13_btfsc_failed_access : (cyc 0x180F (st 0x00#8 [(Cell.status, 0x38#8)])).map (fun t => t.skip) =
    some (true) := by decide +kernel
theorem test_B11_btfss : (cyc 0x1D04 (st 0x00#8 [(Cell.fsr, 0x24#8)])).map (fun t => t.skip) =
    some (true) := by decide +kernel
theorem test_B14_btfss_failed_access : (cyc 0x1C0F (st 0x00#8 [(Cell.status, 0x38#8)])).map (fun t => t.skip) =
    some (false) := by decide +kernel

theorem test_C1_goto : (cyc 0x2923 ((st 0x00#8 []).setPC 0x010#13)).map
    (fun t => (t.getPC, t.cell Cell.pclath, t.pendingCycles, t.sp)) = some (0x123#13, 0x01#8, 1, 0#3) := by decide +kernel
/-- PCLATH = 0x08: the PC itself is 0x810, and the next fetch address is 0x005. -/
theorem test_C2_goto_page : (cyc 0x2805 ((st 0x00#8 []).setPC 0x810#13)).map (fun t => t.fetchAddr) =
    some 0x005#13 := by decide +kernel
theorem test_C4_call : (cyc 0x2050 ((st 0x00#8 []).setPC 0x010#13)).map
    (fun t => (t.stack[7], t.sp, t.getPC, t.pendingCycles)) = some (0x011#13, 7#3, 0x050#13, 1) := by decide +kernel
theorem test_C5_return : (cyc 0x0008 ((st 0x42#8 []).push 0x011#13)).map
    (fun t => (t.getPC, t.sp, t.w, t.pendingCycles)) = some (0x011#13, 0#3, 0x42#8, 1) := by decide +kernel
theorem test_C6_return_underflow : (cyc 0x0008 (st 0x00#8 [])).map (fun t => (t.getPC, t.sp)) =
    some (0x000#13, 1#3) := by decide +kernel
theorem test_C7_retfie : (cyc 0x0009 ((st 0x00#8 [(Cell.intcon, 0x20#8)]).push 0x00F#13)).map
    (fun t => (t.getPC, t.sp, t.cell Cell.intcon, t.pendingCycles)) = some (0x00F#13, 0#3, 0xA0#8, 1) := by
  decide +kernel
theorem test_C8_sleep : (cyc 0x0063 (st 0x00#8 [])).map (fun t => (t.cell Cell.status, t.sleeping)) =
    some (0x10#8, true) := by decide +kernel
theorem test_C9_sleep_awake : (cyc 0x0063 (st 0x00#8 [(Cell.intcon, 0x24#8)])).map
    (fun t => (t.cell Cell.status, t.sleeping)) = some (0x10#8, false) := by decide +kernel
theorem test_C10_clrwdt : (cyc 0x0064 ((st 0x00#8 [(Cell.status, 0x10#8)]).setTimer0
    { State.reset.timer0 with presc := 5#8 })).map (fun t => (t.cell Cell.status, t.timer0.presc)) =
    some (0x18#8, 0#8) := by decide +kernel
theorem test_C11_clrwdt : (cyc 0x0064 ((st 0x00#8 [(Cell.status, 0x10#8), (Cell.option, 0x01#8)]).setTimer0
    { State.reset.timer0 with presc := 2#8 })).map (fun t => (t.cell Cell.status, t.timer0.presc)) =
    some (0x18#8, 2#8) := by decide +kernel
theorem test_C12_nop : (cyc 0x0000 ((st 0x00#8 []).setPC 0x010#13)).map (fun t => (t.getPC, t.regs)) =
    some (0x011#13, [(0x002, 0x11#8)]) := by decide +kernel

/-- L1.2, the classification vectors: bank, offset, resolution. -/
theorem test_L1_2_resolve : (([
    (0#2, 0x03#7, some 0x003#9), (3#2, 0x0B#7, some 0x00B#9), (2#2, 0x01#7, some 0x001#9), (3#2, 0x01#7, some 0x081#9),
    (1#2, 0x06#7, some 0x086#9), (2#2, 0x06#7, some 0x006#9), (0#2, 0x05#7, some 0x005#9), (1#2, 0x05#7, some 0x085#9),
    (2#2, 0x05#7, none), (3#2, 0x05#7, none), (1#2, 0x0F#7, none), (0#2, 0x1B#7, none), (0#2, 0x07#7, none),
    (1#2, 0x70#7, some 0x070#9), (1#2, 0x20#7, some 0x0A0#9), (2#2, 0x4F#7, some 0x14F#9), (2#2, 0x50#7, none),
    (3#2, 0x20#7, none)] : List (Bank × FileField × Option RegAddr)).all fun e =>
    decide (resolve Params.default (fullAddr e.1 e.2.1) = e.2.2)) = true := by decide +kernel

/-! ### The engine (L2.6 to L2.11) -/

/-- E-4: a skipped GOTO costs one cycle and no stall. -/
theorem test_E4_skipped_goto :
    (cycles 3 (State.reset.loadImage [(0, 0x1E03), (1, 0x2810), (2, 0x0000)])).map traced =
    some [(some 0x1E03#14, 0#13), (some 0x0000#14, 1#13), (some 0x0000#14, 2#13)] := by decide +kernel

/-- E-1: a stall after a GOTO. -/
theorem test_E1_stall : (cycles 3 (State.reset.loadImage [(0, 0x2805), (5, 0x0000)])).map traced =
    some [(some 0x2805#14, 0#13), (none, 5#13), (some 0x0000#14, 5#13)] := by decide +kernel

/-- E-6: the advance wraps. -/
theorem test_E6_wrap : (cyc 0x0000 ((st 0x00#8 []).setPC 0x7FF#13)).map (fun t => t.getPC) = some 0x000#13 := by
  decide +kernel

/-- The state of I-1. -/
def stateI1 : State := (st 0x00#8 [(Cell.intcon, 0xA4#8)]).setPC 0x00F#13

theorem test_I1_interrupt : (nextOf stateI1.cycleStep).map
    (fun t => (t.stack[7], t.sp, t.cell Cell.intcon, t.getPC, t.pendingCycles)) =
    some (0x00F#13, 7#3, 0x24#8, 0x004#13, 1) := by decide +kernel

theorem test_I3_skip_first : (nextOf (stateI1.setSkip true).cycleStep).map
    (fun t => (t.getPC, t.sp, t.skip, t.interruptDue)) = some (0x010#13, 0#3, false, true) := by decide +kernel

/-- The state Z-2 resets. -/
def stateZ2 : State :=
  { (st 0x55#8 [(Cell.status, 0x3F#8), (0x020#9, 0x99#8)]).setPC 0x123#13 with sp := 5#3, paused := true, stepBudget := 0 }

theorem test_Z2_reset :
    (stateZ2.controlReset.w, stateZ2.controlReset.getPC, stateZ2.controlReset.sp, stateZ2.controlReset.regs.isEmpty,
      stateZ2.controlReset.stepBudget, stateZ2.controlReset.paused) = (0x00#8, 0x000#13, 0#3, true, 2, true) := by
  decide +kernel

/-- Z-4: an event behind a reset is discarded. -/
theorem test_Z4_reset_discards : (stateZ2.runControl [.reset, .play]).paused = true := by decide +kernel

/-- X-1: the second cycle step latches the fault and keeps W, PC and STATUS. -/
theorem test_X1_decode_fault :
    (cycles 2 (State.reset.loadImage [(0, 0x3055), (1, 0x0001), (2, 0x3066)])).map
      (fun t => (t.w, t.getPC, t.cell Cell.status, t.fault, t.clock.running)) =
    some (0x55#8, 0x001#13, 0x18#8, some ⟨0x0001#14, 0x001#13⟩, false) := by decide +kernel

/-- T0-3: the overflow. -/
theorem test_T0_3_overflow :
    ((st 0x00#8 [(Cell.tmr0, 0xFF#8)]).t0Increment.cell Cell.tmr0,
     (st 0x00#8 [(Cell.tmr0, 0xFF#8)]).t0Increment.cell Cell.intcon,
     (st 0x00#8 [(Cell.tmr0, 0xFF#8)]).t0Increment.outputs) = (0x00#8, 0x04#8, [.timerOverflow]) := by decide +kernel

/-- T0-5: the external source, one rising edge on RA4. -/
theorem test_T0_5_external :
    ((st 0x00#8 [(Cell.option, 0x28#8)]).drain [.notify .porta 0x00#8 0x10#8, .clkout .q2 false]).cell Cell.tmr0 = 1#8 := by
  decide +kernel

/-- L2.11: the first tick from reset. -/
theorem test_first_tick : (nextOf (step (State.reset.loadImage [(0, 0x3022)]))).map
    (fun t => (t.clock, t.notifyQueue, t.w)) =
    some (⟨true, .q1, true⟩, [.clkout .q1 false], 0x22#8) := by decide +kernel

/-- R325: `GOTO $` has halted; under `FLASH_SIZE = 1024`, GOTO 0x405 at 0x005 has not. -/
theorem test_halted : ((State.reset.setPC 0x005#13).loadWord 5 0x2805).halted = true ∧
    (((State.powerOn { Params.default with flashSize := 1024 } 0#16).setPC 0x005#13).loadWord 5 0x2C05).halted = false := by
  decide +kernel

/-- R133, R90: ADDWF writes C, DC, Z in this order, one record for each that changes STATUS. -/
theorem test_flag_records : (nextOf (exec (.addwf .toW 0x20#7) (st 0xFF#8 [(0x020#9, 0x01#8)]))).map (·.notifyQueue) =
    some [.notify .status 0x18#8 0x19#8, .notify .status 0x19#8 0x1B#8, .notify .status 0x1B#8 0x1F#8] := by decide +kernel

/-- R323: a load masks its words to 14 bits, ignores an address beyond flash, and leaves the words it does not name. -/
theorem test_image_load : (nextOf (hostLoadImage [(0, 0x7022), (2048, 0x0001)] (State.reset.loadWord 5 0x2805))).map
    (fun t => (t.flashRead 0, t.flashRead 5, t.flash.length)) = some (0x3022#14, 0x2805#14, 2) := by decide +kernel

/-- The placed word runs as the first instruction after reset. -/
theorem test_withFetchWord : (nextOf (step (State.reset.withFetchWord 16 0x2123))).map
    (fun t => (t.getPC, t.sp, t.pendingCycles)) = some (0x123#13, 7#3, 1) := by decide +kernel

/-! ### Witnesses: for every statement with hypotheses, values that meet them -/

theorem witness_EncodeOfDecode : decode 0x017F#14 = .ok .clrw ∧ decode 0x3322#14 = .ok (.movlw 0x22#8) ∧
    decode 0x3722#14 = .ok (.retlw 0x22#8) ∧ decode 0x3F05#14 = .ok (.addlw 0x05#8) ∧
    decode 0x3D05#14 = .ok (.sublw 0x05#8) ∧ decode 0x07A5#14 = .ok (.addwf .toF 0x25#7) := by decide +kernel

/-- A program whose first word is MOVLW 0x22. -/
def image1 : State := State.reset.loadImage [(0, 0x3022)]

/-- A program whose first word is illegal. -/
def imageX : State := State.reset.loadImage [(0, 0x0001)]

theorem witness_IllegalWords : decode imageX.fetchWord = .rejected (.invalidOpcode 0x0001#14) := by decide +kernel

theorem witness_StepRuns : ∃ u, image1.beforeClock = .next u ∧ u.clock.running = true ∧ u.clock.osc = false ∧
    u.clock.phase = .q4 ∧ u.fault = none ∧ ¬(u.paused = true ∧ u.stepBudget = 0) ∧ u.sleeping = false ∧
    u.pendingCycles = 0 ∧ u.interruptDue = false ∧ decode u.fetchWord = .ok (.movlw 0x22#8) ∧
    ∃ t, exec (.movlw 0x22#8) ((u.setClock u.clock.toggle).fetchAdvance (.movlw 0x22#8)) = .next t := by
  refine ⟨_, rfl, ?_⟩
  refine ⟨by decide +kernel, by decide +kernel, by decide +kernel, by decide +kernel, by decide +kernel,
    by decide +kernel, by decide +kernel, by decide +kernel, by decide +kernel, _, rfl⟩

theorem witness_PlacedWord : decodeTableWord 14 0x3022 = some (.movlw 0x22#8) := by decide +kernel

theorem witness_FetchAdvance : State.reset.params.wf = true ∧
    (State.powerOn { Params.default with flashSize := 1024 } 0#16).params.wf = true ∧
    (State.powerOn { Params.default with flashSize := 4096, pcModel := .separatePch } 0#16).params.wf = true := by
  decide +kernel

theorem witness_DecodeFault : imageX.fault = none ∧ ¬(imageX.paused = true ∧ imageX.stepBudget = 0) ∧
    imageX.sleeping = false ∧ imageX.pendingCycles = 0 ∧ imageX.interruptDue = false ∧
    decode imageX.fetchWord = .rejected (.invalidOpcode 0x0001#14) := by decide +kernel

/-- A latched fault. -/
def latched : State := imageX.raiseDecodeFault 0x0001#14 0x000#13

theorem witness_LatchedFault : latched.fault ≠ none ∧ latched.clock.running = false ∧
    (∀ e ∈ latched.controlQueue ++ latched.nextInput.controlEvents, e ≠ .reset ∧ e ≠ .back) ∧
    ∃ t, step latched = .next t :=
  ⟨by decide +kernel, by decide +kernel, by decide +kernel, next_of_isSome (by decide +kernel)⟩

/-- A latched fault with a reset event waiting. -/
def latchedReset : State := { latched with controlQueue := [.pause, .reset] }

theorem witness_LatchedFault_reset :
    (∃ e ∈ latchedReset.controlQueue ++ latchedReset.nextInput.controlEvents, e = .reset ∨ e = .back) ∧
    ∃ u, latchedReset.beforeClock = .next u :=
  ⟨by decide +kernel, next_of_isSome (by decide +kernel)⟩

/-- Not gated, and one stall cycle left. -/
def stalled : State := State.reset.setPending 1

theorem witness_Stall : stalled.fault = none ∧ ¬(stalled.paused = true ∧ stalled.stepBudget = 0) ∧
    stalled.sleeping = false ∧ 0 < stalled.pendingCycles := by decide +kernel

/-- A skip over an illegal word. -/
def skipping : State := imageX.setSkip true

theorem witness_Skip : skipping.fault = none ∧ ¬(skipping.paused = true ∧ skipping.stepBudget = 0) ∧
    skipping.sleeping = false ∧ skipping.pendingCycles = 0 ∧ skipping.skip = true := by decide +kernel

/-- The hypotheses of the interrupt statement. -/
def ready (s : State) : Bool :=
  s.fault.isNone && !(s.paused && s.stepBudget == 0) && !s.sleeping && s.pendingCycles == 0

/-- One state for each source under GIE. -/
def sources : List State :=
  [ stateI1, st 0x00#8 [(Cell.intcon, 0x92#8)], st 0x00#8 [(Cell.intcon, 0x89#8)],
    st 0x00#8 [(Cell.intcon, 0xC0#8), (Cell.pie1, 0x80#8), (Cell.pir1, 0x80#8)] ]

theorem witness_InterruptDue : ∀ s ∈ sources, ready s = true ∧ s.params.interruptModel = .vectored ∧ s.skip = false ∧
    s.wakeOne = false ∧ s.intconBit 7 = true ∧
    ((s.intconBit 5 = true ∧ s.intconBit 2 = true) ∨ (s.intconBit 4 = true ∧ s.intconBit 1 = true) ∨
     (s.intconBit 3 = true ∧ s.intconBit 0 = true) ∨
     (s.intconBit 6 = true ∧ s.cell Cell.pie1 &&& s.cell Cell.pir1 ≠ 0x00#8)) := by decide +kernel

/-- One state for each thing that holds an interrupt back. -/
def heldBack : List State :=
  [ State.reset, st 0x00#8 [(Cell.intcon, 0x24#8)], stateI1.setSkip true, stateI1.setWakeOne true,
    { stateI1 with params := { Params.default with interruptModel := .absent } },
    st 0x00#8 [(Cell.intcon, 0xC0#8), (Cell.pie1, 0x80#8), (Cell.pir1, 0x40#8)] ]

theorem witness_InterruptNotDue : ∀ s ∈ heldBack, ready s = true ∧
    ¬(s.params.interruptModel = .vectored ∧ s.skip = false ∧ s.wakeOne = false ∧ s.intconBit 7 = true ∧
      ((s.intconBit 5 = true ∧ s.intconBit 2 = true) ∨ (s.intconBit 4 = true ∧ s.intconBit 1 = true) ∨
       (s.intconBit 3 = true ∧ s.intconBit 0 = true) ∨
       (s.intconBit 6 = true ∧ s.cell Cell.pie1 &&& s.cell Cell.pir1 ≠ 0x00#8))) := by decide +kernel

/-- Asleep, with and without a wake condition (GIE clear). -/
def asleepWaking : State := (st 0x00#8 [(Cell.intcon, 0x12#8)]).setSleeping true
def asleepStill : State := State.reset.setSleeping true

/-- Paused with the budget used up, and with a budget of one pair. -/
def pausedOut : State := { image1 with paused := true, stepBudget := 0 }
def pausedReady : State := { image1 with paused := true }

theorem witness_Gated : latched.fault ≠ none ∧ (pausedOut.paused = true ∧ pausedOut.stepBudget = 0) ∧
    (∀ s ∈ [asleepWaking, asleepStill], s.fault = none ∧ ¬(s.paused = true ∧ s.stepBudget = 0) ∧ s.sleeping = true) ∧
    (asleepWaking.intconBit 4 = true ∧ asleepWaking.intconBit 1 = true) ∧
    ¬((asleepStill.intconBit 5 = true ∧ asleepStill.intconBit 2 = true) ∨
      (asleepStill.intconBit 4 = true ∧ asleepStill.intconBit 1 = true) ∨
      (asleepStill.intconBit 3 = true ∧ asleepStill.intconBit 0 = true) ∨
      (asleepStill.intconBit 6 = true ∧ asleepStill.cell Cell.pie1 &&& asleepStill.cell Cell.pir1 ≠ 0x00#8)) := by
  decide +kernel

theorem witness_Paused : ∀ s ∈ [pausedReady, { imageX with paused := true }], s.fault = none ∧ s.paused = true ∧
    s.stepBudget = 2 ∧ s.sleeping = false ∧ s.pendingCycles = 0 ∧ (nextOf s.cycleStep).isSome := by decide +kernel

theorem witness_ControlEvents : pausedOut.paused = true ∧ State.reset.paused = false := by decide

theorem witness_ControlReset : State.reset.params.gprReset = .zero ∧
    (State.powerOn { Params.default with gprReset := .unknown, pcModel := .separatePch } 0#16).params.gprReset = .unknown ∧
    (State.powerOn { Params.default with gprReset := .unknown, pcModel := .separatePch } 0#16).params.pcModel =
      .separatePch := ⟨rfl, rfl, rfl⟩

theorem witness_PowerOn : (State.powerOn Params.default 0x3FFF#16).params.gprReset = .zero ∧
    (State.powerOn { Params.default with gprReset := .unknown, pcModel := .separatePch } 0#16).params.gprReset = .unknown :=
  ⟨rfl, rfl⟩

/-- A state at a clock phase. -/
def atPhase (osc : Bool) (p : Phase) : State := image1.setClock ⟨osc, p, true⟩

theorem witness_ClockToggles : latched.clock.running = false ∧
    ((atPhase true .q1).clock.running = true ∧ (atPhase true .q1).clock.osc = true) ∧
    (∀ p ∈ [Phase.q1, .q2, .q3, .q4], (atPhase false p).clock.running = true ∧ (atPhase false p).clock.osc = false ∧
      (atPhase false p).clock.phase = p) ∧
    ∃ t, ((atPhase false .q4).setClock ⟨true, .q1, true⟩).cycleStep = .next t :=
  ⟨by decide +kernel, by decide, by decide, next_of_isSome (by decide +kernel)⟩

theorem witness_ClockMicroStep : ∃ t, image1.clockToggle = .next t := next_of_isSome (by decide +kernel)

/-- A tick with a CLKOUT record waiting, an environment write of RA4 and a pause event. -/
def envTick : State :=
  { image1 with notifyQueue := [.clkout .q1 false], hostInputs := [⟨[(Cell.porta, 0x10#8)], [.pause]⟩] }

theorem witness_BeforeClock : ∃ e, envTick.openTick.applyInput envTick.nextInput = .next e ∧
    (∀ x ∈ e.controlQueue, x ≠ .reset ∧ x ≠ .back) ∧ e.notifyQueue = [.notify .porta 0x00#8 0x10#8] :=
  exists_next (P := fun e => (∀ x ∈ e.controlQueue, x ≠ .reset ∧ x ≠ .back) ∧
    e.notifyQueue = [.notify .porta 0x00#8 0x10#8]) (by decide +kernel)

/-- The refusal an outcome is, if it is one. -/
def refusalOf (o : Host.Outcome State Fault Refusal) : Option Refusal :=
  match o with
  | .refused r => some r
  | .next _ | .fault _ => none

theorem refused_of {o : Host.Outcome State Fault Refusal} {r : Refusal} (h : refusalOf o = some r) : o = .refused r := by
  cases o with
  | refused q => cases h; rfl
  | next _ => cases h
  | fault _ => cases h

/-- A tick whose environment writes PORTA and then a cell it may not write. -/
def refusedTick : State :=
  { image1 with hostInputs := [⟨[(Cell.porta, 0x10#8), (Cell.tmr0, 0x01#8)], []⟩] }

theorem witness_Refused : refusedTick.beforeClock = .refused (.hostWriteForbidden Cell.tmr0 0x01#8) ∧
    refusedTick.openTick.applyInput refusedTick.nextInput = .refused (.hostWriteForbidden Cell.tmr0 0x01#8) ∧
    refusedTick.applyEnvWrites refusedTick.nextInput.envWrites = .refused (.hostWriteForbidden Cell.tmr0 0x01#8) ∧
    refusedTick.applyEnvWrite Cell.tmr0 0x01#8 = .refused (.hostWriteForbidden Cell.tmr0 0x01#8) :=
  ⟨refused_of (by decide +kernel), refused_of (by decide +kernel), refused_of (by decide +kernel),
    refused_of (by decide +kernel)⟩

theorem witness_Ticks : State.reset.hostInputs = [] ∧ envTick.hostInputs = [⟨[(Cell.porta, 0x10#8)], [.pause]⟩] ∧
    (∃ u, envTick.beforeClock = .next u) ∧ (∃ t, envTick.applyEnvWrite Cell.porta 0x10#8 = .next t) ∧
    (∃ t, envTick.applyEnvWrites envTick.nextInput.envWrites = .next t) :=
  ⟨rfl, rfl, next_of_isSome (by decide +kernel), next_of_isSome (by decide +kernel), next_of_isSome (by decide +kernel)⟩

theorem witness_EnvironmentWrites : Cell.porta ∈ envCells ∧ 0x09F#9 ∈ envCells ∧
    ((0x03#8 &&& 0xFC#8) = (State.reset.cell Cell.intcon &&& 0xFC#8) ∧
      (State.reset.cell Cell.intcon &&& ~~~0x03#8) = 0x00#8) ∧
    ¬(Cell.intcon ∈ envCells ∨ (Cell.intcon = Cell.intcon ∧
      (0x04#8 &&& 0xFC#8) = (State.reset.cell Cell.intcon &&& 0xFC#8) ∧
      (State.reset.cell Cell.intcon &&& ~~~0x04#8) = 0x00#8)) ∧
    ¬(Cell.tmr0 ∈ envCells ∨ (Cell.tmr0 = Cell.intcon ∧
      (0x00#8 &&& 0xFC#8) = (State.reset.cell Cell.intcon &&& 0xFC#8) ∧
      (State.reset.cell Cell.intcon &&& ~~~0x00#8) = 0x00#8)) ∧
    0x20 ≤ (offsetOf 0x020#9).toNat ∧ offsetOf 0x080#9 = 0#7 := by decide +kernel

/-- The prescaler cleared, internal source, at rate 1:2 and 1:256. -/
def prescaled (ps : Byte) : State := st 0x00#8 [(Cell.option, ps)]

theorem witness_PrescaledTimer : ∀ s ∈ [prescaled 0x00#8, prescaled 0x07#8], s.t0cs = false ∧ s.psa = false ∧
    s.sleeping = false ∧
    s.timer0 = { presc := 0#8, sync := false, ra4Prev := s.timer0.ra4Prev, clkPrev := true, inhibit := 0 } := by
  decide +kernel

/-- Timer0 with these counters. -/
def timer (option presc : Byte) (inhibit : Nat) : State :=
  (st 0x00#8 [(Cell.option, option)]).setTimer0 ⟨presc, false, false, false, inhibit⟩

theorem witness_TimerWrite : ∀ s ∈ [timer 0x08#8 0#8 1, timer 0x08#8 0#8 2], 0 < s.timer0.inhibit ∧
    s.timer0.clkPrev = false := by decide +kernel

theorem witness_TimerIncrement : 0 < (timer 0x08#8 0#8 1).timer0.inhibit ∧
    ((st 0x00#8 [(Cell.tmr0, 0xFE#8)]).timer0.inhibit = 0 ∧ (st 0x00#8 [(Cell.tmr0, 0xFE#8)]).cell Cell.tmr0 ≠ 0xFF#8) ∧
    ((st 0x00#8 [(Cell.tmr0, 0xFF#8)]).timer0.inhibit = 0 ∧
      (st 0x00#8 [(Cell.tmr0, 0xFF#8)]).cell Cell.tmr0 = 0xFF#8) := by decide +kernel

theorem witness_Prescaler : (timer 0x08#8 0#8 0).psa = true ∧
    ((timer 0x01#8 3#8 0).psa = false ∧
      2 ^ ((timer 0x01#8 3#8 0).ps.toNat + 1) ≤ (timer 0x01#8 3#8 0).timer0.presc.toNat + 1) ∧
    ((timer 0x01#8 2#8 0).psa = false ∧
      (timer 0x01#8 2#8 0).timer0.presc.toNat + 1 < 2 ^ ((timer 0x01#8 2#8 0).ps.toNat + 1)) := by decide +kernel

/-- A rising record of the internal source, and records that only note the level: none rising, external source, asleep. -/
theorem witness_ClkoutRecord : (∀ s ∈ [timer 0x08#8 0#8 0], s.timer0.sync = false ∧ s.timer0.clkPrev = false ∧
      s.t0cs = false ∧ s.sleeping = false ∧ s.timer0.inhibit = 0) ∧
    (∀ s ∈ [State.reset, timer 0x28#8 0#8 0, (timer 0x08#8 0#8 0).setSleeping true], s.timer0.sync = false ∧
      (s.timer0.clkPrev = true ∨ ((s.t0cs = true ∨ s.sleeping = true) ∧ s.timer0.inhibit = 0))) := by decide +kernel

/-- The external source through the prescaler; and a PORTA record with the internal source, and one asleep. -/
theorem witness_PortaRecord : ((timer 0x20#8 0#8 0).t0cs = true ∧ (timer 0x20#8 0#8 0).psa = false ∧
      (timer 0x20#8 0#8 0).sleeping = false) ∧
    (timer 0x08#8 0#8 0).t0cs = false ∧ asleepStill.sleeping = true := by decide +kernel

theorem witness_External : ∀ s ∈ [timer 0x28#8 0#8 0, timer 0x38#8 0#8 0], s.t0cs = true ∧ s.psa = true ∧
    s.sleeping = false ∧ s.timer0.inhibit = 0 := by decide +kernel

theorem witness_AsleepTimer : asleepStill.sleeping = true ∧
    ∀ r ∈ Record.notify .porta 0x00#8 0x10#8 :: clkoutCycle, ∀ old new : Byte, r ≠ .notify .tmr0 old new := by
  refine ⟨rfl, ?_⟩
  intro r hr old new h
  subst h
  simp [clkoutCycle] at hr

theorem witness_GeneralPurpose : 0x70 ≤ (0x70#7).toNat ∧ (0x20 ≤ (0x20#7).toNat ∧ (0x20#7).toNat < 0x70) ∧
    (0x20 ≤ (0x6F#7).toNat ∧ (0x6F#7).toNat < 0x70) ∧ Params.default.maxMemory = 0x150 := by decide

theorem witness_SpecialFunction : (0x02#7).toNat ∈ [0x02, 0x03, 0x04, 0x0A, 0x0B] ∧ (0x06#7).toNat ∈ [0x01, 0x06] ∧
    (0x1F#7).toNat ∈ [0x05, 0x0C, 0x0E, 0x12, 0x18, 0x19, 0x1A, 0x1F] ∧
    (0x0F#7).toNat ∈ [0x0F, 0x10, 0x11, 0x15, 0x16, 0x17] ∧ (0x1D#7).toNat ∈ [0x1B, 0x1C, 0x1D] ∧
    (0x1E#7).toNat ∈ [0x07, 0x08, 0x09, 0x0D, 0x13, 0x14, 0x1E] := by decide

theorem witness_FailedAccess : resolve State.reset.params 0x105#9 = none ∧ offsetOf 0x180#9 = 0#7 := by decide +kernel

/-- STATUS through bank 3, PCLATH, PCL, TMR0 through bank 2, and a general-purpose cell. -/
theorem witness_MemWrite : (([(0x183#9, Cell.status), (0x00A#9, Cell.pclath), (0x102#9, Cell.pcl),
    (0x101#9, Cell.tmr0), (0x181#9, Cell.option), (0x14F#9, 0x14F#9)] : List (RegAddr × RegAddr)).all fun e =>
    decide (offsetOf e.1 ≠ 0#7 ∧ resolve State.reset.params e.1 = some e.2)) = true := by decide +kernel

theorem witness_FileField : 0x01#7 ≠ 0#7 := by decide

theorem witness_SetPc : State.reset.params.pcModel = .pclathSynth ∧
    (State.powerOn { Params.default with pcModel := .separatePch } 0#16).params.pcModel = .separatePch := by
  decide +kernel

theorem witness_Pushes : (List.replicate 8 0x001#13).length ≤ 8 ∧ ([] : List ProgAddr).length ≤ 8 := by decide

theorem witness_PushWraps : [1#13, 2#13, 3#13, 4#13, 5#13, 6#13, 7#13, 8#13].length = 8 := by decide

theorem witness_BitTest : (st 0x00#8 [(Cell.status, 0x38#8)]).fileCell 0x0F#7 = none := by decide +kernel

theorem witness_EveryStep : State.reset.inv = true ∧ ∃ t, step State.reset = .next t :=
  ⟨by decide +kernel, next_of_isSome (by decide +kernel)⟩

theorem witness_UnreachedCells : State.reset.unreachedCellsAtReset ∧ (∀ a, storageCell State.reset.params a ≠ some 0x007#9) ∧
    ∃ t, step State.reset = .next t :=
  ⟨fun _ _ => rfl, by decide +kernel, next_of_isSome (by decide +kernel)⟩

/-- A run that has started. -/
def running : State := { State.reset with started := true }

theorem witness_ProgramImage : (∃ t, step State.reset = .next t) ∧ running.started = true ∧ running.fault = none :=
  ⟨next_of_isSome (by decide +kernel), rfl, rfl⟩

theorem witness_ImageLoad : (State.reset.started = false ∧ latched.fault ≠ none) ∧
    (([(0, 0x3022), (1, 0x0001)] : List (Nat × Nat)).map Prod.fst).Nodup ∧
    (0, 0x3022) ∈ ([(0, 0x3022), (1, 0x0001)] : List (Nat × Nat)) ∧ 0 < State.reset.params.flashSize ∧
    2 ∉ ([(0, 0x3022), (1, 0x0001)] : List (Nat × Nat)).map Prod.fst ∧ State.reset.params.flashSize ≤ 2048 := by
  decide +kernel

theorem witness_OnlySleep : (∃ t, exec (.movwf 0x03#7) State.reset = .next t) ∧
    Instr.movwf 0x03#7 ≠ .sleep ∧ Instr.movwf 0x03#7 ≠ .clrwdt :=
  ⟨next_of_isSome (by decide +kernel), by decide, by decide⟩

theorem witness_OnlySkips : (∃ t, exec (.btfsc 2#3 0x03#7) State.reset = .next t ∧ t.skip = true) ∧
    (∃ t, exec .ret State.reset = .next t ∧ t.sp ≠ State.reset.sp) ∧
    (∃ t, exec (.call 0x001#11) (State.reset.setPC 0x005#13) = .next t ∧
      t.stack ≠ (State.reset.setPC 0x005#13).stack) :=
  ⟨exists_next (by decide +kernel), exists_next (by decide +kernel), exists_next (by decide +kernel)⟩

end Sys2Proof.Tests
end

/-! ## The state: the invariant (10_state.md R29 to R33, R41, R47; 20_memory.md R70, R91)

`State.inv` reads only the parameters, the register file, flash, PCH, `pending_cycles`, `step_budget`, the write inhibit,
the fault latch and the running flag of the clock. An update of any other field leaves it the same term, so there the
hypothesis itself is the proof; the lemmas below are about the updates that do touch those fields. -/
section
namespace Sys2Proof.Machine

/-! ### The three parts of the invariant as propositions -/

theorem inv_iff (s : State) :
    s.inv = true ↔ s.memoryInv = true ∧ s.engineInv = true ∧ s.pcInv = true := by
  simp [State.inv, and_assoc]

theorem memoryInv_iff (s : State) : s.memoryInv = true ↔
    Store.wf resetByte s.regs = true ∧ (∀ e ∈ s.regs, e.1 < 0x200) ∧
    Store.wf (fun _ => s.params.flashFill) s.flash = true ∧ (∀ e ∈ s.flash, e.1 < s.params.flashSize) := by
  simp only [State.memoryInv, Bool.and_eq_true, List.all_eq_true, decide_eq_true_eq, and_assoc]

theorem engineInv_iff (s : State) : s.engineInv = true ↔
    s.pendingCycles ≤ 1 ∧ s.stepBudget ≤ 2 ∧ s.timer0.inhibit ≤ s.params.tmr0WriteInhibit ∧
    ∀ x, s.fault = some x →
      s.clock.running = false ∧ decode x.opcode = .rejected (.invalidOpcode x.opcode) := by
  unfold State.engineInv
  cases s.fault <;> simp [and_assoc]

theorem pcInv_iff (s : State) : s.pcInv = true ↔
    (s.cell Cell.pclath).extractLsb' 5 3 = 0#3 ∧ (s.params.pcModel = .separatePch ∨ s.pch = 0#5) := by
  simp [State.pcInv]

/-! ### Writes that touch what the invariant reads -/

theorem inv_setCell {s : State} (h : s.inv = true) {c : RegAddr} {v : Byte}
    (hv : c = Cell.pclath → v.extractLsb' 5 3 = 0#3) : (s.setCell c v).inv = true := by
  obtain ⟨hmem, heng, hpc⟩ := (inv_iff s).mp h
  obtain ⟨hwf, hrange, hflash⟩ := (memoryInv_iff s).mp hmem
  obtain ⟨hpclath, hpch⟩ := (pcInv_iff s).mp hpc
  refine (inv_iff _).mpr ⟨(memoryInv_iff _).mpr ?_, heng, (pcInv_iff _).mpr ⟨?_, hpch⟩⟩
  · exact ⟨setCell_regs_wf hwf c v, setCell_range hrange c v, hflash⟩
  · rw [setCell_cell]
    split
    · exact hv ‹_›
    · exact hpclath

theorem inv_writeDirect {s : State} (h : s.inv = true) {c : RegAddr} (hc : c ≠ Cell.pclath) (v : Byte) :
    (s.writeDirect c v).inv = true :=
  inv_setCell h fun he => absurd he hc

theorem inv_setPch {s : State} (h : s.inv = true) (v : BitVec 5) (hm : s.params.pcModel = .separatePch) :
    (s.setPch v).inv = true := by
  obtain ⟨hmem, heng, hpc⟩ := (inv_iff s).mp h
  exact (inv_iff _).mpr ⟨hmem, heng, (pcInv_iff _).mpr ⟨((pcInv_iff s).mp hpc).1, .inl hm⟩⟩

/-- The engine's counters and latch are the only things this update changes that the invariant reads. -/
theorem inv_of_engineInv {s t : State} (h : s.inv = true) (hmem : t.memoryInv = s.memoryInv)
    (hpc : t.pcInv = s.pcInv) (heng : t.engineInv = true) : t.inv = true := by
  obtain ⟨h1, -, h3⟩ := (inv_iff s).mp h
  exact (inv_iff t).mpr ⟨hmem.trans h1, heng, hpc.trans h3⟩

theorem inv_setPending {s : State} (h : s.inv = true) {n : Nat} (hn : n ≤ 1) : (s.setPending n).inv = true := by
  obtain ⟨-, heng, -⟩ := (inv_iff s).mp h
  obtain ⟨-, hrest⟩ := (engineInv_iff s).mp heng
  exact inv_of_engineInv h rfl rfl ((engineInv_iff _).mpr ⟨hn, hrest⟩)

theorem inv_setBudget {s : State} (h : s.inv = true) {n : Nat} (hn : n ≤ 2) :
    ({ s with stepBudget := n } : State).inv = true := by
  obtain ⟨-, heng, -⟩ := (inv_iff s).mp h
  obtain ⟨hpend, -, hrest⟩ := (engineInv_iff s).mp heng
  exact inv_of_engineInv h rfl rfl ((engineInv_iff _).mpr ⟨hpend, hn, hrest⟩)

theorem inv_useBudget {s : State} (h : s.inv = true) : s.useBudget.inv = true := by
  obtain ⟨-, heng, -⟩ := (inv_iff s).mp h
  obtain ⟨-, hbudget, -⟩ := (engineInv_iff s).mp heng
  exact inv_setBudget h (Nat.le_trans (Nat.sub_le _ 2) hbudget)

/-- The decoder rejects a word by its own name (spec 30_encoding.md R112). -/
theorem decode_rejected_self {op : InsnWord} {e : DecodeError} (h : decode op = .rejected e) :
    decode op = .rejected (.invalidOpcode op) := by
  unfold decode at h ⊢
  cases hl : lookup op with
  | none => rfl
  | some o =>
    rw [hl] at h
    cases h

/-- A decode fault latches a word the decoder rejects and stops the clock (spec 60_exceptions.md R260, R261). -/
theorem inv_raiseDecodeFault {s : State} (h : s.inv = true) {op : InsnWord} {e : DecodeError}
    (hop : decode op = .rejected e) (pc : ProgAddr) : (s.raiseDecodeFault op pc).inv = true := by
  obtain ⟨-, heng, -⟩ := (inv_iff s).mp h
  obtain ⟨hpend, hbudget, hinh, -⟩ := (engineInv_iff s).mp heng
  refine inv_of_engineInv h rfl rfl ((engineInv_iff _).mpr ⟨hpend, hbudget, hinh, ?_⟩)
  intro x hx
  cases hx
  exact ⟨rfl, decode_rejected_self hop⟩

/-! ### The cycle step -/

/-- The invariant is a property every write of an execute keeps. -/
theorem inv_kept : Kept (fun s => s.inv = true) where
  cell _ _ _ h _ hv := inv_setCell h hv
  w _ _ h := h
  pch _ v h hm := inv_setPch h v hm
  stackEntry _ _ _ h := h
  sp _ _ h := h
  skip _ _ h := h
  sleeping _ _ h := h
  presc _ h := h
  notify _ _ _ _ h := h

/-- An instruction takes one cycle or two (spec 30_encoding.md R111). -/
theorem cycles_le_two (i : Instr) : i.cycles ≤ 2 := by
  unfold Instr.cycles
  cases i.opcode <;> decide

theorem inv_fetchAdvance {s : State} (h : s.inv = true) (i : Instr) : (s.fetchAdvance i).inv = true := by
  have hc := cycles_le_two i
  have hskip : (s.setSkip false).inv = true := h
  have hpend : (((s.setSkip false).setPC (s.nextAddr s.fetchAddr)).setPending (i.cycles - 1)).inv = true :=
    inv_setPending (inv_kept.setPC hskip _) (by omega)
  exact hpend

theorem inv_sleepCycle {s : State} (h : s.inv = true) : s.sleepCycle.inv = true := by
  unfold State.sleepCycle
  split <;> exact h

theorem inv_stallCycle {s : State} (h : s.inv = true) : s.stallCycle.inv = true := by
  obtain ⟨-, heng, -⟩ := (inv_iff s).mp h
  obtain ⟨hpend, -⟩ := (engineInv_iff s).mp heng
  exact inv_setPending h (Nat.le_trans (Nat.sub_le _ 1) hpend)

theorem inv_interruptCycle {s : State} (h : s.inv = true) : s.interruptCycle.inv = true := by
  have hpush : (s.push s.getPC).inv = true := h
  have hentry : s.interruptEntry.inv = true :=
    inv_setPending (inv_kept.setPC (inv_kept.setGIE hpush false) _) (le_refl 1)
  exact inv_useBudget hentry

theorem inv_cycleStep {s t : State} (h : s.inv = true) (hs : s.cycleStep = .next t) : t.inv = true := by
  obtain rfl | ⟨-, rfl⟩ | ⟨-, rfl⟩ | ⟨-, rfl⟩ | ⟨-, ⟨e, he⟩, rfl⟩ | ⟨i, u, -, hexec, rfl⟩ := cycleStep_cases hs
  · exact h
  · exact inv_sleepCycle h
  · exact inv_stallCycle h
  · exact inv_interruptCycle h
  · exact inv_raiseDecodeFault h he _
  · have hu : u.inv = true := inv_kept.exec i (inv_fetchAdvance h i) hexec
    exact inv_useBudget hu

/-! ### The micro-steps of a tick -/

/-- The environment may not write PCLATH (spec 10_state.md R51; 60_exceptions.md R322). -/
theorem envWriteAllowed_ne_pclath {s : State} {c : RegAddr} {v : Byte} (h : s.envWriteAllowed c v = true) :
    c ≠ Cell.pclath := by
  rintro rfl
  have hlist : Cell.pclath ∉ envCells := by decide
  have hintcon : Cell.pclath ≠ Cell.intcon := by decide
  simp only [State.envWriteAllowed, Bool.or_eq_true, Bool.and_eq_true, List.contains_iff_mem, beq_iff_eq] at h
  exact h.elim hlist fun h => hintcon h.1

theorem inv_applyEnvWrites {ws : List (RegAddr × Byte)} {s t : State} (h : s.inv = true)
    (he : s.applyEnvWrites ws = .next t) : t.inv = true :=
  applyEnvWrites_kept (P := fun s => s.inv = true)
    (fun _ _ v hs hal => inv_writeDirect hs (envWriteAllowed_ne_pclath hal) v) ws s t h he

/-! Delivery to Timer0: only a TMR0 record raises the write inhibit, and it raises it to its parameter
(spec 60_exceptions.md R291, R298). -/

theorem t0ApplySync_inhibit (s : State) : s.t0ApplySync.timer0.inhibit = s.timer0.inhibit := by
  unfold State.t0ApplySync
  split
  · rw [t0Increment_timer0]
    rfl
  · rfl

/-- A selected edge goes through the prescaler, which leaves the inhibit alone. -/
theorem ite_t0Prescale_inhibit (b : Bool) (s : State) (src : T0Source) :
    (if b then s.t0Prescale src else s).timer0.inhibit = s.timer0.inhibit := by
  cases b
  · rfl
  · exact t0Prescale_inhibit s src

theorem countDown_inhibit_le (s : State) :
    (if 0 < s.timer0.inhibit then s.setTimer0 { s.timer0 with inhibit := s.timer0.inhibit - 1 }
      else s).timer0.inhibit ≤ s.timer0.inhibit := by
  split
  · exact Nat.sub_le _ 1
  · exact le_refl _

theorem t0RisingEdge_inhibit_le (s : State) : s.t0RisingEdge.timer0.inhibit ≤ s.timer0.inhibit :=
  (countDown_inhibit_le _).trans_eq (ite_t0Prescale_inhibit _ s .internal)

theorem t0Clock_inhibit_le (s : State) (level : Bool) : (s.t0Clock level).timer0.inhibit ≤ s.timer0.inhibit := by
  rw [← t0ApplySync_inhibit s]
  unfold State.t0Clock
  simp only []
  split
  · exact t0RisingEdge_inhibit_le _
  · exact le_refl _

theorem t0Pin_inhibit (s : State) (new : Byte) : (s.t0Pin new).timer0.inhibit = s.timer0.inhibit :=
  ite_t0Prescale_inhibit _ (s.setTimer0 { s.timer0 with ra4Prev := new.getLsbD 4 }) .external

theorem deliver_inhibit_le {s : State} (h : s.timer0.inhibit ≤ s.params.tmr0WriteInhibit) (r : Record) :
    (s.deliver r).timer0.inhibit ≤ s.params.tmr0WriteInhibit := by
  cases r with
  | clkout p level => exact (t0Clock_inhibit_le s level).trans h
  | notify m old new =>
    cases m with
    | tmr0 => exact le_refl _
    | porta => exact (t0Pin_inhibit s new).trans_le h
    | option | intcon | status => exact h

theorem inv_deliver {s : State} (h : s.inv = true) (r : Record) : (s.deliver r).inv = true := by
  have k := deliver_onlyTimer s r
  obtain ⟨hmem, heng, hpc⟩ := (inv_iff s).mp h
  obtain ⟨hwf, hrange, hflashWf, hflashRange⟩ := (memoryInv_iff s).mp hmem
  obtain ⟨hpend, hbudget, hinh, hfault⟩ := (engineInv_iff s).mp heng
  obtain ⟨hpclath, hpch⟩ := (pcInv_iff s).mp hpc
  have hcell : (s.deliver r).cell Cell.pclath = s.cell Cell.pclath := k.cells _ (by decide) (by decide)
  refine (inv_iff _).mpr ⟨(memoryInv_iff _).mpr ?_, (engineInv_iff _).mpr ?_, (pcInv_iff _).mpr ?_⟩
  · rw [k.flash, k.params]
    exact ⟨k.wf hwf, k.range hrange, hflashWf, hflashRange⟩
  · rw [k.pendingCycles, k.stepBudget, k.params, k.fault, k.clock]
    exact ⟨hpend, hbudget, deliver_inhibit_le hinh r, hfault⟩
  · rw [hcell, k.params, k.pch]
    exact ⟨hpclath, hpch⟩

theorem inv_drain {s : State} (h : s.inv = true) (snap : List Record) : (s.drain snap).inv = true := by
  induction snap generalizing s with
  | nil => exact h
  | cons r snap ih => exact ih (inv_deliver h r)

/-! A reset, by a control event or at power-on, leaves the special-function cells at their reset contents (spec
70_reset_and_hazards.md R331, R332). -/

theorem resetRegs_read_special (p : Params) (n : Nat) {c : RegAddr} (hc : (offsetOf c).toNat < 0x20) :
    Store.read resetByte (resetRegs p n) c.toNat = resetByte c.toNat :=
  resetRegs_read_other p n fun hg => Nat.not_le.mpr hc ((mem_gprCells p c).mp hg).1

theorem resetRegs_read_pclath (p : Params) (n : Nat) :
    Store.read resetByte (resetRegs p n) Cell.pclath.toNat = 0x00#8 :=
  resetRegs_read_special p n (by decide)

theorem inv_controlReset {s : State} (h : s.inv = true) : s.controlReset.inv = true := by
  obtain ⟨hmem, -, hpc⟩ := (inv_iff s).mp h
  obtain ⟨-, -, hflashWf, hflashRange⟩ := (memoryInv_iff s).mp hmem
  obtain ⟨-, hpch⟩ := (pcInv_iff s).mp hpc
  have hpclath : s.controlReset.cell Cell.pclath = 0x00#8 := resetRegs_read_pclath s.params s.drawCount
  refine (inv_iff _).mpr ⟨(memoryInv_iff _).mpr ?_, (engineInv_iff _).mpr ?_, (pcInv_iff _).mpr ⟨?_, ?_⟩⟩
  · exact ⟨resetRegs_wf s.params s.drawCount, resetRegs_range s.params s.drawCount, hflashWf, hflashRange⟩
  · exact ⟨Nat.zero_le 1, le_refl 2, Nat.zero_le _, fun x hx => nomatch hx⟩
  · rw [hpclath]
    rfl
  · cases hm : s.params.pcModel with
    | separatePch => exact .inl hm
    | pclathSynth =>
      refine .inr ?_
      have hs : s.pch = 0#5 := hpch.resolve_left (by simp [hm])
      simpa [State.controlReset, hm] using hs

theorem inv_drainControl {s : State} (h : s.inv = true) : s.drainControl.inv = true :=
  runControl_kept (P := fun s => s.inv = true) (fun _ _ h => h) (fun _ h => inv_setBudget h (le_refl 2))
    (fun _ h => inv_controlReset h) s.controlQueue _ h

theorem inv_beforeClock {s u : State} (h : s.inv = true) (hu : s.beforeClock = .next u) : u.inv = true := by
  obtain ⟨v, hv, rfl⟩ := beforeClock_cases hu
  have hopen : s.openTick.inv = true := h
  have henv : v.inv = true := inv_applyEnvWrites hopen hv
  have hqueue : ({ v with controlQueue := v.controlQueue ++ s.nextInput.controlEvents } : State).inv = true := henv
  exact inv_drainControl (inv_drain hqueue s.notifyQueue)

theorem inv_clockToggle {u t : State} (h : u.inv = true) (ht : u.clockToggle = .next t) : t.inv = true := by
  have hclock : (u.setClock u.clock.toggle).inv = true := h
  obtain ⟨-, rfl⟩ | ⟨-, rfl⟩ | ⟨-, p, rfl⟩ | ⟨-, v, hv, rfl⟩ := clockToggle_cases ht
  · exact h
  · exact hclock
  · exact hclock
  · have hcycle : v.inv = true := inv_cycleStep hclock hv
    exact hcycle

/-- Settles O56: the first three micro-steps of a tick keep the invariant, and so does the clock toggle. -/
theorem everyStepKeepsTheInvariant : Obligations.EveryStepKeepsTheInvariant := by
  intro s t h hstep
  obtain ⟨u, hu, ht⟩ := step_cases hstep
  exact inv_clockToggle (inv_beforeClock h hu) ht

/-! ### The power-on state -/

theorem inv_powerOn (p : Params) (config : BitVec 16) : (State.powerOn p config).inv = true := by
  have hpclath : (State.powerOn p config).cell Cell.pclath = 0x00#8 := resetRegs_read_pclath p 0
  refine (inv_iff _).mpr ⟨(memoryInv_iff _).mpr ?_, (engineInv_iff _).mpr ?_, (pcInv_iff _).mpr ⟨?_, .inr rfl⟩⟩
  · exact ⟨resetRegs_wf p 0, resetRegs_range p 0, rfl, fun e he => nomatch he⟩
  · exact ⟨Nat.zero_le 1, le_refl 2, Nat.zero_le _, fun x hx => nomatch hx⟩
  · rw [hpclath]
    rfl

/-- Settles O55: `State.reset` is the power-on state at the default parameters. -/
theorem resetMeetsTheInvariant : Obligations.ResetMeetsTheInvariant :=
  ⟨powerOn_default ▸ inv_powerOn Params.default 0x0000#16, inv_powerOn⟩

end Sys2Proof.Machine
end

/-! ## The state: power-on, the PC and the return stack, the STATUS flags (10_state.md R22 to R28, R35, R36, R53) -/
section
namespace Sys2Proof.Machine

/-! ### The power-on state (R53) -/

/-- The reset contents of a cell: the preload of R332, else zero; evaluated at each of the 512 addresses. -/
theorem resetByte_toNat (c : RegAddr) : resetByte c.toNat =
    if c = Cell.status then 0x18#8 else if c = Cell.option then 0xFF#8 else if c = Cell.trisa then 0xFF#8
    else if c = Cell.trisb then 0xFF#8 else if c = Cell.pcon then 0x08#8 else if c = Cell.pr2 then 0xFF#8
    else if c = Cell.txsta then 0x02#8 else 0x00#8 := by
  revert c
  decide +kernel

/-- No preloaded cell is a general-purpose one. -/
theorem preloaded_special : ∀ c ∈ preload.map Prod.fst, (offsetOf c).toNat < 0x20 := by
  simp [preload, offsetOf]

theorem powerOn_cell (p : Params) (config : BitVec 16) (c : RegAddr) :
    (State.powerOn p config).cell c = Store.read resetByte (resetRegs p 0) c.toNat := rfl

theorem powerOn_cell_special (p : Params) (config : BitVec 16) {c : RegAddr} (hc : (offsetOf c).toNat < 0x20) :
    (State.powerOn p config).cell c = resetByte c.toNat :=
  resetRegs_read_special p 0 hc

theorem powerOn_getPC (p : Params) (config : BitVec 16) : (State.powerOn p config).getPC = 0x0000#13 := by
  have hpcl : (State.powerOn p config).cell Cell.pcl = 0x00#8 := powerOn_cell_special p config (by decide)
  have hpclath : (State.powerOn p config).cell Cell.pclath = 0x00#8 := powerOn_cell_special p config (by decide)
  have hhigh : (State.powerOn p config).pcHigh = 0#5 := by
    unfold State.pcHigh
    split
    · rw [hpclath]
      rfl
    · rfl
  rw [State.getPC, hhigh, hpcl]
  rfl

theorem powerOn_cell_zero {p : Params} (h : p.gprReset = .zero) (config : BitVec 16) (c : RegAddr) :
    (State.powerOn p config).cell c = resetByte c.toNat :=
  resetRegs_read_zero h 0 c

theorem powerOn_cell_unknown {p : Params} (h : p.gprReset = .unknown) (config : BitVec 16) (c : RegAddr) :
    (State.powerOn p config).cell c =
      if 0x20 ≤ (offsetOf c).toNat ∧ resolve p c = some c then Config.gprDraw 0 c.toNat else resetByte c.toNat := by
  simp only [powerOn_cell, resetRegs_read_unknown h, mem_gprCells]

/-- Settles O20: every field by evaluation, the register file by `resetByte` and the draws. -/
theorem powerOnStateIsAsTabled : Obligations.PowerOnStateIsAsTabled := by
  refine ⟨powerOn_default.symm, fun p config => ⟨_, rfl, rfl, rfl, fun _ => rfl, rfl, powerOn_getPC p config,
    powerOn_cell_special p config (by decide), powerOn_cell_special p config (by decide), rfl, rfl, rfl, rfl, rfl, rfl,
    rfl, rfl, rfl, rfl, rfl, rfl, rfl, rfl, fun hz c => ?_, fun hu c => ?_⟩⟩
  · rw [powerOn_cell_zero hz, resetByte_toNat]
  · rw [powerOn_cell_unknown hu]
    by_cases hc : c ∈ preload.map Prod.fst
    · have hspecial : ¬ (0x20 ≤ (offsetOf c).toNat ∧ resolve p c = some c) := fun hg =>
        Nat.not_le.mpr (preloaded_special c hc) hg.1
      rw [if_neg hspecial, if_neg hspecial, resetByte_toNat]
    · have hother : c ≠ Cell.status ∧ c ≠ Cell.option ∧ c ≠ Cell.trisa ∧ c ≠ Cell.trisb ∧ c ≠ Cell.pcon ∧
          c ≠ Cell.pr2 ∧ c ≠ Cell.txsta := by simpa [preload] using hc
      obtain ⟨h1, h2, h3, h4, h5, h6, h7⟩ := hother
      simp only [resetByte_toNat, if_neg h1, if_neg h2, if_neg h3, if_neg h4, if_neg h5, if_neg h6, if_neg h7]

/-! ### The program counter (R22, R23) -/

/-- Settles O35: the laws of `setPC`, under each PC model. -/
theorem setPcThenGetPc : Obligations.SetPcThenGetPc := by
  intro s v
  have hsame := setPC_onlyRegs s v
  have hmodel : (s.setPC v).params.pcModel = s.params.pcModel := congrArg Params.pcModel hsame.engine.params
  have hpclath_ne : Cell.pclath ≠ Cell.pcl := by decide
  refine ⟨_, rfl, setPC_getPC s v, ?_, fun hm => ⟨?_, ?_, ?_⟩, fun hm => ⟨?_, ?_, ?_⟩, fun c hpcl hpclath => ?_,
    setPC_notifyQueue s v, hsame.w, hsame.skip, hsame.dataFrame⟩
  · simp [setPC_cell]
  · simp [setPC_cell, hm, hpclath_ne]
  · simp [setPC_pch, hm]
  · simp [State.getPC, State.pcHigh, hmodel, hm]
  · simp [setPC_cell, hm, hpclath_ne]
  · simp [setPC_pch, hm]
  · simp [State.getPC, State.pcHigh, hmodel, hm]
  · simp [setPC_cell, hpcl, hpclath]

/-! ### The return stack (R27, R28) -/

/-- The stack entry at an index. -/
def State.stackAt (s : State) (i : BitVec 3) : ProgAddr := s.stack[i.toNat]'i.isLt

theorem top_eq_stackAt (s : State) : s.top = s.stackAt s.sp := rfl

theorem push_stackAt (s : State) (v : ProgAddr) (i : BitVec 3) :
    (s.push v).stackAt i = if i = s.sp - 1#3 then v else s.stackAt i := by
  have hindex : i = s.sp - 1#3 ↔ i.toNat = (s.sp - 1#3).toNat := BitVec.toNat_inj.symm
  simp only [hindex]
  exact push_stack s v ⟨i.toNat, i.isLt⟩

/-- The index `n + 1` above SP is the index `n` above the next entry. -/
theorem add_one_add_ofNat (i : BitVec 3) (n : Nat) : i + 1#3 + BitVec.ofNat 3 n = i + BitVec.ofNat 3 (n + 1) := by
  rw [BitVec.add_assoc, Nat.add_comm n 1, BitVec.ofNat_add]

/-- `n` pops only move SP up by `n`, modulo 8. -/
theorem popMany_state (n : Nat) (s : State) : (popMany n s).2 = s.setSp (s.sp + BitVec.ofNat 3 n) := by
  induction n generalizing s with
  | zero => simp [popMany, State.setSp]
  | succ n ih =>
    calc (popMany (n + 1) s).2 = s.pop.setSp (s.pop.sp + BitVec.ofNat 3 n) := ih s.pop
      _ = s.setSp (s.sp + BitVec.ofNat 3 (n + 1)) := congrArg s.setSp (add_one_add_ofNat s.sp n)

/-- `n` pops return the entries from SP upwards, modulo 8. -/
theorem popMany_values (n : Nat) (s : State) :
    (popMany n s).1 = (List.range n).map fun i => s.stackAt (s.sp + BitVec.ofNat 3 i) := by
  induction n generalizing s with
  | zero => rfl
  | succ n ih =>
    have hhead : s.top = s.stackAt (s.sp + BitVec.ofNat 3 0) := by simp [top_eq_stackAt]
    have htail : (popMany n s.pop).1 = (List.range n).map fun i => s.stackAt (s.sp + BitVec.ofNat 3 (i + 1)) := by
      rw [ih]
      exact List.map_congr_left fun i _ => congrArg s.stackAt (add_one_add_ofNat s.sp i)
    rw [List.range_succ_eq_map, List.map_cons, List.map_map, ← hhead]
    exact congrArg (s.top :: ·) htail

/-- One pop more returns one value more, at the end. -/
theorem popMany_succ_values (n : Nat) (s : State) :
    (popMany (n + 1) s).1 = (popMany n s).1 ++ [s.stackAt (s.sp + BitVec.ofNat 3 n)] := by
  rw [popMany_values, popMany_values, List.range_succ, List.map_append, List.map_singleton]

/-- A push and a pop change one entry, the one below SP; up to seven pops do not come to it. -/
theorem popMany_pop_push {n : Nat} (hn : n ≤ 7) (s : State) (v : ProgAddr) :
    (popMany n (s.push v).pop).1 = (popMany n s).1 := by
  have hsp : (s.push v).pop.sp = s.sp := pop_push_sp s v
  rw [popMany_values, popMany_values, hsp]
  refine List.map_congr_left fun i hi => ?_
  have hne : s.sp + BitVec.ofNat 3 i ≠ s.sp - 1#3 := by
    have hlt : i < 7 := Nat.lt_of_lt_of_le (List.mem_range.mp hi) hn
    bv_omega
  exact (push_stackAt s v _).trans (if_neg hne)

theorem pushAll_concat (s : State) (vs : List ProgAddr) (v : ProgAddr) :
    pushAll s (vs ++ [v]) = (pushAll s vs).push v := by simp [pushAll]

theorem pushAll_sp (s : State) (vs : List ProgAddr) : (pushAll s vs).sp = s.sp - BitVec.ofNat 3 vs.length := by
  induction vs using List.reverseRecOn with
  | nil => simp [pushAll]
  | append_singleton vs v ih =>
    rw [pushAll_concat, push_sp, ih, List.length_append, List.length_singleton, BitVec.ofNat_add]
    exact BitVec.sub_sub _ _ _

/-- Popping what up to eight pushes stored gives it back, the last first. -/
theorem popMany_pushAll (s : State) {vs : List ProgAddr} (h : vs.length ≤ 8) :
    (popMany vs.length (pushAll s vs)).1 = vs.reverse := by
  induction vs using List.reverseRecOn with
  | nil => rfl
  | append_singleton vs v ih =>
    rw [List.length_append, List.length_singleton] at h ⊢
    have hrest : (popMany vs.length ((pushAll s vs).push v).pop).1 = vs.reverse :=
      (popMany_pop_push (by omega) _ v).trans (ih (by omega))
    rw [pushAll_concat, List.reverse_append]
    exact congrArg₂ List.cons (push_top _ v) hrest

/-- Settles O36: the values by `popMany_pushAll`, SP by counting the moves. -/
theorem pushesThenPopsReturnInReverse : Obligations.PushesThenPopsReturnInReverse := by
  intro s vs h
  refine ⟨popMany_pushAll s h, ?_⟩
  rw [popMany_state, setSp_sp, pushAll_sp, BitVec.sub_add_cancel]

/-- Settles O37: of nine pushes the first eight pops return the last eight, and the ninth is again at the entry of the
first, where SP stands. -/
theorem pushWrapsAndTheNinthOverwrites : Obligations.PushWrapsAndTheNinthOverwrites := by
  refine ⟨fun s v => ⟨push_sp s v, push_top s v, fun j hj => ?_⟩, fun s vs v hlen => ⟨?_, ?_, ?_⟩⟩
  · rw [push_stack, if_neg hj]
  · rw [pushAll_sp, List.length_append, hlen, List.length_singleton]
    rfl
  · rw [pushAll_concat, push_top]
  · obtain ⟨a, us, rfl⟩ := List.exists_cons_of_length_eq_add_one hlen
    have hlast : (us ++ [v]).length = 8 := by simpa using hlen
    have height : (popMany 8 (pushAll (s.push a) (us ++ [v]))).1 = (us ++ [v]).reverse := by
      rw [← hlast]
      exact popMany_pushAll (s.push a) hlast.le
    have hninth : (pushAll (s.push a) (us ++ [v])).stackAt
        ((pushAll (s.push a) (us ++ [v])).sp + BitVec.ofNat 3 8) = v := by
      rw [show BitVec.ofNat 3 8 = 0#3 from rfl, BitVec.add_zero, ← top_eq_stackAt, pushAll_concat, push_top]
    show (popMany (8 + 1) (pushAll (s.push a) (us ++ [v]))).1 = v :: (us.reverse ++ [v])
    rw [popMany_succ_values, height, hninth, List.reverse_append]
    rfl

/-! ### The flag primitives (R36) -/

/-- Outside its bit, a byte with one bit replaced is the byte. -/
theorem withBit_and_not_mask (x : Byte) (i : Nat) (v : Bool) :
    withBit x i v &&& ~~~(1#8 <<< i) = x &&& ~~~(1#8 <<< i) := by
  cases v with
  | false => simp [withBit, BitVec.and_assoc]
  | true => simp [withBit, BitVec.and_or_distrib_right]

/-- A flag primitive leaves every STATUS bit but its own. -/
theorem setStatusBit_masked (s : State) (i : Nat) (v : Bool) :
    (s.setStatusBit i v).cell Cell.status &&& ~~~(1#8 <<< i) = s.cell Cell.status &&& ~~~(1#8 <<< i) := by
  rw [setStatusBit_status, withBit_and_not_mask]

/-- A flag primitive sets its own STATUS bit. -/
theorem setStatusBit_statusBit_same (s : State) {i : Nat} (hi : i < 8) (v : Bool) :
    (s.setStatusBit i v).statusBit i = v := by
  rw [setStatusBit_statusBit s hi, if_pos rfl]

/-- Settles O38: each primitive is `setStatusBit` at its bit; the frame and the notification are proved for that. -/
theorem flagPrimitiveWritesOneBit : Obligations.FlagPrimitiveWritesOneBit := by
  intro s r b
  refine ⟨⟨setStatusBit_statusBit_same s (by decide) _, setStatusBit_masked s 2 _⟩,
    ⟨setStatusBit_statusBit_same s (by decide) b, setStatusBit_masked s 0 b⟩,
    ⟨setStatusBit_statusBit_same s (by decide) b, setStatusBit_masked s 1 b⟩, fun t ht => ?_⟩
  obtain ⟨i, v, rfl⟩ : ∃ i v, t = s.setStatusBit i v := by
    simp only [List.mem_cons, List.not_mem_nil, or_false] at ht
    obtain rfl | rfl | rfl := ht
    · exact ⟨2, _, rfl⟩
    · exact ⟨0, b, rfl⟩
    · exact ⟨1, b, rfl⟩
  have hsame := setStatusBit_onlyRegs s i v
  exact ⟨fun _ hc => setStatusBit_cell_other s i v hc, hsame.w, setStatusBit_pch s i v, hsame.skip, hsame.dataFrame,
    setStatusBit_notifyQueue s i v⟩

/-! ### TO and PD (R35; 70_reset_and_hazards.md R343)

The result write keeps both under either mask (20_memory.md R76), the flag primitives write bits 0 to 2 only, and no
other write of an execute but `SetStatusTP` reaches STATUS. -/

/-- TO and PD are in `t` as in `s`. -/
def SameTpd (s t : State) : Prop := t.flagTO = s.flagTO ∧ t.flagPD = s.flagPD

theorem SameTpd.trans {s t u : State} (h : SameTpd s t) (k : SameTpd t u) : SameTpd s u :=
  ⟨k.1.trans h.1, k.2.trans h.2⟩

theorem sameTpd_of_status {s t : State} (h : t.cell Cell.status = s.cell Cell.status) : SameTpd s t := by
  simp [SameTpd, State.flagTO, State.flagPD, State.statusBit, h]

theorem setW_sameTpd (s : State) (v : Byte) : SameTpd s (s.setW v) := sameTpd_of_status rfl

theorem dest_sameTpd (s : State) (d : Dest) (f : FileField) (r : Byte) {keep : Byte}
    (hk : keep = keepTP ∨ keep = keepFlags) : SameTpd s (s.dest d f r keep) :=
  (dest_result s d f r hk).upper.tpd

theorem setStatusBit_sameTpd (s : State) {i : Nat} (hi : i < 3) (v : Bool) : SameTpd s (s.setStatusBit i v) := by
  have hkept : ∀ j, 3 ≤ j → (s.setStatusBit i v).statusBit j = s.statusBit j := fun j hj => by
    rw [setStatusBit_statusBit s (by omega), if_neg (by omega)]
  exact ⟨hkept 4 (by decide), hkept 3 (by decide)⟩

theorem setCDCZ_sameTpd (s : State) (x : AluResult) : SameTpd s (s.setCDCZ x) :=
  ((setStatusBit_sameTpd s (by decide) x.c).trans (setStatusBit_sameTpd _ (by decide) x.dc)).trans
    (setStatusBit_sameTpd _ (by decide) _)

theorem setPC_sameTpd (s : State) (v : ProgAddr) : SameTpd s (s.setPC v) :=
  sameTpd_of_status (by rw [setPC_cell, if_neg (by decide), if_neg (by simp [Cell.status, Cell.pclath])])

theorem setGIE_sameTpd (s : State) (v : Bool) : SameTpd s (s.setGIE v) :=
  sameTpd_of_status (by rw [State.setGIE, writeDirect_cell, if_neg (by decide)])

/-! The execute forms the instructions share. -/

theorem complete_sameTpd {s u t : State} {b : Bool} (hu : SameTpd s u) (h : u.complete b = .next t) :
    SameTpd s t := by
  cases h
  exact hu

theorem resultZ_sameTpd {d : Dest} {f : FileField} {r : Byte} {s t : State} (h : resultZ d f r s = .next t) :
    SameTpd s t :=
  complete_sameTpd ((dest_sameTpd s d f r (.inr rfl)).trans (setStatusBit_sameTpd _ (by decide) _)) h

theorem resultC_sameTpd {d : Dest} {f : FileField} {r : Byte} {c : Bool} {s t : State}
    (h : resultC d f r c s = .next t) : SameTpd s t :=
  complete_sameTpd ((dest_sameTpd s d f r (.inr rfl)).trans (setStatusBit_sameTpd _ (by decide) c)) h

theorem resultSkipZero_sameTpd {d : Dest} {f : FileField} {r : Byte} {s t : State}
    (h : resultSkipZero d f r s = .next t) : SameTpd s t :=
  complete_sameTpd (dest_sameTpd s d f r (.inl rfl)) h

theorem literalZ_sameTpd {r : Byte} {s t : State} (h : literalZ r s = .next t) : SameTpd s t :=
  complete_sameTpd ((setW_sameTpd s r).trans (setStatusBit_sameTpd _ (by decide) _)) h

theorem resultCDCZ_sameTpd {d : Dest} {f : FileField} {x : AluResult} {s t : State}
    (h : ((s.dest d f x.r keepFlags).setCDCZ x).complete false = .next t) : SameTpd s t :=
  complete_sameTpd ((dest_sameTpd s d f x.r (.inr rfl)).trans (setCDCZ_sameTpd _ x)) h

theorem literalCDCZ_sameTpd {x : AluResult} {s t : State}
    (h : ((s.setW x.r).setCDCZ x).complete false = .next t) : SameTpd s t :=
  complete_sameTpd ((setW_sameTpd s x.r).trans (setCDCZ_sameTpd _ x)) h

/-- Settles O59, by the form of the execute of each instruction. -/
theorem onlySleepAndClrwdtChangeToAndPd : Obligations.OnlySleepAndClrwdtChangeToAndPd := by
  intro i s t h hsleep hclrwdt
  cases i with
  | sleep => exact absurd rfl hsleep
  | clrwdt => exact absurd rfl hclrwdt
  | andwf d f | comf d f | decf d f | incf d f | iorwf d f | movf d f | xorwf d f => exact resultZ_sameTpd h
  | rlf d f | rrf d f => exact resultC_sameTpd h
  | decfsz d f | incfsz d f => exact resultSkipZero_sameTpd h
  | addwf d f => exact resultCDCZ_sameTpd (x := add8 s.w (s.fileRead f)) h
  | subwf d f => exact resultCDCZ_sameTpd (x := sub8 (s.fileRead f) s.w) h
  | clrf f => exact resultZ_sameTpd (d := .toF) h
  | swapf d f => exact complete_sameTpd (dest_sameTpd s d f _ (.inl rfl)) h
  | movwf f | bcf b f | bsf b f => exact complete_sameTpd (dest_sameTpd s .toF f _ (.inl rfl)) h
  | andlw k | iorlw k | xorlw k | clrw => exact literalZ_sameTpd h
  | addlw k => exact literalCDCZ_sameTpd (x := add8 s.w k) h
  | sublw k => exact literalCDCZ_sameTpd (x := sub8 k s.w) h
  | movlw k => exact complete_sameTpd (setW_sameTpd s k) h
  | btfsc b f | btfss b f | nop => exact complete_sameTpd (sameTpd_of_status rfl) h
  | call k => exact complete_sameTpd (setPC_sameTpd (s.push s.getPC) _) h
  | goto k => exact complete_sameTpd (setPC_sameTpd s _) h
  | ret => exact complete_sameTpd (setPC_sameTpd s.pop _) h
  | retlw k => exact complete_sameTpd (setPC_sameTpd (s.setW k).pop _) h
  | retfie => exact complete_sameTpd ((setPC_sameTpd s.pop s.top).trans (setGIE_sameTpd _ true)) h

end Sys2Proof.Machine
end

/-! ## The register file and program memory (20_memory.md R70 to R92; 10_state.md R24, R41, R45, R46) -/
section
namespace Sys2Proof.Machine

/-! ### Address resolution (R71 to R74) -/

/-- The common range, offsets 0x70 to 0x7F (R72). -/
theorem resolve_common (p : Params) (b : Bank) {o : FileField} (ho : 0x70 ≤ o.toNat) :
    resolve p (fullAddr b o) = some (fullAddr 0#2 o) := by
  simp [resolve, ho]

/-- The banked range, offsets 0x20 to 0x6F (R73). -/
theorem resolve_banked (p : Params) (b : Bank) {o : FileField} (hlo : 0x20 ≤ o.toNat) (hhi : o.toNat < 0x70) :
    resolve p (fullAddr b o) =
      if b.toNat * 0x80 + o.toNat < p.maxMemory then some (fullAddr b o) else none := by
  simp [resolve, hlo, Nat.not_le.mpr hhi]

/-- An offset below 0x20 resolves by its row of Table M1, whatever the parameters (R74). -/
theorem resolve_special (p : Params) {a : RegAddr} (ha : (offsetOf a).toNat < 0x20) : resolve p a =
    ((tableM1 (offsetOf a).toNat).findSome? fun k => k.storageBank (bankOf a)).map fun b => fullAddr b (offsetOf a) := by
  have hcommon : ¬ 0x70 ≤ (offsetOf a).toNat := by omega
  simp [resolve, hcommon, Nat.not_le.mpr ha]

/-- Settles O30: the ranges of R72 and R73, and at the default `MAX_MEMORY` bank by bank. -/
theorem generalPurposeResolution : Obligations.GeneralPurposeResolution := by
  refine ⟨fun p b o => resolve_common p b, fun p b o => resolve_banked p b, fun p b o hmax hlo hhi => ?_⟩
  have hbound : (resolve p (fullAddr b o)).isSome ↔ b.toNat * 0x80 + o.toNat < 0x150 := by
    rw [resolve_banked p b hlo hhi, hmax]
    split <;> simp [*]
  have hbank : ∀ b : Bank, b = 0#2 ∨ b = 1#2 ∨ b = 2#2 ∨ b = 3#2 := by decide
  rw [hbound]
  obtain rfl | rfl | rfl | rfl := hbank b <;> simp <;> omega

/-- The offsets of one row of Table M1 resolve by that row's classes. -/
theorem resolve_of_row {row : List Nat} {classes : List RegClass}
    (hrow : ∀ n ∈ row, n < 0x20 ∧ tableM1 n = classes) (p : Params) (b : Bank) {o : FileField} (ho : o.toNat ∈ row) :
    resolve p (fullAddr b o) = (classes.findSome? fun k => k.storageBank b).map fun b' => fullAddr b' o := by
  obtain ⟨hlt, hclasses⟩ := hrow _ ho
  rw [resolve_special p (by simpa using hlt), bankOf_fullAddr, offsetOf_fullAddr, hclasses]

/-! The storage bank each row's classes give, by the bank of the access. -/

theorem storageBank_even_odd (b : Bank) : ([.evenBank, .oddBank].findSome? fun k : RegClass => k.storageBank b) =
    some (if b = 0#2 ∨ b = 2#2 then 0#2 else 1#2) := by
  revert b
  decide

theorem storageBank_bank0_bank1 (b : Bank) : ([.bank0, .bank1].findSome? fun k : RegClass => k.storageBank b) =
    if b = 0#2 ∨ b = 1#2 then some b else none := by
  revert b
  decide

theorem storageBank_bank0 (b : Bank) : ([.bank0].findSome? fun k : RegClass => k.storageBank b) =
    if b = 0#2 then some b else none := by
  revert b
  decide

theorem storageBank_bank1 (b : Bank) : ([.bank1].findSome? fun k : RegClass => k.storageBank b) =
    if b = 1#2 then some b else none := by
  revert b
  decide

theorem map_fullAddr_ite (c : Prop) [Decidable c] (b : Bank) (o : FileField) :
    ((if c then some b else none).map fun b' => fullAddr b' o) = if c then some (fullAddr b o) else none := by
  split <;> rfl

/-- Settles O31, row by row of Table M1. -/
theorem specialFunctionResolution : Obligations.SpecialFunctionResolution := by
  intro p b o
  refine ⟨fun ho => ?_, fun ho => ?_, fun ho => ?_, fun ho => ?_, fun ho => ?_, fun ho => ?_⟩
  · exact resolve_of_row (classes := [.allBank]) (by decide) p b ho
  · rw [resolve_of_row (classes := [.evenBank, .oddBank]) (by decide) p b ho, storageBank_even_odd]
    rfl
  · rw [resolve_of_row (classes := [.bank0, .bank1]) (by decide) p b ho, storageBank_bank0_bank1, map_fullAddr_ite]
  · rw [resolve_of_row (classes := [.bank0]) (by decide) p b ho, storageBank_bank0, map_fullAddr_ite]
  · rw [resolve_of_row (classes := [.bank1]) (by decide) p b ho, storageBank_bank1, map_fullAddr_ite]
  · exact resolve_of_row (classes := []) (by decide) p b ho

/-! ### Reads and writes at a full address (R75 to R79, R90, R92) -/

theorem storageCell_eq_none {p : Params} {a : RegAddr} (h : resolve p a = none ∨ offsetOf a = 0#7) :
    storageCell p a = none := by
  unfold storageCell
  split
  · rfl
  · exact h.resolve_right ‹_›

theorem storageCell_eq_some {p : Params} {a c : RegAddr} (ha : offsetOf a ≠ 0#7) (hc : resolve p a = some c) :
    storageCell p a = some c := by
  rw [storageCell, if_neg ha, hc]

theorem memRead_none {s : State} {a : RegAddr} (h : storageCell s.params a = none) : s.memRead a = 0x00#8 := by
  rw [State.memRead, h]

theorem memWrite_none {s : State} {a : RegAddr} (h : storageCell s.params a = none) (v keep : Byte) :
    s.memWrite a v keep = s := by
  rw [State.memWrite, h]

theorem memWrite_some {s : State} {a c : RegAddr} (h : storageCell s.params a = some c) (v keep : Byte) :
    s.memWrite a v keep = s.writeCell c v keep := by
  rw [State.memWrite, h]

/-- Settles O32: a failed access reaches no cell. -/
theorem failedAccessIsSilent : Obligations.FailedAccessIsSilent := by
  intro s a v keep h
  have hnone := storageCell_eq_none h
  exact ⟨memRead_none hnone, memWrite_none hnone v keep⟩

/-- The records a write appends, by the cell written: TMR0's on every write, the others' on a change (R90). -/
theorem notifyRecords_eq (c : RegAddr) (old new : Byte) : notifyRecords c old new =
    if c = Cell.tmr0 then [.notify .tmr0 old new]
    else if new = old then []
    else if c = Cell.option then [.notify .option old new]
    else if c = Cell.porta then [.notify .porta old new]
    else if c = Cell.intcon then [.notify .intcon old new]
    else if c = Cell.status then [.notify .status old new] else [] := by
  obtain rfl | htmr0 := eq_or_ne c Cell.tmr0
  · rfl
  obtain rfl | hoption := eq_or_ne c Cell.option
  · simp [notifyRecords_option, htmr0]
  obtain rfl | hporta := eq_or_ne c Cell.porta
  · simp [notifyRecords_porta, htmr0, hoption]
  obtain rfl | hintcon := eq_or_ne c Cell.intcon
  · simp [notifyRecords_intcon, htmr0, hoption, hporta]
  obtain rfl | hstatus := eq_or_ne c Cell.status
  · simp [notifyRecords_status, htmr0, hoption, hporta, hintcon]
  · have hother : monitored c = none := by simp [monitored, htmr0, hoption, hporta, hintcon, hstatus]
    simp [notifyRecords_other hother, htmr0, hoption, hporta, hintcon, hstatus]

/-! The byte a register-file write stores, by the cell (R76; 10_state.md R41). -/

theorem storedByte_status (keep old v : Byte) :
    storedByte Cell.status keep old v = (old &&& keep) ||| (v &&& ~~~keep) := rfl

theorem storedByte_pclath (keep old v : Byte) : storedByte Cell.pclath keep old v = v &&& 0x1F#8 := rfl

theorem storedByte_other {c : RegAddr} (hstatus : c ≠ Cell.status) (hpclath : c ≠ Cell.pclath) (keep old v : Byte) :
    storedByte c keep old v = v := by
  rw [storedByte, if_neg hstatus, if_neg hpclath]

theorem writeCell_cell_same (s : State) (c : RegAddr) (v keep : Byte) :
    (s.writeCell c v keep).cell c = storedByte c keep (s.cell c) v := by
  rw [writeCell_cell, if_pos rfl]

/-- Settles O33: the laws of `writeCell` at the cell the address resolves to. -/
theorem memWriteStoresMaskedAndNotifies : Obligations.MemWriteStoresMaskedAndNotifies := by
  intro s a c v keep ha hc
  have hsame := writeCell_onlyRegs s c v keep
  refine ⟨s.writeCell c v keep, memWrite_some (storageCell_eq_some ha hc) v keep, ?_, ?_, ?_, fun x hx => ?_,
    writeCell_pch s c v keep, ?_, hsame.w, hsame.skip, hsame.dataFrame⟩
  · rintro rfl
    rw [writeCell_cell_same, storedByte_status]
  · rintro rfl
    rw [writeCell_cell_same, storedByte_pclath]
  · intro hstatus hpclath
    rw [writeCell_cell_same, storedByte_other hstatus hpclath]
  · rw [writeCell_cell, if_neg hx.symm]
  · rw [writeCell_notifyQueue, notifyRecords_eq, writeCell_cell_same]

theorem fileAddr_direct (s : State) {f : FileField} (hf : f ≠ 0#7) :
    s.fileAddr f = (s.cell Cell.status).extractLsb' 5 2 ++ f := if_neg hf

theorem bit_getLsbD (x : Byte) (i : Nat) : bit (x.getLsbD i) = x.extractLsb' i 1 := by
  apply BitVec.eq_of_getLsbD_eq
  intro j hj
  obtain rfl : j = 0 := by omega
  simp [bit]

theorem fileAddr_indirect (s : State) :
    s.fileAddr 0#7 = (s.cell Cell.status).extractLsb' 7 1 ++ s.cell Cell.fsr := by
  rw [State.fileAddr, if_pos rfl, State.irp, State.statusBit, bit_getLsbD]

/-- Settles O34: the address of each form, under the read and the write. -/
theorem fileFieldNamesDirectOrIndirect : Obligations.FileFieldNamesDirectOrIndirect := by
  refine ⟨fun s f v keep hf => ?_, fun s v keep => ?_⟩
  · rw [← fileAddr_direct s hf]
    exact ⟨rfl, rfl⟩
  · rw [← fileAddr_indirect s]
    exact ⟨rfl, rfl⟩

/-! ### Cells no address resolves to (R70) -/

/-- A write of a cell some address resolves to leaves the others as they were. -/
theorem unreached_setCell {s : State} (h : s.unreachedCellsAtReset) {c : RegAddr}
    (hc : ∃ a, storageCell s.params a = some c) (v : Byte) : (s.setCell c v).unreachedCellsAtReset := by
  intro x hx
  have hne : c ≠ x := by
    rintro rfl
    obtain ⟨a, ha⟩ := hc
    exact hx a ha
  rw [setCell_cell, if_neg hne]
  exact h x hx

/-- The property reads the parameters and the register file alone, so an update of anything else leaves it the same
term. -/
theorem unreached_kept : Kept State.unreachedCellsAtReset where
  cell _ _ v h hc _ := unreached_setCell h hc v
  w _ _ h := h
  pch _ _ h _ := h
  stackEntry _ _ _ h := h
  sp _ _ h := h
  skip _ _ h := h
  sleeping _ _ h := h
  presc _ h := h
  notify _ _ _ _ h := h

theorem unreached_sleepCycle {s : State} (h : s.unreachedCellsAtReset) : s.sleepCycle.unreachedCellsAtReset := by
  unfold State.sleepCycle
  split <;> exact h

theorem unreached_interruptEntry {s : State} (h : s.unreachedCellsAtReset) :
    s.interruptEntry.unreachedCellsAtReset :=
  unreached_kept.setPC (unreached_kept.setGIE (unreached_kept.push h s.getPC) false) interruptVector

theorem unreached_fetchAdvance {s : State} (h : s.unreachedCellsAtReset) (i : Instr) :
    (s.fetchAdvance i).unreachedCellsAtReset :=
  unreached_kept.setPC (unreached_kept.skip s false h) (s.nextAddr s.fetchAddr)

theorem unreached_cycleStep {s t : State} (h : s.unreachedCellsAtReset) (hs : s.cycleStep = .next t) :
    t.unreachedCellsAtReset := by
  obtain rfl | ⟨-, rfl⟩ | ⟨-, rfl⟩ | ⟨-, rfl⟩ | ⟨-, -, rfl⟩ | ⟨i, u, -, hexec, rfl⟩ := cycleStep_cases hs
  · exact h
  · exact unreached_sleepCycle h
  · exact h
  · exact unreached_interruptEntry h
  · exact h
  · have hu : u.unreachedCellsAtReset := unreached_kept.exec i (unreached_fetchAdvance h i) hexec
    exact hu

/-- Each cell the environment may write is one its own address resolves to (10_state.md R51; 20_memory.md R74); all
lie below offset 0x20, where the parameters do not matter. -/
theorem envCells_reached (p : Params) {c : RegAddr} (h : c ∈ envCells) : storageCell p c = some c := by
  have hlisted : ∀ c ∈ envCells, (offsetOf c).toNat < 0x20 ∧ storageCell Params.default c = some c := by
    decide +kernel
  obtain ⟨hspecial, hdefault⟩ := hlisted c h
  rw [← hdefault, storageCell, storageCell, resolve_special p hspecial, resolve_special Params.default hspecial]

theorem envWriteAllowed_reached {s : State} {c : RegAddr} {v : Byte} (h : s.envWriteAllowed c v = true) :
    ∃ a, storageCell s.params a = some c := by
  simp only [State.envWriteAllowed, Bool.or_eq_true, Bool.and_eq_true, List.contains_iff_mem, beq_iff_eq] at h
  obtain hlist | ⟨rfl, -⟩ := h
  · exact ⟨c, envCells_reached s.params hlist⟩
  · exact ⟨Cell.intcon, rfl⟩

theorem unreached_applyEnvWrites {ws : List (RegAddr × Byte)} {s t : State} (h : s.unreachedCellsAtReset)
    (he : s.applyEnvWrites ws = .next t) : t.unreachedCellsAtReset :=
  applyEnvWrites_kept (fun _ _ v hs hal => unreached_setCell hs (envWriteAllowed_reached hal) v) ws s t h he

/-- Timer0 writes TMR0 and INTCON alone, and both are reached (60_exceptions.md R295, R296). -/
theorem unreached_drain {s : State} (h : s.unreachedCellsAtReset) (snap : List Record) :
    (s.drain snap).unreachedCellsAtReset := by
  have honly := drain_onlyTimer s snap
  intro c hc
  rw [honly.params] at hc
  have htmr0 : c ≠ Cell.tmr0 := by
    rintro rfl
    exact hc Cell.tmr0 rfl
  have hintcon : c ≠ Cell.intcon := by
    rintro rfl
    exact hc Cell.intcon rfl
  rw [honly.cells c htmr0 hintcon]
  exact h c hc

/-- A general-purpose cell is one its own address resolves to. -/
theorem gprCells_reached {p : Params} {c : RegAddr} (h : c ∈ gprCells p) : storageCell p c = some c := by
  obtain ⟨hge, hres⟩ := (mem_gprCells p c).mp h
  have hoff : offsetOf c ≠ 0#7 := fun h0 => by simp [h0] at hge
  exact storageCell_eq_some hoff hres

/-- A reset draws general-purpose cells only, whatever the register file held before (70_reset_and_hazards.md R331). -/
theorem unreached_controlReset (s : State) : s.controlReset.unreachedCellsAtReset := by
  intro c hc
  have hgpr : c ∉ gprCells s.params := fun hg => hc c (gprCells_reached hg)
  exact resetRegs_read_other s.params s.drawCount hgpr

theorem unreached_drainControl {s : State} (h : s.unreachedCellsAtReset) : s.drainControl.unreachedCellsAtReset :=
  runControl_kept (P := State.unreachedCellsAtReset) (fun _ _ h => h) (fun _ h => h)
    (fun s _ => unreached_controlReset s) s.controlQueue _ h

theorem unreached_beforeClock {s u : State} (h : s.unreachedCellsAtReset) (hu : s.beforeClock = .next u) :
    u.unreachedCellsAtReset := by
  obtain ⟨v, hv, rfl⟩ := beforeClock_cases hu
  have hopen : s.openTick.unreachedCellsAtReset := h
  have henv : v.unreachedCellsAtReset := unreached_applyEnvWrites hopen hv
  have hqueue : ({ v with controlQueue := v.controlQueue ++ s.nextInput.controlEvents } :
    State).unreachedCellsAtReset := henv
  exact unreached_drainControl (unreached_drain hqueue s.notifyQueue)

theorem unreached_clockToggle {u t : State} (h : u.unreachedCellsAtReset) (ht : u.clockToggle = .next t) :
    t.unreachedCellsAtReset := by
  have hclock : (u.setClock u.clock.toggle).unreachedCellsAtReset := h
  obtain ⟨-, rfl⟩ | ⟨-, rfl⟩ | ⟨-, p, rfl⟩ | ⟨-, v, hv, rfl⟩ := clockToggle_cases ht
  · exact h
  · exact hclock
  · exact hclock
  · have hcycle : v.unreachedCellsAtReset := unreached_cycleStep hclock hv
    exact hcycle

/-- Settles O57: every write of a tick goes to a cell some address resolves to, and a reset draws only such cells. -/
theorem unreachedCellsKeepTheirResetValue : Obligations.UnreachedCellsKeepTheirResetValue := by
  intro s t h hstep
  obtain ⟨u, hu, ht⟩ := step_cases hstep
  exact unreached_clockToggle (unreached_beforeClock h hu) ht

/-! ### Program memory (R85; 10_state.md R45, R46) -/

/-- What no tick changes once the run has begun: flash, the CONFIG word, the parameters, and that it has begun. -/
def State.image (s : State) : List (Nat × InsnWord) × BitVec 16 × Params × Bool :=
  (s.flash, s.configWord, s.params, s.started)

theorem image_eq_iff (s t : State) : t.image = s.image ↔
    t.flash = s.flash ∧ t.configWord = s.configWord ∧ t.params = s.params ∧ t.started = s.started := by
  simp [State.image]

theorem EngineSame.image {s t : State} (h : EngineSame s t) : t.image = s.image :=
  (image_eq_iff s t).mpr ⟨h.flash, h.configWord, h.params, h.started⟩

theorem OnlyTimer.image {s t : State} (h : OnlyTimer s t) : t.image = s.image :=
  (image_eq_iff s t).mpr ⟨h.flash, h.configWord, h.params, h.started⟩

theorem setPC_image (s : State) (v : ProgAddr) : (s.setPC v).image = s.image := (setPC_onlyRegs s v).engine.image

theorem sleepCycle_image (s : State) : s.sleepCycle.image = s.image := by
  unfold State.sleepCycle
  split <;> rfl

theorem interruptEntry_image (s : State) : s.interruptEntry.image = s.image :=
  setPC_image ((s.push s.getPC).setGIE false) interruptVector

theorem fetchAdvance_image (s : State) (i : Instr) : (s.fetchAdvance i).image = s.image :=
  setPC_image (s.setSkip false) (s.nextAddr s.fetchAddr)

theorem cycleStep_image {s t : State} (h : s.cycleStep = .next t) : t.image = s.image := by
  obtain rfl | ⟨-, rfl⟩ | ⟨-, rfl⟩ | ⟨-, rfl⟩ | ⟨-, -, rfl⟩ | ⟨i, u, -, hexec, rfl⟩ := cycleStep_cases h
  · rfl
  · exact sleepCycle_image s
  · rfl
  · exact interruptEntry_image s
  · rfl
  · have hu : u.image = s.image := (exec_engineSame hexec).image.trans (fetchAdvance_image s i)
    exact hu

/-- A reset keeps the image, and the other control events touch the run control alone (70_reset_and_hazards.md R331). -/
theorem drainControl_image (s : State) : s.drainControl.image = s.image :=
  runControl_kept (P := fun t => t.image = s.image) (fun _ _ h => h) (fun _ h => h) (fun _ h => h) s.controlQueue _ rfl

theorem beforeClock_image {s u : State} (h : s.beforeClock = .next u) : u.image = s.openTick.image := by
  obtain ⟨v, hv, rfl⟩ := beforeClock_cases h
  have henv : v.image = s.openTick.image := (applyEnvWrites_onlyRegs _ hv).engine.image
  exact (drainControl_image _).trans ((drain_onlyTimer _ s.notifyQueue).image.trans henv)

theorem clockToggle_image {u t : State} (h : u.clockToggle = .next t) : t.image = u.image := by
  obtain ⟨-, rfl⟩ | ⟨-, rfl⟩ | ⟨-, p, rfl⟩ | ⟨-, v, hv, rfl⟩ := clockToggle_cases h
  · rfl
  · rfl
  · rfl
  · have hcycle : v.image = (u.setClock u.clock.toggle).image := cycleStep_image hv
    exact hcycle

/-- A tick keeps the image of the state it opens, which has only `started` set (log entry 6). -/
theorem step_image {s t : State} (h : step s = .next t) : t.image = s.openTick.image := by
  obtain ⟨u, hu, ht⟩ := step_cases h
  exact (clockToggle_image ht).trans (beforeClock_image hu)

theorem hostLoadImage_refused {s : State} (hstarted : s.started = true) (hfault : s.fault = none)
    (image : List (Nat × Nat)) : hostLoadImage image s = .refused .imageLoadDuringRun := by
  simp [hostLoadImage, hstarted, hfault]

theorem hostLoadImage_next {s : State} (h : s.started = false ∨ s.fault ≠ none) (image : List (Nat × Nat)) :
    hostLoadImage image s = .next (s.loadImage image) := by
  have hcond : (!s.started || s.fault.isSome) = true := by
    simpa [Option.isSome_iff_ne_none] using h
  rw [hostLoadImage, if_pos hcond]

/-- Settles O58: the image no tick changes, and the laws of the image load. -/
theorem programImageIsConstant : Obligations.ProgramImageIsConstant := by
  refine ⟨fun s t h => ?_, fun s image hstarted hfault => hostLoadImage_refused hstarted hfault image,
    fun s image h => ⟨s.loadImage image, hostLoadImage_next h image, loadImage_eq s image,
      fun a => loadImage_flashRead_other, fun hn a w => loadImage_flashRead_named hn⟩, loadWord_flashRead⟩
  exact (image_eq_iff s.openTick t).mp (step_image h)

end Sys2Proof.Machine
end

/-! ## Encoding (30_encoding.md R101 to R118) -/
section
namespace Sys2Proof

/-! ### Decoding an encoded instruction (R107, R118) -/

/-- Settles O1, by the round trip of each constructor. -/
theorem decodeOfEncodeIsTheInstruction : Obligations.DecodeOfEncodeIsTheInstruction := by
  intro i
  cases i with
  | addwf d f => exact Laws.Roundtrip.addwf d f
  | andwf d f => exact Laws.Roundtrip.andwf d f
  | clrf f => exact Laws.Roundtrip.clrf f
  | clrw => exact Laws.Roundtrip.clrw
  | comf d f => exact Laws.Roundtrip.comf d f
  | decf d f => exact Laws.Roundtrip.decf d f
  | decfsz d f => exact Laws.Roundtrip.decfsz d f
  | incf d f => exact Laws.Roundtrip.incf d f
  | incfsz d f => exact Laws.Roundtrip.incfsz d f
  | iorwf d f => exact Laws.Roundtrip.iorwf d f
  | movf d f => exact Laws.Roundtrip.movf d f
  | movwf f => exact Laws.Roundtrip.movwf f
  | rlf d f => exact Laws.Roundtrip.rlf d f
  | rrf d f => exact Laws.Roundtrip.rrf d f
  | subwf d f => exact Laws.Roundtrip.subwf d f
  | swapf d f => exact Laws.Roundtrip.swapf d f
  | xorwf d f => exact Laws.Roundtrip.xorwf d f
  | movlw k => exact Laws.Roundtrip.movlw k
  | addlw k => exact Laws.Roundtrip.addlw k
  | sublw k => exact Laws.Roundtrip.sublw k
  | andlw k => exact Laws.Roundtrip.andlw k
  | iorlw k => exact Laws.Roundtrip.iorlw k
  | xorlw k => exact Laws.Roundtrip.xorlw k
  | retlw k => exact Laws.Roundtrip.retlw k
  | bcf b f => exact Laws.Roundtrip.bcf b f
  | bsf b f => exact Laws.Roundtrip.bsf b f
  | btfsc b f => exact Laws.Roundtrip.btfsc b f
  | btfss b f => exact Laws.Roundtrip.btfss b f
  | call k => exact Laws.Roundtrip.call k
  | goto k => exact Laws.Roundtrip.goto k
  | ret => exact Laws.Roundtrip.ret
  | retfie => exact Laws.Roundtrip.retfie
  | sleep => exact Laws.Roundtrip.sleep
  | clrwdt => exact Laws.Roundtrip.clrwdt
  | nop => exact Laws.Roundtrip.nop

/-- Settles O6: each of the words is the encoding of its instruction. -/
theorem specWordsDecodeToTheirInstructions : Obligations.SpecWordsDecodeToTheirInstructions := by
  have h := decodeOfEncodeIsTheInstruction
  exact ⟨h (.addwf .toF 0x25#7), h (.subwf .toF 0x25#7), h (.movwf 0x25#7), h .clrw, h (.movlw 0x5A#8),
    h (.addlw 0x5A#8), h (.bcf 3#3 0x25#7), h (.btfss 3#3 0x25#7), h (.call 0x123#11), h (.goto 0x123#11),
    h .retfie, h .sleep⟩

/-- Settles O3: whatever the don't-care bits, the high part looks up the same row, and no operand field reads them. -/
theorem dontCareBitsDecodeAlike : Obligations.DontCareBitsDecodeAlike := by
  refine ⟨fun x => ?_, fun x k => ?_, fun x k => ?_, fun x k => ?_, fun x k => ?_⟩
  · exact decode_append (o := .clrw) (by decide) (by decide) x
  · exact decode_literal (p := 0b1100#4 ++ x) (o := .movlw) (by revert x; decide) (fun _ => rfl) k
  · exact decode_literal (p := 0b1101#4 ++ x) (o := .retlw) (by revert x; decide) (fun _ => rfl) k
  · exact decode_literal (p := 0b11111#5 ++ x) (o := .addlw) (by revert x; decide) (fun _ => rfl) k
  · exact decode_literal (p := 0b11110#5 ++ x) (o := .sublw) (by revert x; decide) (fun _ => rfl) k

/-! ### The two answers of the decoder (R110, R112) -/

theorem decode_eq_ok_iff {op : InsnWord} {i : Instr} :
    decode op = .ok i ↔ ∃ o, lookup op = some o ∧ o.build op = i := by
  unfold decode
  cases lookup op <;> simp

theorem decode_rejected_iff (op : InsnWord) : (∃ e, decode op = .rejected e) ↔ lookup op = none := by
  unfold decode
  cases lookup op <;> simp

/-! ### The illegal words (R112) -/

/-- In the whole-word space the five whole words are legal and all others illegal (R105, R112). -/
theorem lookup_zero_append_none_iff (f : FileField) : lookup (0#7 ++ f) = none ↔
    (1 ≤ f.toNat ∧ f.toNat ≤ 7) ∨ (0x0A ≤ f.toNat ∧ f.toNat ≤ 0x62) ∨ 0x65 ≤ f.toNat := by
  revert f
  decide +kernel

/-- Outside the whole-word space the one hole of Table E1 is the high byte 0x3B, two high parts (R112). -/
theorem lookup_append_none_iff {h : BitVec 7} (hh : h ≠ 0#7) (f : FileField) : lookup (h ++ f) = none ↔
    h.toNat = 0x76 ∨ h.toNat = 0x77 := by
  rw [lookup_append hh f]
  revert h
  decide +kernel

/-- Settles O4: the holes of Table E1 by the word's high part, and the fault of a cycle step that fetches one. -/
theorem illegalWordsAreExactlyThese : Obligations.IllegalWordsAreExactlyThese := by
  refine ⟨fun op => ?_, fun s e hd => Machine.fetchExecute_rejected hd⟩
  rw [decode_rejected_iff]
  obtain ⟨h, f, rfl⟩ : ∃ (h f : BitVec 7), op = h ++ f := ⟨_, _, word_split op⟩
  have hval : (h ++ f : InsnWord).toNat = h.toNat * 128 + f.toNat := by
    rw [BitVec.toNat_append, ← Nat.shiftLeft_add_eq_or_of_lt f.isLt, Nat.shiftLeft_eq]
  have hf := f.isLt
  rw [hval]
  by_cases hh : h = 0#7
  · rw [hh, lookup_zero_append_none_iff, show (0#7).toNat = 0 from rfl]
    omega
  · rw [lookup_append_none_iff hh]
    have hpos : h.toNat ≠ 0 := fun h0 => hh (BitVec.eq_of_toNat_eq h0)
    omega

/-! ### The rows of Table E1 (R109, R110) -/

/-- The significant high bits of a row, from bit 13 downwards: the path to its leaf (R109). -/
def Descriptor.path (r : Descriptor) : List Bool := (highBits r.pattern).take r.bits

/-- Two rows neither of which lies on the other's path. -/
abbrev Descriptor.Apart (r q : Descriptor) : Prop := ¬ r.path <+: q.path ∧ ¬ q.path <+: r.path

/-- No two rows of Table E1 lie on one path, so at most one accepts a word. -/
theorem tableE1_apart : tableE1.Pairwise Descriptor.Apart := by decide +kernel

theorem mask_getLsbD {r : Descriptor} (hr : r.bits ≤ 14) {i : Nat} (hi : i < 14) :
    r.mask.getLsbD i = decide (14 - r.bits ≤ i) := by
  simp only [Descriptor.mask, BitVec.getLsbD_ofNat, Nat.testBit_mul_two_pow, Nat.testBit_two_pow_sub_one]
  by_cases hsig : 14 - r.bits ≤ i
  · simp [hsig, hi, show i - (14 - r.bits) < r.bits by omega]
  · simp [hsig]

/-- The mask comparison of R110 is a comparison of the significant high bits, one by one. -/
theorem accepts_iff_bits {r : Descriptor} (hr : r.bits ≤ 14) (op : InsnWord) :
    r.accepts op = true ↔ ∀ j < r.bits, r.pattern.getLsbD (13 - j) = op.getLsbD (13 - j) := by
  rw [Descriptor.accepts, beq_iff_eq]
  constructor
  · intro h j hj
    have hbit := congrArg (fun x : InsnWord => x.getLsbD (13 - j)) h
    have hmask := mask_getLsbD hr (show 13 - j < 14 by omega)
    simpa [hmask, show 14 - r.bits ≤ 13 - j by omega] using hbit.symm
  · intro h
    apply BitVec.eq_of_getLsbD_eq
    intro i hi
    rw [BitVec.getLsbD_and, BitVec.getLsbD_and, mask_getLsbD hr hi]
    by_cases hsig : 14 - r.bits ≤ i
    · have hbit := h (13 - i) (by omega)
      rw [show 13 - (13 - i) = i by omega] at hbit
      rw [hbit]
    · simp [hsig]

/-- A row accepts the words whose high bits begin with its path. -/
theorem accepts_iff_path_prefix {r : Descriptor} (hr : r.bits ≤ 14) (op : InsnWord) :
    r.accepts op = true ↔ r.path <+: highBits op := by
  rw [accepts_iff_bits hr, List.prefix_iff_eq_take]
  simp [Descriptor.path, highBits, ← List.map_take, List.take_range, hr]

theorem tableE1_bits_le : ∀ r ∈ tableE1, r.bits ≤ 14 := by decide

/-- At most one row of Table E1 accepts a word (R110). -/
theorem accepts_unique {op : InsnWord} {r q : Descriptor} (hr : r ∈ tableE1) (hq : q ∈ tableE1)
    (hrop : r.accepts op = true) (hqop : q.accepts op = true) : r = q := by
  by_contra hne
  have : Std.Symm Descriptor.Apart := ⟨fun _ _ h => h.symm⟩
  obtain ⟨hrq, hqr⟩ := tableE1_apart.forall hr hq hne
  rw [accepts_iff_path_prefix (tableE1_bits_le _ hr)] at hrop
  rw [accepts_iff_path_prefix (tableE1_bits_le _ hq)] at hqop
  exact (List.prefix_or_prefix_of_prefix hrop hqop).elim hrq hqr

theorem tableE1_opcode_inj : ∀ r ∈ tableE1, ∀ q ∈ tableE1, r.opcode = q.opcode → r = q := by decide +kernel

theorem lookup_eq_some_iff {op : InsnWord} {o : Opcode} :
    lookup op = some o ↔ ∃ r ∈ tableE1, r.accepts op = true ∧ r.opcode = o := by
  rw [lookup, Option.map_eq_some_iff]
  constructor
  · rintro ⟨r, hfind, ho⟩
    exact ⟨r, List.mem_of_find?_eq_some hfind, (List.find?_some hfind :), ho⟩
  · rintro ⟨r, hr, hacc, ho⟩
    have hsome : (tableE1.find? fun r => r.accepts op).isSome = true := List.find?_isSome.mpr ⟨r, hr, hacc⟩
    obtain ⟨q, hfind⟩ := Option.isSome_iff_exists.mp hsome
    have hqr : q = r := accepts_unique (List.mem_of_find?_eq_some hfind) hr (List.find?_some hfind :) hacc
    exact ⟨q, hfind, hqr ▸ ho⟩

theorem accepts_iff_lookup {r : Descriptor} (hr : r ∈ tableE1) (op : InsnWord) :
    r.accepts op = true ↔ lookup op = some r.opcode := by
  rw [lookup_eq_some_iff]
  constructor
  · exact fun h => ⟨r, hr, h, rfl⟩
  · rintro ⟨q, hq, hacc, ho⟩
    exact tableE1_opcode_inj q hq r hr ho ▸ hacc

/-! ### The dispatch trie (R109, R110) -/

/-- A leaf inserted on a path with no leaf answers the words of that path; the others find what they found before. -/
theorem Trie.find_insert (o : Opcode) {p : List Bool} {t : Trie} (h : t.find p = none) (bits : List Bool) :
    (t.insert o p).find bits = if p <+: bits then some o else t.find bits := by
  induction p generalizing t bits with
  | nil => simp [Trie.insert, Trie.find]
  | cons b p ih =>
    cases t with
    | leaf q => cases h
    | absent =>
      have hnew : ∀ bits, (Trie.absent.insert o p).find bits = if p <+: bits then some o else none := ih rfl
      cases b <;> rcases bits with _ | ⟨_ | _, bits⟩ <;> simp [Trie.insert, Trie.find, hnew]
    | node zero one =>
      cases b with
      | false =>
        have hnew := ih (t := zero) h
        rcases bits with _ | ⟨_ | _, bits⟩ <;> simp [Trie.insert, Trie.find, hnew]
      | true =>
        have hnew := ih (t := one) h
        rcases bits with _ | ⟨_ | _, bits⟩ <;> simp [Trie.insert, Trie.find, hnew]

/-- Rows inserted on paths that are apart are found by their paths. -/
theorem Trie.find_foldl_insert {rows : List Descriptor} {t : Trie} (ht : ∀ r ∈ rows, t.find r.path = none)
    (hrows : rows.Pairwise Descriptor.Apart) (bits : List Bool) :
    (rows.foldl (fun t r => t.insert r.opcode r.path) t).find bits =
      ((rows.find? fun r => decide (r.path <+: bits)).map Descriptor.opcode).or (t.find bits) := by
  induction rows generalizing t with
  | nil => rfl
  | cons r rows ih =>
    obtain ⟨hr, hrest⟩ := List.forall_mem_cons.mp ht
    obtain ⟨hfree, hpair⟩ := List.pairwise_cons.mp hrows
    have ht' : ∀ q ∈ rows, (t.insert r.opcode r.path).find q.path = none := fun q hq => by
      rw [find_insert _ hr, if_neg (hfree q hq).1, hrest q hq]
    rw [List.foldl_cons, ih ht' hpair, find_insert _ hr, List.find?_cons]
    by_cases hpre : r.path <+: bits
    · have hnone : (rows.find? fun q => decide (q.path <+: bits)) = none := by
        refine List.find?_eq_none.mpr fun q hq hqpre => ?_
        exact (List.prefix_or_prefix_of_prefix hpre (of_decide_eq_true hqpre)).elim (hfree q hq).1 (hfree q hq).2
      simp [hpre, hnone]
    · simp [hpre]

/-- The tree walk and the table answer alike (R110). -/
theorem dispatchTrie_find (op : InsnWord) : dispatchTrie.find (highBits op) = lookup op := by
  have hwalk := Trie.find_foldl_insert (t := .absent) (fun r _ => rfl) tableE1_apart (highBits op)
  have hfind : (tableE1.find? fun r => decide (r.path <+: highBits op)) = tableE1.find? fun r => r.accepts op := by
    refine List.find?_congr fun r hr => ?_
    rw [Bool.eq_iff_iff, decide_eq_true_iff, accepts_iff_path_prefix (tableE1_bits_le r hr)]
  calc dispatchTrie.find (highBits op)
      = ((tableE1.find? fun r => decide (r.path <+: highBits op)).map Descriptor.opcode).or none := hwalk
    _ = lookup op := by rw [hfind, Option.or_none, lookup]

/-- Settles O5: the walk follows the paths, and the paths of two rows are apart. -/
theorem trieLookupIsTheUniqueRow : Obligations.TrieLookupIsTheUniqueRow :=
  fun op => ⟨dispatchTrie_find op, fun _ hr => accepts_iff_lookup hr op⟩

/-! ### Encoding a decoded word (R101 to R108) -/

/-- The bits the operand fields of a row's format read (R101 to R105, R107). -/
def Opcode.operandMask : Opcode → InsnWord
  | .clrf | .movwf => 0x007F#14
  | .bcf | .bsf | .btfsc | .btfss => 0x03FF#14
  | .call | .goto => 0x07FF#14
  | .clrw | .ret | .retfie | .sleep | .clrwdt | .nop => 0x0000#14
  | _ => 0x00FF#14

/-- The don't-care bits of a row (R108). -/
def Opcode.dontCareMask : Opcode → InsnWord
  | .clrw => 0x007F#14
  | .movlw | .retlw => 0x0300#14
  | .addlw | .sublw => 0x0100#14
  | _ => 0x0000#14

theorem encode_build_zero : ∀ r ∈ tableE1, encode (r.opcode.build 0#14) = r.pattern := by decide +kernel

theorem pattern_and_mask : ∀ r ∈ tableE1, r.pattern &&& r.mask = r.pattern := by decide

/-- A bit of a row's words is a significant bit or an operand bit unless it is a don't-care bit (R108). -/
theorem mask_or_operandMask :
    ∀ r ∈ tableE1, r.mask ||| r.opcode.operandMask = ~~~r.opcode.dontCareMask := by decide

theorem Opcode.build_opcode (o : Opcode) (op : InsnWord) : (o.build op).opcode = o := by
  cases o <;> rfl

theorem toBit_fieldD (op : InsnWord) : (fieldD op).toBit = op.extractLsb' 7 1 := by
  apply BitVec.eq_of_getLsbD_eq
  intro i hi
  obtain rfl : i = 0 := by omega
  rw [BitVec.getLsbD_extractLsb', fieldD]
  cases op.getLsbD 7 <;> simp [Dest.toBit]

/-- An opcode before the low bits of a word: the opcode's pattern, and of the word the bits after it. -/
theorem append_extractLsb' {m n : Nat} (p : BitVec m) (op : BitVec (m + n)) :
    p ++ op.extractLsb' 0 n = (p ++ 0#n) ||| (op &&& (0#m ++ BitVec.allOnes n)) := by
  apply BitVec.eq_of_getLsbD_eq
  intro i hi
  simp only [BitVec.getLsbD_or, BitVec.getLsbD_and, BitVec.getLsbD_append]
  by_cases h : i < n <;> simp [h]

/-! `d:f` and `b:f` are adjacent fields, so they too are the low bits of the word (R106, R107). -/

theorem append_fieldD_fieldF (p : BitVec 6) (op : InsnWord) :
    (p ++ (fieldD op).toBit ++ fieldF op : InsnWord) = p ++ op.extractLsb' 0 8 := by
  rw [toBit_fieldD]
  exact BitVec.append_assoc.trans (congrArg (p ++ ·)
    (BitVec.extractLsb'_append_extractLsb'_eq_extractLsb' (len₁ := 7) (len₂ := 1) rfl))

theorem append_fieldB_fieldF (p : BitVec 4) (op : InsnWord) :
    (p ++ fieldB op ++ fieldF op : InsnWord) = p ++ op.extractLsb' 0 10 :=
  BitVec.append_assoc.trans (congrArg (p ++ ·)
    (BitVec.extractLsb'_append_extractLsb'_eq_extractLsb' (len₁ := 7) (len₂ := 3) rfl))

/-- The word of a decoded instruction: its row's pattern, and the word's own operand bits. -/
theorem encode_build (o : Opcode) (op : InsnWord) :
    encode (o.build op) = encode (o.build 0#14) ||| (op &&& o.operandMask) := by
  cases o with
  | addwf | andwf | comf | decf | decfsz | incf | incfsz | iorwf | movf | rlf | rrf | subwf | swapf | xorwf =>
    exact (append_fieldD_fieldF _ op).trans (append_extractLsb' (m := 6) (n := 8) _ op)
  | clrf | movwf => exact append_extractLsb' (m := 7) (n := 7) _ op
  | movlw | addlw | sublw | andlw | iorlw | xorlw | retlw => exact append_extractLsb' (m := 6) (n := 8) _ op
  | bcf | bsf | btfsc | btfss => exact (append_fieldB_fieldF _ op).trans (append_extractLsb' (m := 4) (n := 10) _ op)
  | call | goto => exact append_extractLsb' (m := 3) (n := 11) _ op
  | clrw | ret | retfie | sleep | clrwdt | nop => simp [Opcode.build, Opcode.operandMask]

/-- A decoded word's significant bits are its row's pattern, so the encoder loses the don't-care bits alone. -/
theorem encode_of_decode {op : InsnWord} {i : Instr} (h : decode op = .ok i) :
    encode i = op &&& ~~~i.opcode.dontCareMask := by
  obtain ⟨o, ho, rfl⟩ := decode_eq_ok_iff.mp h
  obtain ⟨r, hr, hacc, rfl⟩ := lookup_eq_some_iff.mp ho
  have hmatch : op &&& r.mask = r.pattern := by
    rw [Descriptor.accepts, beq_iff_eq] at hacc
    rw [hacc, pattern_and_mask r hr]
  calc encode (r.opcode.build op)
      = r.pattern ||| (op &&& r.opcode.operandMask) := by rw [encode_build, encode_build_zero r hr]
    _ = op &&& (r.mask ||| r.opcode.operandMask) := by rw [← hmatch, BitVec.and_or_distrib_left]
    _ = op &&& ~~~(r.opcode.build op).opcode.dontCareMask := by rw [mask_or_operandMask r hr, Opcode.build_opcode]

/-- Settles O2: the match in the statement is `dontCareMask` of the opcode. -/
theorem encodeOfDecodeDropsOnlyDontCares : Obligations.EncodeOfDecodeDropsOnlyDontCares := by
  intro op i h
  exact encode_of_decode h

end Sys2Proof
end

/-! ## Byte-oriented instructions (40_file_alu.md R130 to R150)

The execute of each is one of four forms: a result write followed by C, DC and Z, by Z, by C, or by no flag. Each form
has its result lemma and its flag lemma below; an obligation adds the result's value, the cycles and the word. -/
section
namespace Sys2Proof.Machine

/-! ### The adder and the subtractor (R131, R132) -/

theorem add8_r (a b : Byte) : (add8 a b).r = a + b := rfl

theorem add8_c (a b : Byte) : (add8 a b).c = decide (0x100 ≤ a.toNat + b.toNat) := rfl

theorem add8_dc (a b : Byte) : (add8 a b).dc = decide (0x10 ≤ a.toNat % 0x10 + b.toNat % 0x10) := rfl

theorem sub8_r (x y : Byte) : (sub8 x y).r = x - y := by
  apply BitVec.eq_of_toNat_eq
  rw [sub8, BitVec.toNat_ofNat, BitVec.toNat_sub]
  split <;> omega

theorem sub8_c (x y : Byte) : (sub8 x y).c = decide (y.toNat ≤ x.toNat) := by simp [sub8, ← decide_not]

theorem sub8_dc (x y : Byte) : (sub8 x y).dc = decide (y.toNat % 0x10 ≤ x.toNat % 0x10) := by
  simp [sub8, ← decide_not]

/-- The low nibble, as a mask and as a remainder. -/
theorem toNat_and_lowNibble (a : Byte) : (a &&& 0x0F#8).toNat = a.toNat % 0x10 := by
  rw [BitVec.toNat_and]
  exact Nat.and_two_pow_sub_one_eq_mod a.toNat 4

/-- Settles O39: the carry is what the sum has above 255, the borrow what the difference lacks. -/
theorem adderAndSubtractorAreExact : Obligations.AdderAndSubtractorAreExact := by
  refine ⟨fun a b => ⟨?_, ?_⟩, fun x y => ⟨?_, ?_, ?_⟩⟩
  · rw [add8_r, add8_c, BitVec.toNat_add]
    by_cases hcarry : 0x100 ≤ a.toNat + b.toNat <;> simp [hcarry] <;> omega
  · rw [add8_dc, decide_eq_true_iff, toNat_and_lowNibble, toNat_and_lowNibble]
  · rw [sub8_r, sub8_c, BitVec.toNat_sub]
    by_cases hle : y.toNat ≤ x.toNat <;> simp [hle] <;> omega
  · rw [sub8_c, decide_eq_true_iff]
  · rw [sub8_dc, decide_eq_true_iff, toNat_and_lowNibble, toNat_and_lowNibble]

/-! ### The results of the four forms (R130, R133) -/

theorem result_then_setZ (s : State) (d : Dest) (f : FileField) (r : Byte) :
    ByteResult s ((s.dest d f r keepFlags).setZ r) d f r keepFlags [(2, r == 0x00#8)] :=
  (dest_result s d f r (.inr rfl)).setStatusBit (by decide) _

theorem result_then_setC (s : State) (d : Dest) (f : FileField) (r : Byte) (c : Bool) :
    ByteResult s ((s.dest d f r keepFlags).setC c) d f r keepFlags [(0, c)] :=
  (dest_result s d f r (.inr rfl)).setStatusBit (by decide) c

theorem result_then_setCDCZ (s : State) (d : Dest) (f : FileField) (x : AluResult) :
    ByteResult s ((s.dest d f x.r keepFlags).setCDCZ x) d f x.r keepFlags
      [(0, x.c), (1, x.dc), (2, x.r == 0x00#8)] :=
  ((result_then_setC s d f x.r x.c).setStatusBit (by decide) x.dc).setStatusBit (by decide) _

/-- A result that goes to W is a literal operation's: with no cell written the mask has no part. -/
theorem ByteResult.literalResult {s t : State} {f : FileField} {r keep : Byte} {writes : List (Nat × Bool)}
    (h : ByteResult s t .toW f r keep writes) : LiteralResult s t r writes := by
  obtain ⟨hw, hstores, hupper, ⟨hstatus, hqueue⟩, hframe⟩ := h
  exact ⟨hw, hstores, hupper, ⟨hstatus, hqueue⟩, hframe⟩

/-! ### The flags of the four forms (10_state.md R36; R133) -/

theorem dest_flagsAre (s : State) (d : Dest) (f : FileField) (r : Byte) :
    FlagsAre (s.dest d f r keepFlags) s.flagC s.flagDC s.flagZ :=
  ⟨dest_flag_kept s d f r (by decide), dest_flag_kept s d f r (by decide), dest_flag_kept s d f r (by decide)⟩

theorem FlagsAre.setC {t : State} {c dc z : Bool} (h : FlagsAre t c dc z) (v : Bool) : FlagsAre (t.setC v) v dc z := by
  have hbit := setStatusBit_statusBit t (i := 0) (by decide) v
  exact ⟨hbit 0, (hbit 1).trans h.dc, (hbit 2).trans h.z⟩

theorem FlagsAre.setDC {t : State} {c dc z : Bool} (h : FlagsAre t c dc z) (v : Bool) :
    FlagsAre (t.setDC v) c v z := by
  have hbit := setStatusBit_statusBit t (i := 1) (by decide) v
  exact ⟨(hbit 0).trans h.c, hbit 1, (hbit 2).trans h.z⟩

theorem FlagsAre.setZ {t : State} {c dc z : Bool} (h : FlagsAre t c dc z) (r : Byte) :
    FlagsAre (t.setZ r) c dc (r == 0x00#8) := by
  have hbit := setStatusBit_statusBit t (i := 2) (by decide) (r == 0x00#8)
  exact ⟨(hbit 0).trans h.c, (hbit 1).trans h.dc, hbit 2⟩

theorem FlagsAre.setCDCZ {t : State} {c dc z : Bool} (h : FlagsAre t c dc z) (x : AluResult) :
    FlagsAre (t.setCDCZ x) x.c x.dc (x.r == 0x00#8) :=
  ((h.setC x.c).setDC x.dc).setZ x.r

theorem FlagsAre.setSkip {t : State} {c dc z : Bool} (h : FlagsAre t c dc z) (b : Bool) :
    FlagsAre (t.setSkip b) c dc z :=
  ⟨h.c, h.dc, h.z⟩

/-! ### C, DC and Z (R134, R148) -/

/-- Settles O40: the statement's result and flags are those of the adder and of the subtractor. -/
theorem byteArithmeticResults : Obligations.ByteArithmeticResults := by
  intro d f s
  have hresult (x : AluResult) := (result_then_setCDCZ s d f x).setSkip false
  have hflags (x : AluResult) := ((dest_flagsAre s d f x.r).setCDCZ x).setSkip false
  constructor
  · rw [← add8_r, ← add8_c, ← add8_dc]
    exact ⟨_, rfl, hresult _, hflags _, rfl, rfl, decodeOfEncodeIsTheInstruction (.addwf d f)⟩
  · rw [← sub8_r, ← sub8_c, ← sub8_dc]
    exact ⟨_, rfl, hresult _, hflags _, rfl, rfl, decodeOfEncodeIsTheInstruction (.subwf d f)⟩

/-! ### Z alone (R135 to R139, R141, R143, R144, R150) -/

/-- Every instruction whose execute is `resultZ`. -/
theorem zeroFlagResult_of_resultZ {i : Instr} {pattern : BitVec 6} {d : Dest} {f : FileField} {r : Byte} {s : State}
    (hexec : exec i s = resultZ d f r s) (hcycles : i.cycles = 1) (hdecode : decode (pattern ++ d.toBit ++ f) = .ok i) :
    ZeroFlagResult i pattern d f r s :=
  ⟨_, hexec, (result_then_setZ s d f r).setSkip false, ((dest_flagsAre s d f r).setZ r).setSkip false, rfl, hcycles,
    hdecode⟩

/-- Settles O41: the seven differ in their result only. -/
theorem zeroFlagOperationResults : Obligations.ZeroFlagOperationResults := by
  intro d f s
  have hdecode := decodeOfEncodeIsTheInstruction
  exact ⟨zeroFlagResult_of_resultZ rfl rfl (hdecode (.andwf d f)),
    zeroFlagResult_of_resultZ rfl rfl (hdecode (.comf d f)),
    zeroFlagResult_of_resultZ rfl rfl (hdecode (.decf d f)), zeroFlagResult_of_resultZ rfl rfl (hdecode (.incf d f)),
    zeroFlagResult_of_resultZ rfl rfl (hdecode (.iorwf d f)), zeroFlagResult_of_resultZ rfl rfl (hdecode (.movf d f)),
    zeroFlagResult_of_resultZ rfl rfl (hdecode (.xorwf d f))⟩

/-- Settles O45: both are the form of Z alone with the result 0, CLRW with W as its destination. -/
theorem clearResults : Obligations.ClearResults := by
  have hresult (s : State) (d : Dest) (f : FileField) := (result_then_setZ s d f 0x00#8).setSkip false
  have hflags (s : State) (d : Dest) (f : FileField) := ((dest_flagsAre s d f 0x00#8).setZ 0x00#8).setSkip false
  obtain ⟨hclrw, -⟩ := dontCareBitsDecodeAlike
  exact ⟨fun f s => ⟨_, rfl, hresult s .toF f, hflags s .toF f, rfl, rfl, decodeOfEncodeIsTheInstruction (.clrf f)⟩,
    fun s => ⟨_, rfl, (hresult s .toW 0#7).literalResult, hflags s .toW 0#7, rfl, rfl, hclrw⟩⟩

/-! ### C alone (R146, R147) -/

/-- The bits before the last `n` weigh `2 ^ n`. -/
theorem toNat_append_eq_add {m n : Nat} (x : BitVec m) (y : BitVec n) :
    (x ++ y).toNat = x.toNat * 2 ^ n + y.toNat := by
  rw [BitVec.toNat_append, ← Nat.shiftLeft_add_eq_or_of_lt y.isLt, Nat.shiftLeft_eq]

theorem toNat_bit (c : Bool) : (bit c).toNat = c.toNat := BitVec.toNat_ofBool c

/-- RLF's result: doubled, with the carry below. -/
theorem toNat_rotateLeft (v : Byte) (c : Bool) :
    (v.extractLsb' 0 7 ++ bit c : Byte).toNat = (2 * v.toNat + c.toNat) % 0x100 := by
  have hc := c.toNat_lt
  rw [toNat_append_eq_add, BitVec.extractLsb'_toNat, toNat_bit]
  omega

/-- RRF's result: halved, with the carry above. -/
theorem toNat_rotateRight (v : Byte) (c : Bool) :
    (bit c ++ v.extractLsb' 1 7 : Byte).toNat = 0x80 * c.toNat + v.toNat / 2 := by
  rw [toNat_append_eq_add, BitVec.extractLsb'_toNat, toNat_bit]
  omega

/-- Settles O43: each result is C joined to the seven bits that stay. -/
theorem rotateResults : Obligations.RotateResults := by
  intro d f s
  have hresult (r : Byte) (c : Bool) := (result_then_setC s d f r c).setSkip false
  have hflags (r : Byte) (c : Bool) := ((dest_flagsAre s d f r).setC c).setSkip false
  have hdecode := decodeOfEncodeIsTheInstruction
  exact ⟨⟨_, _, rfl, toNat_rotateLeft _ _, hresult _ _, hflags _ _, rfl, rfl, hdecode (.rlf d f)⟩,
    ⟨_, _, rfl, toNat_rotateRight _ _, hresult _ _, hflags _ _, rfl, rfl, hdecode (.rrf d f)⟩⟩

/-! ### No flag (R140, R142, R145, R149) -/

theorem result_without_flags (s : State) (d : Dest) (f : FileField) (r : Byte) (skip : Bool) :
    ByteResult s ((s.dest d f r keepTP).setSkip skip) d f r keepTP [] :=
  (dest_result s d f r (.inl rfl)).setSkip skip

/-- Settles O42: the decrement is zero from 1 alone, the increment from 0xFF alone. -/
theorem skipOnZeroResults : Obligations.SkipOnZeroResults := by
  intro d f s
  have hdec (v : Byte) : (v - 1#8 == 0x00#8) = true ↔ v = 0x01#8 := by
    rw [beq_iff_eq]
    exact sub_eq_zero
  have hinc (v : Byte) : (v + 1#8 == 0x00#8) = true ↔ v = 0xFF#8 := by
    rw [beq_iff_eq]
    exact add_eq_zero_iff_eq_neg
  exact ⟨⟨_, rfl, result_without_flags s d f _ _, dest_flagsAsData s d f _, hdec _, rfl,
      decodeOfEncodeIsTheInstruction (.decfsz d f)⟩,
    ⟨_, rfl, result_without_flags s d f _ _, dest_flagsAsData s d f _, hinc _, rfl,
      decodeOfEncodeIsTheInstruction (.incfsz d f)⟩⟩

/-- SWAPF's result: the nibbles exchanged. -/
theorem toNat_swapNibbles (v : Byte) : (v.extractLsb' 0 4 ++ v.extractLsb' 4 4 : Byte).toNat =
    0x10 * (v.toNat % 0x10) + v.toNat / 0x10 := by
  rw [toNat_append_eq_add, BitVec.extractLsb'_toNat, BitVec.extractLsb'_toNat]
  omega

/-- Settles O44: MOVWF is the form with f as its destination. -/
theorem swapAndStoreResults : Obligations.SwapAndStoreResults :=
  ⟨fun d f s => ⟨_, _, rfl, toNat_swapNibbles _, result_without_flags s d f _ false, dest_flagsAsData s d f _, rfl,
      rfl, decodeOfEncodeIsTheInstruction (.swapf d f)⟩,
    fun f s => ⟨_, rfl, result_without_flags s .toF f s.w false, dest_flagsAsData s .toF f s.w, rfl, rfl,
      decodeOfEncodeIsTheInstruction (.movwf f)⟩⟩

end Sys2Proof.Machine
end

/-! ## Literal operations (41_literal.md R180 to R186)

A literal operation's execute is a byte-oriented form with W as its destination, where the file field plays no part: its
result and flag lemmas are those of the form. -/
section
namespace Sys2Proof.Machine

/-! ### C, DC and Z (R181, R182) -/

/-- Settles O46: the statement's result and flags are those of the adder and of the subtractor. -/
theorem literalArithmeticResults : Obligations.LiteralArithmeticResults := by
  intro k s
  have hresult (x : AluResult) := ((result_then_setCDCZ s .toW 0#7 x).setSkip false).literalResult
  have hflags (x : AluResult) := ((dest_flagsAre s .toW 0#7 x.r).setCDCZ x).setSkip false
  obtain ⟨-, -, -, haddlw, hsublw⟩ := dontCareBitsDecodeAlike
  constructor
  · rw [← add8_r, ← add8_c, ← add8_dc]
    exact ⟨_, rfl, hresult _, hflags _, rfl, rfl, fun x => haddlw x k⟩
  · rw [← sub8_r, ← sub8_c, ← sub8_dc]
    exact ⟨_, rfl, hresult _, hflags _, rfl, rfl, fun x => hsublw x k⟩

/-! ### Z alone, and no flag (R180, R183 to R185) -/

/-- Settles O47: the three logical operations differ in their result only, and MOVLW writes no flag. -/
theorem literalMoveAndLogicalResults : Obligations.LiteralMoveAndLogicalResults := by
  intro k s
  have hresult (r : Byte) := ((result_then_setZ s .toW 0#7 r).setSkip false).literalResult
  have hflags (r : Byte) := ((dest_flagsAre s .toW 0#7 r).setZ r).setSkip false
  have hdecode := decodeOfEncodeIsTheInstruction
  obtain ⟨-, hmovlw, -⟩ := dontCareBitsDecodeAlike
  exact ⟨⟨_, rfl, (result_without_flags s .toW 0#7 k false).literalResult, (dest_flagsAre s .toW 0#7 k).setSkip false,
      rfl, rfl, fun x => hmovlw x k⟩,
    ⟨_, rfl, hresult _, hflags _, rfl, rfl, hdecode (.andlw k)⟩,
    ⟨_, rfl, hresult _, hflags _, rfl, rfl, hdecode (.iorlw k)⟩,
    ⟨_, rfl, hresult _, hflags _, rfl, rfl, hdecode (.xorlw k)⟩⟩

/-! ### Moving the PC (10_state.md R22, R23) -/

/-- `setPC` jumps, also past changes of W, the stack or SP. -/
theorem setPC_jumpsTo {s u : State} (hparams : u.params = s.params) (hregs : u.regs = s.regs) (hpch : u.pch = s.pch)
    (v : ProgAddr) : JumpsTo s (u.setPC v) v := by
  have hcell (c : RegAddr) : u.cell c = s.cell c := by rw [State.cell, State.cell, hregs]
  refine ⟨setPC_getPC u v, ?_, fun c hpcl hpclath _ => ?_, fun hmodel => ?_⟩
  · rw [setPC_cell, if_neg (by decide), hparams, hcell]
    cases s.params.pcModel <;> simp
  · rw [setPC_cell, if_neg hpcl, if_neg (hpclath ·.1), hcell]
  · rw [setPC_pch, hparams, hmodel, hpch]

theorem JumpsTo.setSkip {s t : State} {v : ProgAddr} (h : JumpsTo s t v) (b : Bool) : JumpsTo s (t.setSkip b) v :=
  ⟨h.pc, h.pclath, h.cells, h.pch⟩

theorem setPC_intcon (s : State) (v : ProgAddr) : (s.setPC v).cell Cell.intcon = s.cell Cell.intcon := by
  rw [setPC_cell, if_neg (by decide), if_neg (by simp [Cell.intcon, Cell.pclath])]

theorem ControlFrame.setPC {s t : State} (h : ControlFrame s t) (v : ProgAddr) : ControlFrame s (t.setPC v) :=
  have hsame := setPC_onlyRegs t v
  ⟨h.engine.trans hsame.engine, hsame.sleeping.trans h.sleeping, hsame.timer0.trans h.timer0⟩

theorem ControlFrame.setSkip {s t : State} (h : ControlFrame s t) (b : Bool) : ControlFrame s (t.setSkip b) :=
  ⟨h.engine.setSkip b, h.sleeping, h.timer0⟩

/-! ### Returns (R186; 43_control.md R212) -/

theorem setW_pop_controlFrame (s : State) (k : Byte) : ControlFrame s (s.setW k).pop :=
  ⟨(setW_engineSame s k).trans (pop_engineSame _), rfl, rfl⟩

/-- Settles O51: RETURN is RETLW with W's own value as the literal. -/
theorem returnsPopThePc : Obligations.ReturnsPopThePc := by
  have hjump (k : Byte) (s : State) := (setPC_jumpsTo (s := s) (u := (s.setW k).pop) rfl rfl rfl s.top).setSkip false
  have hsame (k : Byte) (s : State) := setPC_onlyRegs (s.setW k).pop s.top
  have hframe (k : Byte) (s : State) := ((setW_pop_controlFrame s k).setPC s.top).setSkip false
  obtain ⟨-, -, hretlw, -⟩ := dontCareBitsDecodeAlike
  exact ⟨fun k s => ⟨_, rfl, hjump k s, setPC_intcon _ _, setPC_notifyQueue _ _, (hsame k s).w, (hsame k s).sp,
      (hsame k s).stack, hframe k s, rfl, rfl, fun x => hretlw x k⟩,
    fun s => ⟨_, rfl, hjump s.w s, setPC_intcon _ _, setPC_notifyQueue _ _, (hsame s.w s).w, (hsame s.w s).sp,
      (hsame s.w s).stack, hframe s.w s, rfl, rfl, decodeOfEncodeIsTheInstruction .ret⟩⟩

end Sys2Proof.Machine
end

/-! ## Bit operations (42_bit.md R200 to R203)

BCF and BSF are the byte-oriented form that writes no flag, with f as its destination; BTFSC and BTFSS write nothing. -/
section
namespace Sys2Proof.Machine

/-! ### One bit changed (R200, R201) -/

/-- BCF's result: bit `b` cleared. -/
theorem withBit_false_getLsbD (x : Byte) (b : BitNumber) (j : Nat) :
    (withBit x b.toNat false).getLsbD j = (x.getLsbD j && decide (j ≠ b.toNat)) := by
  rw [withBit_getLsbD x b.isLt, Bool.if_false_left, Bool.and_comm, ← decide_not]
  simp only [ne_eq, eq_comm]

/-- BSF's result: bit `b` set. -/
theorem withBit_true_getLsbD (x : Byte) (b : BitNumber) (j : Nat) :
    (withBit x b.toNat true).getLsbD j = (x.getLsbD j || decide (j = b.toNat)) := by
  rw [withBit_getLsbD x b.isLt, Bool.if_true_left, Bool.or_comm]
  simp only [eq_comm]

/-- Settles O48: the two differ in the value of the one bit. -/
theorem bitWriteResults : Obligations.BitWriteResults := by
  intro b f s
  have hresult (r : Byte) := result_without_flags s .toF f r false
  have hflags (r : Byte) := dest_flagsAsData s .toF f r
  have hdecode := decodeOfEncodeIsTheInstruction
  exact ⟨⟨_, _, rfl, withBit_false_getLsbD _ b, hresult _, hflags _, rfl, rfl, hdecode (.bcf b f)⟩,
    ⟨_, _, rfl, withBit_true_getLsbD _ b, hresult _, hflags _, rfl, rfl, hdecode (.bsf b f)⟩⟩

/-! ### One bit tested (R202, R203) -/

/-- Settles O49: the execute only sets skip, and a file field that reaches no cell reads as 0 (R92). -/
theorem bitTestResults : Obligations.BitTestResults := by
  intro b f s
  have hdecode := decodeOfEncodeIsTheInstruction
  exact ⟨⟨rfl, rfl, hdecode (.btfsc b f)⟩, ⟨rfl, rfl, hdecode (.btfss b f)⟩, memRead_none⟩

end Sys2Proof.Machine
end

/-! ## Control flow and system instructions (43_control.md R210 to R219)

GOTO, CALL and RETFIE move the PC by `setPC`, whose laws stand above; SLEEP and CLRWDT share one update of STATUS and the
prescaler. -/
section
namespace Sys2Proof.Machine

/-! ### Jumps (R210, R211, R217, R218) -/

theorem push_controlFrame (s : State) (v : ProgAddr) : ControlFrame s (s.push v) := ⟨push_engineSame s v, rfl, rfl⟩

theorem setPC_top (s : State) (v : ProgAddr) : (s.setPC v).top = s.top := by
  unfold State.setPC
  cases s.params.pcModel <;> rfl

/-- Settles O50: GOTO is a `setPC`, CALL the same after a push, which changes no cell and neither PCH nor a parameter. -/
theorem gotoAndCallJumpToTheirTarget : Obligations.GotoAndCallJumpToTheirTarget := by
  intro k s
  have hdecode := decodeOfEncodeIsTheInstruction
  constructor
  · have hjump := setPC_jumpsTo (s := s) (u := s) rfl rfl rfl (s.target k)
    have hsame := setPC_onlyRegs s (s.target k)
    have hself : ControlFrame s s := ⟨EngineSame.rfl, rfl, rfl⟩
    exact ⟨_, rfl, hjump.setSkip false, setPC_intcon _ _, setPC_notifyQueue _ _, hsame.w, hsame.stack, hsame.sp,
      (hself.setPC _).setSkip false, rfl, rfl, hdecode (.goto k)⟩
  · have hjump := setPC_jumpsTo (s := s) (u := s.push s.getPC) rfl rfl rfl (s.target k)
    have hsame := setPC_onlyRegs (s.push s.getPC) (s.target k)
    have htop := (setPC_top (s.push s.getPC) (s.target k)).trans (push_top s s.getPC)
    have hkept (j : Fin 8) (hj : j.val ≠ (s.sp - 1#3).toNat) :
        ((s.push s.getPC).setPC (s.target k)).stack[j] = s.stack[j] := by
      rw [hsame.stack, push_stack, if_neg hj]
    exact ⟨_, rfl, hjump.setSkip false, setPC_intcon _ _, setPC_notifyQueue _ _, hsame.w, hsame.sp, htop, hkept,
      ((push_controlFrame s _).setPC _).setSkip false, rfl, rfl, hdecode (.call k)⟩

/-! ### Return from interrupt (R213, R219; 60_exceptions.md R276) -/

/-- Replacing a bit leaves the byte as it is exactly when the bit has that value already. -/
theorem withBit_eq_self_iff (x : Byte) {i : Nat} (hi : i < 8) (v : Bool) : withBit x i v = x ↔ x.getLsbD i = v := by
  constructor
  · intro h
    rw [← h, withBit_getLsbD x hi, if_pos rfl]
  · rintro rfl
    refine BitVec.eq_of_getLsbD_eq fun j _ => ?_
    rw [withBit_getLsbD x hi]
    split
    · next hij => rw [hij]
    · rfl

theorem setGIE_cell_other (s : State) (b : Bool) {c : RegAddr} (hc : c ≠ Cell.intcon) :
    (s.setGIE b).cell c = s.cell c := by
  rw [State.setGIE, writeDirect_cell, if_neg hc.symm]

theorem setGIE_true_intcon (s : State) : (s.setGIE true).cell Cell.intcon = s.cell Cell.intcon ||| 0x80#8 := by
  rw [State.setGIE, writeDirect_cell, if_pos rfl]
  rfl

/-- INTCON changes, and is notified, exactly when GIE was clear. -/
theorem setGIE_true_notifyQueue (s : State) : (s.setGIE true).notifyQueue = s.notifyQueue ++
    (if s.gie then [] else [.notify .intcon (s.cell Cell.intcon) (s.cell Cell.intcon ||| 0x80#8)]) := by
  rw [State.setGIE, writeDirect_notifyQueue, notifyRecords_intcon]
  simp only [withBit_eq_self_iff _ (show 7 < 8 by decide)]
  rfl

theorem setGIE_getPC (s : State) (b : Bool) : (s.setGIE b).getPC = s.getPC := by
  have hpcl := setGIE_cell_other s b (c := Cell.pcl) (by decide)
  have hpclath := setGIE_cell_other s b (c := Cell.pclath) (by decide)
  rw [State.getPC, State.pcHigh, hpcl, hpclath]
  rfl

theorem JumpsTo.setGIE {s t : State} {v : ProgAddr} (h : JumpsTo s t v) (b : Bool) : JumpsTo s (t.setGIE b) v :=
  ⟨(setGIE_getPC t b).trans h.pc, (setGIE_cell_other t b (by decide)).trans h.pclath,
    fun c hpcl hpclath hintcon => (setGIE_cell_other t b hintcon).trans (h.cells c hpcl hpclath hintcon), h.pch⟩

theorem ControlFrame.setGIE {s t : State} (h : ControlFrame s t) (b : Bool) : ControlFrame s (t.setGIE b) :=
  have hsame := setGIE_onlyRegs t b
  ⟨h.engine.trans hsame.engine, hsame.sleeping.trans h.sleeping, hsame.timer0.trans h.timer0⟩

/-- Settles O52: RETFIE is RETURN's jump and then GIE set; before that INTCON is the one at the start. -/
theorem retfiePopsThePcAndSetsGie : Obligations.RetfiePopsThePcAndSetsGie := by
  intro s
  have hjump := setPC_jumpsTo (s := s) (u := s.pop) rfl rfl rfl s.top
  have hintcon : (s.pop.setPC s.top).cell Cell.intcon = s.cell Cell.intcon := setPC_intcon s.pop s.top
  have hqueue := setGIE_true_notifyQueue (s.pop.setPC s.top)
  rw [State.gie, State.intconBit, hintcon, setPC_notifyQueue] at hqueue
  have hsame := (setPC_onlyRegs s.pop s.top).trans (setGIE_onlyRegs _ true)
  have hpop : ControlFrame s s.pop := setW_pop_controlFrame s s.w
  exact ⟨_, rfl, (hjump.setGIE true).setSkip false, (setGIE_true_intcon _).trans (by rw [hintcon]), hqueue, hsame.w,
    hsame.sp, hsame.stack, ((hpop.setPC _).setGIE true).setSkip false, rfl, rfl,
    decodeOfEncodeIsTheInstruction .retfie⟩

/-! ### SLEEP and CLRWDT (R214, R215, R219) -/

theorem setStatusTP_status (s : State) (tmo pd : Bool) :
    (s.setStatusTP tmo pd).cell Cell.status = withBit (withBit (s.cell Cell.status) 4 tmo) 3 pd := by
  rw [State.setStatusTP, writeDirect_cell, if_pos rfl]

theorem setStatusTP_cell_other (s : State) (tmo pd : Bool) {c : RegAddr} (hc : c ≠ Cell.status) :
    (s.setStatusTP tmo pd).cell c = s.cell c := by
  rw [State.setStatusTP, writeDirect_cell, if_neg hc.symm]

theorem clearWdtPrescaler_eq (s : State) : s.clearWdtPrescaler =
    s.setTimer0 { s.timer0 with presc := if s.psa then 0#8 else s.timer0.presc } := by
  rw [State.clearWdtPrescaler]
  split <;> rfl

/-- The update the two instructions share: TO and PD, and the prescaler if it is the watchdog's. -/
def State.clearWatchdog (s : State) (pd : Bool) : State := (s.setStatusTP true pd).clearWdtPrescaler

theorem clearWatchdog_cell (s : State) (pd : Bool) (c : RegAddr) :
    (s.clearWatchdog pd).cell c = (s.setStatusTP true pd).cell c := by
  rw [State.clearWatchdog, clearWdtPrescaler_eq, setTimer0_cell]

theorem clearWatchdog_timer0 (s : State) (pd : Bool) : WdtPrescalerCleared s (s.clearWatchdog pd) := by
  have hpsa : (s.setStatusTP true pd).psa = s.psa := by
    rw [State.psa, State.optionBit, setStatusTP_cell_other s true pd (by decide)]
    rfl
  rw [WdtPrescalerCleared, State.clearWatchdog, clearWdtPrescaler_eq, hpsa]
  rfl

theorem clearWatchdog_sleeping (s : State) (pd : Bool) : (s.clearWatchdog pd).sleeping = s.sleeping := by
  rw [State.clearWatchdog, clearWdtPrescaler_eq]
  rfl

theorem clearWatchdog_powerFrame (s : State) (pd : Bool) : PowerFrame s (s.clearWatchdog pd) := by
  have hengine : EngineSame s (s.clearWatchdog pd) :=
    (setStatusTP_onlyRegs s true pd).engine.trans (clearWdtPrescaler_engineSame _)
  rw [State.clearWatchdog, clearWdtPrescaler_eq] at hengine ⊢
  refine ⟨fun c hc => ?_, ?_, rfl, rfl, rfl, rfl, hengine⟩
  · rw [setTimer0_cell, setStatusTP_cell_other s true pd hc]
  · rw [setTimer0_cell, setTimer0_notifyQueue, setStatusTP_status, State.setStatusTP, writeDirect_notifyQueue,
      notifyRecords_status]

theorem PowerFrame.setSkip {s t : State} (h : PowerFrame s t) (b : Bool) : PowerFrame s (t.setSkip b) :=
  have ⟨hcells, hqueue, hw, hpch, hstack, hsp, hengine⟩ := h
  ⟨hcells, hqueue, hw, hpch, hstack, hsp, hengine.setSkip b⟩

theorem PowerFrame.setSleeping {s t : State} (h : PowerFrame s t) (b : Bool) : PowerFrame s (t.setSleeping b) :=
  have ⟨hcells, hqueue, hw, hpch, hstack, hsp, hengine⟩ := h
  ⟨hcells, hqueue, hw, hpch, hstack, hsp, hengine.trans (setSleeping_engineSame t b)⟩

/-- The wake condition reads INTCON, PIE1 and PIR1 (60_exceptions.md R275). -/
theorem PowerFrame.wakeCondition {s t : State} (h : PowerFrame s t) : t.wakeCondition = s.wakeCondition := by
  obtain ⟨hcells, -⟩ := h
  simp only [State.wakeCondition, State.intconBit, hcells Cell.intcon (by decide), hcells Cell.pie1 (by decide),
    hcells Cell.pir1 (by decide)]

/-- SLEEP as the shared update and one write of `sleeping`: the wake condition is the one at its start. -/
theorem exec_sleep (s : State) : exec .sleep s =
    ((s.clearWatchdog false).setSleeping (if s.wakeCondition then s.sleeping else true)).complete false := by
  have hwake := (clearWatchdog_powerFrame s false).wakeCondition
  show (if (s.clearWatchdog false).wakeCondition then _ else _ : State).complete false = _
  rw [hwake]
  split
  · rw [← clearWatchdog_sleeping s false]
    rfl
  · rfl

/-- Settles O53: CLRWDT is the shared update with PD set, SLEEP the same with PD cleared and then sleep. -/
theorem sleepAndClrwdtResults : Obligations.SleepAndClrwdtResults := by
  intro s
  have hdecode := decodeOfEncodeIsTheInstruction
  have hstatus (pd : Bool) := (clearWatchdog_cell s pd Cell.status).trans (setStatusTP_status s true pd)
  have hsleep : ∀ x : Byte, withBit (withBit x 4 true) 3 false = (x &&& 0xE7#8) ||| 0x10#8 := by decide +kernel
  have hclrwdt : ∀ x : Byte, withBit (withBit x 4 true) 3 true = x ||| 0x18#8 := by decide +kernel
  have hpresc := clearWatchdog_timer0 s
  have hframe := clearWatchdog_powerFrame s
  constructor
  · exact ⟨_, exec_sleep s, (hstatus false).trans (hsleep _), hpresc false, rfl,
      ((hframe false).setSleeping _).setSkip false, rfl, rfl, hdecode .sleep⟩
  · exact ⟨_, rfl, (hstatus true).trans (hclrwdt _), hpresc true, clearWatchdog_sleeping s true,
      (hframe true).setSkip false, rfl, rfl, hdecode .clrwdt⟩

/-! ### NOP (R216) -/

/-- Settles O54: the execute only returns no skip. -/
theorem nopChangesNothing : Obligations.NopChangesNothing :=
  fun _ => ⟨rfl, rfl, decodeOfEncodeIsTheInstruction .nop⟩

end Sys2Proof.Machine
end

/-! ## The execution engine (45_execution_engine.md R230 to R241)

What a cycle step is depends on what holds the fetch back; the laws `cycleStep_…` say it case by case. Here stand the
frames of the fetch advance and of the interrupt entry, and what a step makes of a word the host placed. -/
section
namespace Sys2Proof.Machine

/-! ### Gate, sleep and wake (R231; 60_exceptions.md R275) -/

theorem cycleStep_gated {s : State} (h : s.paused = true ∧ s.stepBudget = 0) : s.cycleStep = .next s := by
  have hgate : s.gatedByPause = true := by simpa [State.gatedByPause] using h
  rw [State.cycleStep, if_pos hgate, ite_self]

/-- The wake condition, source by source. -/
theorem wakeCondition_iff (s : State) : s.wakeCondition = true ↔
    (s.intconBit 5 = true ∧ s.intconBit 2 = true) ∨ (s.intconBit 4 = true ∧ s.intconBit 1 = true) ∨
    (s.intconBit 3 = true ∧ s.intconBit 0 = true) ∨
    (s.intconBit 6 = true ∧ s.cell Cell.pie1 &&& s.cell Cell.pir1 ≠ 0x00#8) := by
  simp [State.wakeCondition, or_assoc]

theorem sleepCycle_awake {s : State} (h : s.wakeCondition = true) :
    s.sleepCycle = { s with sleeping := false, wakeOne := true } := if_pos h

theorem sleepCycle_asleep {s : State} (h : ¬ s.wakeCondition = true) : s.sleepCycle = s := if_neg h

/-- Settles O16: fault and pause are tested first, and a sleeping device only tests the wake condition. -/
theorem gatedCycleStepDoesNothing : Obligations.GatedCycleStepDoesNothing := by
  refine ⟨fun s h => h.elim cycleStep_faulted cycleStep_gated, fun s hf hp hs => ?_⟩
  rw [cycleStep_asleep hf hp hs, ← wakeCondition_iff]
  exact ⟨fun h => by rw [sleepCycle_awake h], fun h => by rw [sleepCycle_asleep h]⟩

/-! ### Stall (R232) -/

/-- Settles O12: the second clause is the cycle column of Table E1. -/
theorem stallCycleOnlyCountsDown : Obligations.StallCycleOnlyCountsDown := by
  refine ⟨fun s => cycleStep_stalled, fun s i => ?_, fun s => rfl⟩
  cases i <;> rfl

/-! ### The fetch advance (R233, R234) -/

/-- The advance as its PC move last: what stands before it moves no cell. -/
theorem fetchAdvance_eq_setPC (s : State) (i : Instr) : s.fetchAdvance i =
    (((s.setPending (i.cycles - 1)).setWakeOne false).setSkip false).setPC (s.nextAddr s.fetchAddr) := by
  unfold State.fetchAdvance State.setPC
  simp only [setSkip_params, setWakeOne_params, setPending_params]
  cases s.params.pcModel <;> rfl

theorem fetchAdvance_onlyRegs (s : State) (i : Instr) :
    OnlyRegs (((s.setPending (i.cycles - 1)).setWakeOne false).setSkip false) (s.fetchAdvance i) := by
  rw [fetchAdvance_eq_setPC]
  exact setPC_onlyRegs _ _

theorem fetchAdvance_jumpsTo (s : State) (i : Instr) : JumpsTo s (s.fetchAdvance i) (s.nextAddr s.fetchAddr) := by
  rw [fetchAdvance_eq_setPC]
  exact setPC_jumpsTo (s := s) (u := ((s.setPending (i.cycles - 1)).setWakeOne false).setSkip false) rfl rfl rfl _

theorem fetchAdvance_cell_other (s : State) (i : Instr) {c : RegAddr} (hpcl : c ≠ Cell.pcl)
    (hpclath : c ≠ Cell.pclath) : (s.fetchAdvance i).cell c = s.cell c := by
  rw [fetchAdvance_eq_setPC, setPC_cell, if_neg hpcl, if_neg (hpclath ·.1)]
  rfl

theorem fetchAdvance_notifyQueue (s : State) (i : Instr) : (s.fetchAdvance i).notifyQueue = s.notifyQueue := by
  rw [fetchAdvance_eq_setPC, setPC_notifyQueue]
  rfl

/-- A flash address fits the PC: every legal `FLASH_SIZE` is at most 2 ^ 13 (00_scope.md R5). -/
theorem toNat_ofNat_mod_flashSize {p : Params} (h : p.wf = true) (n : Nat) :
    (BitVec.ofNat 13 (n % p.flashSize)).toNat = n % p.flashSize := by
  have hsize : p.flashSize = 1024 ∨ p.flashSize = 2048 ∨ p.flashSize = 4096 := by
    simpa [Params.wf, or_assoc] using h
  have hlt : n % p.flashSize < p.flashSize := Nat.mod_lt n (by omega)
  rw [BitVec.toNat_ofNat, Nat.mod_eq_of_lt (by omega)]

/-- Settles O9: the advance is a `setPC` on the cleared skip, the stall and the cleared `wake_one`. -/
theorem fetchAdvanceMovesToTheNextWord : Obligations.FetchAdvanceMovesToTheNextWord := by
  intro s i hwf
  have hjump := fetchAdvance_jumpsTo s i
  have hsame := fetchAdvance_onlyRegs s i
  refine ⟨?_, toNat_ofNat_mod_flashSize hwf _, hsame.engine.pendingCycles, hsame.engine.wakeOne, hsame.skip, ?_,
    fun c hpcl hpclath => fetchAdvance_cell_other s i hpcl hpclath, hsame.w, hsame.stack, hsame.sp,
    fetchAdvance_notifyQueue s i, hsame.sleeping, hsame.timer0, hjump.pch, ?_⟩
  · rw [fetchAdvance_getPC]
    exact toNat_ofNat_mod_flashSize hwf _
  · rw [fetchAdvance_getPC]
    exact hjump.pclath
  · exact (EngineSame.rfl.setSkip false).trans hsame.engine

/-! ### The phantom NOP (R233; 70_reset_and_hazards.md R341) -/

theorem fetchWord_skip {s : State} (h : s.skip = true) : s.fetchWord = 0x0000#14 := if_pos h

/-- The pair that runs in place of a skipped word: the advance, and nothing else. -/
theorem fetchExecute_skip {s : State} (h : s.skip = true) : s.fetchExecute =
    .next ((((s.fetchAdvance .nop).setSkip false).useBudget).trace .exec (some 0x0000#14) s.fetchAddr) := by
  have hnop : decode s.fetchWord = .ok .nop := by
    rw [fetchWord_skip h]
    exact decodeOfEncodeIsTheInstruction .nop
  rw [fetchExecute_ok hnop rfl, fetchWord_skip h]

/-- Settles O13: a set skip holds back the interrupt, and NOP's pair is the fetch advance. -/
theorem skippedWordRunsAsPhantomNop : Obligations.SkippedWordRunsAsPhantomNop := by
  intro s hf hp hs hc hskip
  have hdue : ¬ s.interruptDue = true := by simp [State.interruptDue, hskip]
  have hrun := ((cycleStep_ready hf hp hs hc).trans (if_neg hdue)).trans (fetchExecute_skip hskip)
  have hsame := fetchAdvance_onlyRegs s .nop
  have hpc := fetchAdvance_getPC s .nop
  have hqueue := fetchAdvance_notifyQueue s .nop
  have hcells (c : RegAddr) := fetchAdvance_cell_other s .nop (c := c)
  generalize s.fetchAdvance .nop = u at hrun hsame hpc hqueue hcells
  have hengine := hsame.engine
  refine ⟨_, hrun, hpc, rfl, hengine.fault.trans hf, hengine.pendingCycles, hsame.w, hsame.stack, hsame.sp,
    hsame.timer0, hsame.sleeping.trans hs, hqueue, hengine.wakeOne, congrArg (· - 2) hengine.stepBudget,
    hengine.paused, hengine.clock, hengine.controlQueue, hcells, ?_⟩
  show u.outputs ++ [.trace .exec _ _ u.sp u.w] = _
  rw [hengine.outputs, hsame.sp, hsame.w]
  rfl

/-! ### Interrupts (R235; 60_exceptions.md R262, R271) -/

theorem interruptDue_iff (s : State) : s.interruptDue = true ↔
    s.params.interruptModel = .vectored ∧ s.skip = false ∧ s.wakeOne = false ∧ s.intconBit 7 = true ∧
      s.wakeCondition = true := by
  simp [State.interruptDue, State.irq, State.gie, and_assoc]

/-- An interrupt entry is a push and a stall cycle, and beyond that changes only registers (60_exceptions.md R272). -/
theorem interruptEntry_onlyRegs (s : State) : OnlyRegs ((s.push s.getPC).setPending 1) s.interruptEntry := by
  have hsame := (setGIE_onlyRegs (s.push s.getPC) false).trans (setPC_onlyRegs _ interruptVector)
  exact { hsame with engine := { hsame.engine with pendingCycles := rfl } }

theorem interruptCycle_eq (s : State) : s.interruptCycle = { s.interruptEntry with
    stepBudget := s.stepBudget - 2
    outputs := s.outputs ++ [.trace .interrupt none 0x0004#13 (s.sp - 1#3) s.w] } := by
  have hsame := interruptEntry_onlyRegs s
  have hbudget : s.interruptEntry.stepBudget = s.stepBudget := hsame.engine.stepBudget
  have houtputs : s.interruptEntry.outputs = s.outputs := hsame.engine.outputs
  have hsp : s.interruptEntry.sp = s.sp - 1#3 := hsame.sp
  have hw : s.interruptEntry.w = s.w := hsame.w
  rw [← hbudget, ← houtputs, ← hsp, ← hw]
  rfl

/-- Settles O15: of the five cases of the cycle step two are left, and `interruptDue` tells them apart. -/
theorem interruptIsTakenExactlyWhenDue : Obligations.InterruptIsTakenExactlyWhenDue := by
  intro s hf hp hs hc
  rw [← wakeCondition_iff, ← interruptDue_iff, cycleStep_ready hf hp hs hc]
  exact ⟨fun hdue => by rw [if_pos hdue, interruptCycle_eq], fun hdue => if_neg hdue⟩

/-! ### The step budget (R237) -/

/-- What a paused engine's last pair leaves is gated. -/
theorem budget_used_up {t : State} (hf : t.fault = none) (hp : t.paused = true) (hb : t.stepBudget = 0) :
    t.stepBudget = (if t.fault = none then 0 else 2) ∧ t.cycleStep = .next t :=
  ⟨by rw [if_pos hf, hb], cycleStep_gated ⟨hp, hb⟩⟩

/-- Settles O17: an interrupt entry and an execute use the budget up; a decode fault keeps it, and holds the engine. -/
theorem pausedEngineRunsExactlyOnePair : Obligations.PausedEngineRunsExactlyOnePair := by
  intro s t hf hp hb hs hc h
  rw [cycleStep_ready hf (by simp [hb]) hs hc] at h
  split at h
  · cases h
    have hengine := (interruptEntry_onlyRegs s).engine
    exact budget_used_up (hengine.fault.trans hf) (hengine.paused.trans hp)
      (congrArg (· - 2) (hengine.stepBudget.trans hb))
  · cases hd : decode s.fetchWord with
    | rejected e =>
      rw [fetchExecute_rejected hd] at h
      cases h
      exact ⟨hb, cycleStep_faulted (by simp [State.raiseDecodeFault])⟩
    | ok i =>
      obtain ⟨u, hu⟩ := exec_next i (s.fetchAdvance i)
      rw [fetchExecute_ok hd hu] at h
      cases h
      have hengine := (fetchAdvance_onlyRegs s i).engine.trans (exec_engineSame hu)
      exact budget_used_up (hengine.fault.trans hf) (hengine.paused.trans hp)
        (congrArg (· - 2) (hengine.stepBudget.trans hb))

/-! ### One instruction as a step (R230; 60_exceptions.md R300, R310) -/

theorem clockToggle_startQ1 {u : State} (hr : u.clock.running = true) (ho : u.clock.osc = false)
    (hp : u.clock.phase = .q4) :
    u.clockToggle = andThen (u.setClock u.clock.toggle).cycleStep fun t => .next (t.queueClkout .q1) := by
  simp [State.clockToggle, ClockGen.toggle, hr, ho, hp, Phase.succ]

/-- Settles O7: the toggle that starts Q1 runs the cycle step, and that the one fetch and execute. -/
theorem stepRunsTheDecodedInstruction : Obligations.StepRunsTheDecodedInstruction := by
  intro s u t i hu hr ho hq hf hp hs hc hdue hd he
  have hcycle : (u.setClock u.clock.toggle).cycleStep =
      .next (t.useBudget.trace .exec (some u.fetchWord) u.fetchAddr) := by
    have hnot : ¬ (u.setClock u.clock.toggle).interruptDue = true := by
      show ¬ u.interruptDue = true
      simp [hdue]
    rw [cycleStep_ready (s := u.setClock u.clock.toggle) hf hp hs hc, if_neg hnot]
    exact fetchExecute_ok hd he
  rw [step_of_beforeClock hu, clockToggle_startQ1 hr ho hq, hcycle]
  rfl

/-! ### A placed word (60_exceptions.md R323; log entry 9) -/

theorem drainControl_of_empty {s : State} (h : s.controlQueue = []) : s.drainControl = s := by
  unfold State.drainControl
  rw [h]
  show { s with controlQueue := [] } = s
  rw [← h]

/-- With no input and no control event waiting, a tick comes to its clock by the drain alone. -/
theorem beforeClock_quiet {s : State} (hin : s.nextInput = { envWrites := [], controlEvents := [] })
    (hq : s.controlQueue = []) : s.beforeClock = .next (s.openTick.drain s.notifyQueue) := by
  have happly : s.openTick.applyInput s.nextInput = .next s.openTick := by
    rw [hin]
    show Host.Outcome.next { s.openTick with controlQueue := s.openTick.controlQueue ++ [] } = _
    rw [List.append_nil]
  have hempty : (s.openTick.drain s.notifyQueue).controlQueue = [] :=
    (drain_onlyTimer s.openTick s.notifyQueue).controlQueue.trans hq
  rw [State.beforeClock, happly]
  exact congrArg Host.Outcome.next (drainControl_of_empty hempty)

/-- The word a fetch takes lies out of Timer0's reach. -/
theorem OnlyTimer.fetchWord {s t : State} (h : OnlyTimer s t) : t.fetchWord = s.fetchWord := by
  have hpcl : t.cell Cell.pcl = s.cell Cell.pcl := h.cells _ (by decide) (by decide)
  have hpclath : t.cell Cell.pclath = s.cell Cell.pclath := h.cells _ (by decide) (by decide)
  simp only [State.fetchWord, State.flashRead, State.fetchAddr, State.getPC, State.pcHigh, h.skip, h.params, h.flash,
    h.pch, hpcl, hpclath]

theorem placeFetchWord_nextInput (s : State) (w : Nat) :
    (s.placeFetchWord w).nextInput = { envWrites := [], controlEvents := [] } := by
  simp only [State.nextInput, State.placeFetchWord, State.readyToFetch]
  cases s.hostInputs <;> rfl

/-- A tick comes to its clock with the placed word's state as opened, but for what Timer0 may change. -/
theorem placeFetchWord_beforeClock (s : State) (w : Nat) :
    ∃ u, (s.placeFetchWord w).beforeClock = .next u ∧ OnlyTimer (s.placeFetchWord w).openTick u :=
  ⟨_, beforeClock_quiet (placeFetchWord_nextInput s w) rfl, drain_onlyTimer _ _⟩

theorem placeFetchWord_fetchWord (s : State) (w : Nat) : (s.placeFetchWord w).fetchWord = BitVec.ofNat 14 w := by
  have hnoskip : ¬ (s.placeFetchWord w).skip = true := Bool.false_ne_true
  have haddr : (s.placeFetchWord w).fetchAddr = s.readyToFetch.fetchAddr := rfl
  rw [State.fetchWord, if_neg hnoskip, haddr, State.flashRead]
  exact (Store.read_write ..).trans (if_pos rfl)

/-- A paused engine made ready to fetch has the budget of one pair (R240). -/
theorem readyToFetch_not_gated (s : State) :
    ¬(s.readyToFetch.paused = true ∧ s.readyToFetch.stepBudget = 0) := by
  rintro ⟨hp, hb⟩
  have hpaused : s.paused = true := hp
  have hbudget : (if s.paused then 2 else s.stepBudget) = 0 := hb
  simp [hpaused] at hbudget

/-- `wake_one` holds an interrupt back that GIE would allow, and Timer0 does not reach GIE. -/
theorem placeFetchWord_not_interruptDue {s t : State} {w : Nat} (h : OnlyTimer (s.placeFetchWord w).openTick t) :
    t.interruptDue = false := by
  refine Bool.eq_false_iff.mpr fun hdue => ?_
  obtain ⟨hmodel, -, hwake, hgie, -⟩ := (interruptDue_iff t).mp hdue
  have hmodel' : s.params.interruptModel = .vectored := by rw [← hmodel, h.params]; rfl
  have hgie' : s.gie = true := (h.intcon 7 (by decide)).symm.trans hgie
  have hwake' : (s.wakeOne || (s.params.interruptModel == .vectored && s.gie)) = false := h.wakeOne.symm.trans hwake
  simp [hmodel', hgie'] at hwake'

theorem decode_of_decodeTableWord {nbits w : Nat} {i : Instr} (h : decodeTableWord nbits w = some i) :
    decode (BitVec.ofNat 14 (w % 2 ^ nbits)) = .ok i := by
  unfold decodeTableWord at h
  cases hd : decode (BitVec.ofNat 14 (w % 2 ^ nbits)) with
  | ok j =>
    rw [hd] at h
    exact congrArg Decoded.ok (Option.some.inj h)
  | rejected e =>
    rw [hd] at h
    cases h

/-- Settles O8: the tick drains the queue, which touches nothing the fetch reads, and then runs the word. -/
theorem placedWordIsTheNextInstructionRun : Obligations.PlacedWordIsTheNextInstructionRun := by
  intro s nbits w i hw
  obtain ⟨u, hbefore, honly⟩ := placeFetchWord_beforeClock s (w % 2 ^ nbits)
  have hdecode : decode u.fetchWord = .ok i := by
    have hword : u.fetchWord = BitVec.ofNat 14 (w % 2 ^ nbits) :=
      honly.fetchWord.trans (placeFetchWord_fetchWord s _)
    rw [hword]
    exact decode_of_decodeTableWord hw
  have hgate : ¬(u.paused = true ∧ u.stepBudget = 0) := by
    rw [honly.paused, honly.stepBudget]
    exact readyToFetch_not_gated s
  obtain ⟨t, ht⟩ := exec_next i ((u.setClock u.clock.toggle).fetchAdvance i)
  exact ⟨u, t, hbefore, honly.skip, hdecode, ht, stepRunsTheDecodedInstruction _ u t i hbefore
    (congrArg ClockGen.running honly.clock) (congrArg ClockGen.osc honly.clock) (congrArg ClockGen.phase honly.clock)
    honly.fault hgate honly.sleeping honly.pendingCycles (placeFetchWord_not_interruptDue honly) hdecode ht⟩

/-! ### The four skips, and the return stack (R236; 10_state.md R25) -/

/-- Every execute but those of the four skip instructions ends with the skip value false. -/
theorem exec_skip {i : Instr} {s t : State} (h : exec i s = .next t) (hskip : t.skip = true) :
    i.opcode ∈ [Opcode.btfsc, .btfss, .decfsz, .incfsz] := by
  cases i with
  | btfsc b f | btfss b f | decfsz d f | incfsz d f => simp [Instr.opcode]
  | _ =>
    cases h
    cases hskip

/-- What the instruction does with SP and the stack is allowed to it. -/
def StackUse (i : Instr) (s t : State) : Prop :=
  (t.sp ≠ s.sp → i.opcode ∈ [Opcode.call, .ret, .retlw, .retfie]) ∧ (t.stack ≠ s.stack → i.opcode = .call)

theorem stackUse_of_same {i : Instr} {s u t : State} {b : Bool} (hsp : u.sp = s.sp) (hstack : u.stack = s.stack)
    (h : u.complete b = .next t) : StackUse i s t := by
  cases h
  exact ⟨absurd hsp, absurd hstack⟩

theorem stackUse_of_dataFrame {i : Instr} {s u t : State} {b : Bool} (hu : DataFrame s u)
    (h : u.complete b = .next t) : StackUse i s t := stackUse_of_same hu.sp hu.stack h

/-- A return moves SP and leaves the stack. -/
theorem stackUse_of_return {i : Instr} {s u t : State} {b : Bool}
    (hi : i.opcode ∈ [Opcode.call, .ret, .retlw, .retfie]) (hstack : u.stack = s.stack)
    (h : u.complete b = .next t) : StackUse i s t := by
  cases h
  exact ⟨fun _ => hi, absurd hstack⟩

theorem exec_stackUse {i : Instr} {s t : State} (h : exec i s = .next t) : StackUse i s t := by
  have hnone : DataFrame s s := OnlyRegs.rfl.dataFrame
  cases i with
  | andwf d f | comf d f | decf d f | incf d f | iorwf d f | movf d f | xorwf d f =>
    exact stackUse_of_dataFrame (result_then_setZ s d f _).frame h
  | rlf d f | rrf d f => exact stackUse_of_dataFrame (result_then_setC s d f _ _).frame h
  | decfsz d f | incfsz d f | swapf d f => exact stackUse_of_dataFrame (dest_result s d f _ (.inl rfl)).frame h
  | addwf d f => exact stackUse_of_dataFrame (result_then_setCDCZ s d f (add8 s.w (s.fileRead f))).frame h
  | subwf d f => exact stackUse_of_dataFrame (result_then_setCDCZ s d f (sub8 (s.fileRead f) s.w)).frame h
  | clrf f => exact stackUse_of_dataFrame (result_then_setZ s .toF f _).frame h
  | movwf f | bcf b f | bsf b f => exact stackUse_of_dataFrame (dest_result s .toF f _ (.inl rfl)).frame h
  | andlw k | iorlw k | xorlw k | clrw => exact stackUse_of_dataFrame (result_then_setZ s .toW 0#7 _).frame h
  | addlw k => exact stackUse_of_dataFrame (result_then_setCDCZ s .toW 0#7 (add8 s.w k)).frame h
  | sublw k => exact stackUse_of_dataFrame (result_then_setCDCZ s .toW 0#7 (sub8 k s.w)).frame h
  | movlw k => exact stackUse_of_dataFrame (dest_result s .toW 0#7 k (.inl rfl)).frame h
  | btfsc b f | btfss b f | nop => exact stackUse_of_dataFrame hnone h
  | goto k => exact stackUse_of_dataFrame (setPC_onlyRegs s _).dataFrame h
  | call k => exact ⟨fun _ => by simp [Instr.opcode], fun _ => rfl⟩
  | ret => exact stackUse_of_return (by simp [Instr.opcode]) (setPC_onlyRegs s.pop _).stack h
  | retlw k => exact stackUse_of_return (by simp [Instr.opcode]) (setPC_onlyRegs (s.setW k).pop _).stack h
  | retfie =>
    exact stackUse_of_return (by simp [Instr.opcode])
      ((setPC_onlyRegs s.pop s.top).trans (setGIE_onlyRegs _ true)).stack h
  | sleep =>
    obtain ⟨-, -, -, -, hstack, hsp, -⟩ := (clearWatchdog_powerFrame s false).setSleeping _
    exact stackUse_of_same hsp hstack ((exec_sleep s).symm.trans h)
  | clrwdt =>
    obtain ⟨-, -, -, -, hstack, hsp, -⟩ := clearWatchdog_powerFrame s true
    exact stackUse_of_same hsp hstack h

/-- Settles O60: by the skip value each execute returns, and by what it does with SP and the stack. -/
theorem onlySkipsSkipAndOnlyCallsStack : Obligations.OnlySkipsSkipAndOnlyCallsStack :=
  fun _ _ _ h => ⟨exec_skip h, exec_stackUse h⟩

/-! ### Control events (R240, R241) -/

theorem runControl_next_running {s : State} (h : s.paused = false) (es : List ControlEvent) :
    s.runControl (.next :: es) = s.runControl es := by simp [State.runControl, h]

theorem runControl_next_paused {s : State} (h : s.paused = true) (es : List ControlEvent) :
    s.runControl (.next :: es) = { s with stepBudget := 2 }.runControl es := by simp [State.runControl, h]

/-- Run control appends no control event. -/
theorem drainControl_controlQueue (s : State) : s.drainControl.controlQueue = [] :=
  runControl_kept (P := fun t => t.controlQueue = []) (fun _ _ h => h) (fun _ h => h) (fun _ _ => rfl) s.controlQueue
    { s with controlQueue := [] } rfl

/-- Settles O18: one equation for each event, and the queue taken before the events run. -/
theorem controlEventsActInOrder : Obligations.ControlEventsActInOrder :=
  ⟨fun _ _ => rfl, fun _ _ => rfl, fun _ es h => runControl_next_paused h es,
    fun _ es h => runControl_next_running h es, fun _ _ => ⟨rfl, rfl⟩, fun _ _ _ => rfl, fun _ => rfl, fun _ => rfl,
    drainControl_controlQueue⟩

end Sys2Proof.Machine
end

/-! ## Exceptions, the clock and the host's side of a tick (60_exceptions.md R260, R261, R272, R300, R301, R310 to R322)

What a tick does before the clock is said once for each micro-step: the writes ENV may make, the records they queue, and
control with and without a reset event. A latched fault has stopped the clock, so these are then the whole tick. -/
section
namespace Sys2Proof.Machine

/-! ### The decode fault (R260) -/

/-- Settles O10: with nothing else in the way of the fetch, the cycle step raises; no execute touches the latch. -/
theorem decodeFaultIsPreciseAndLatched : Obligations.DecodeFaultIsPreciseAndLatched := by
  refine ⟨fun s e hf hp hs hc hdue hd => ?_, fun op pc => rfl, fun i s => ?_⟩
  · rw [cycleStep_ready hf hp hs hc, hdue, if_neg Bool.false_ne_true, fetchExecute_rejected hd]
    rfl
  · obtain ⟨t, ht⟩ := exec_next i s
    exact ⟨t, ht, (exec_engineSame ht).fault⟩

/-! ### Interrupt entry (R272) -/

theorem setGIE_false_intcon (s : State) :
    (s.setGIE false).cell Cell.intcon = withBit (s.cell Cell.intcon) 7 false := by
  rw [State.setGIE, writeDirect_cell, if_pos rfl]

/-- INTCON changes, and is notified, exactly when GIE was set. -/
theorem setGIE_false_notifyQueue (s : State) : (s.setGIE false).notifyQueue = s.notifyQueue ++
    (if s.gie then [.notify .intcon (s.cell Cell.intcon) (withBit (s.cell Cell.intcon) 7 false)] else []) := by
  have hsame : withBit (s.cell Cell.intcon) 7 false = s.cell Cell.intcon ↔ s.gie = false :=
    withBit_eq_self_iff _ (by decide) false
  rw [State.setGIE, writeDirect_notifyQueue, notifyRecords_intcon]
  cases hgie : s.gie with
  | true => rw [if_neg (by simp [hsame, hgie]), if_pos rfl]
  | false => rw [if_pos (hsame.mpr hgie), if_neg Bool.false_ne_true]

/-- GIE aside, the register file of an interrupt entry is that of a jump to the vector. -/
theorem interruptEntry_jumpsTo (s : State) : JumpsTo s s.interruptEntry interruptVector :=
  have hjump := setPC_jumpsTo (s := (s.push s.getPC).setGIE false) (u := (s.push s.getPC).setGIE false) rfl rfl rfl
    interruptVector
  ⟨hjump.pc, hjump.pclath.trans (by
      rw [setGIE_cell_other (s.push s.getPC) false (c := Cell.pclath) (by decide)]
      rfl),
    fun c hpcl hpclath hintcon =>
      (hjump.cells c hpcl hpclath hintcon).trans (setGIE_cell_other (s.push s.getPC) false hintcon),
    hjump.pch⟩

theorem interruptEntry_intcon (s : State) :
    s.interruptEntry.cell Cell.intcon = withBit (s.cell Cell.intcon) 7 false :=
  (setPC_intcon _ interruptVector).trans (setGIE_false_intcon (s.push s.getPC))

theorem interruptEntry_notifyQueue (s : State) : s.interruptEntry.notifyQueue = s.notifyQueue ++
    (if s.gie then [.notify .intcon (s.cell Cell.intcon) (s.interruptEntry.cell Cell.intcon)] else []) := by
  rw [interruptEntry_intcon]
  exact (setPC_notifyQueue _ interruptVector).trans (setGIE_false_notifyQueue (s.push s.getPC))

/-- Settles O14: a push, GIE cleared, a jump to the vector, and one stall cycle. -/
theorem interruptEntrySavesOnlyThePc : Obligations.InterruptEntrySavesOnlyThePc := by
  intro s
  have hsame := interruptEntry_onlyRegs s
  have hjump := interruptEntry_jumpsTo s
  have hintcon := interruptEntry_intcon s
  have htop : s.interruptEntry.top = s.getPC :=
    (setPC_top ((s.push s.getPC).setGIE false) interruptVector).trans (push_top s s.getPC)
  have hkept (j : Fin 8) (hj : j.val ≠ (s.sp - 1#3).toNat) : s.interruptEntry.stack[j] = s.stack[j] := by
    rw [hsame.stack]
    exact (push_stack s s.getPC j).trans (if_neg hj)
  have hgie : s.interruptEntry.gie = false := by
    rw [State.gie, State.intconBit, hintcon, withBit_getLsbD _ (by decide), if_pos rfl]
  have hlow (x : Byte) : (withBit x 7 false).extractLsb' 0 7 = x.extractLsb' 0 7 := by
    refine BitVec.eq_of_getLsbD_eq fun i hi => ?_
    rw [BitVec.getLsbD_extractLsb', BitVec.getLsbD_extractLsb', withBit_getLsbD x (by decide), if_neg (by omega)]
  exact ⟨_, rfl, hsame.sp, htop, hkept, hgie, by rw [hintcon, hlow], hjump.pc, rfl,
    (push_engineSame (s.setPending 1) s.getPC).trans hsame.engine, hjump.pch, hsame.w, hsame.skip,
    hsame.engine.wakeOne, hsame.sleeping, hsame.timer0,
    fun c hne hpcl hpc => hjump.cells c hpcl hpc hne, hjump.pclath, interruptEntry_notifyQueue s⟩

/-! ### The clock (R300, R301) -/

theorem clockToggle_stopped {s : State} (h : s.clock.running = false) : s.clockToggle = .next s := by
  simp [State.clockToggle, h]

theorem clockToggle_falling {s : State} (hr : s.clock.running = true) (ho : s.clock.osc = true) :
    s.clockToggle = .next (s.setClock { s.clock with osc := false }) := by
  simp [State.clockToggle, ClockGen.toggle, hr, ho]

/-- A phase other than Q1 starts with its CLKOUT record and nothing else. -/
theorem clockToggle_rising {s : State} (hr : s.clock.running = true) (ho : s.clock.osc = false) {p : Phase}
    (hp : s.clock.phase = p) (hne : p ≠ .q4) :
    s.clockToggle = .next ((s.setClock { s.clock with osc := true, phase := p.succ }).queueClkout p.succ) := by
  cases p with
  | q4 => exact absurd rfl hne
  | q1 | q2 | q3 => simp [State.clockToggle, ClockGen.toggle, hr, ho, hp, Phase.succ]

/-- Settles O21: a toggle by the running flag, the line and the phase. -/
theorem clockTogglesThroughFourPhases : Obligations.ClockTogglesThroughFourPhases := by
  refine ⟨fun s => clockToggle_stopped, fun s => clockToggle_falling,
    fun s hr ho hp => clockToggle_rising hr ho hp (by decide),
    fun s hr ho hp => clockToggle_rising hr ho hp (by decide),
    fun s hr ho hp => clockToggle_rising hr ho hp (by decide), fun s t hr ho hp ht => ?_, fun c => ?_⟩
  · have hclock : s.clock.toggle = { osc := true, phase := .q1, running := true } := by
      simp [ClockGen.toggle, hr, ho, hp, Phase.succ]
    rw [clockToggle_startQ1 hr ho hp, hclock, ht]
    rfl
  · obtain ⟨osc, phase, running⟩ := c
    cases osc <;> cases phase <;> rfl

/-! ### Environment writes (R322; 10_state.md R51) -/

/-- Bit by bit: INTF and RBIF may rise, the other bits stay. -/
theorem intconWriteAllowed_iff (old new : Byte) : intconWriteAllowed old new = true ↔
    new &&& 0xFC#8 = old &&& 0xFC#8 ∧ old &&& ~~~new = 0x00#8 := by
  have hlow : ∀ i < 8, (0x03#8).getLsbD i = decide (i < 2) := by decide
  have hhigh : ∀ i < 8, (0xFC#8).getLsbD i = !decide (i < 2) := by decide
  have hbit (o n m : Bool) : (o || n && m) = n ↔ (n && !m) = (o && !m) ∧ (o && !n) = false := by
    revert o n m
    decide
  rw [intconWriteAllowed, beq_iff_eq, BitVec.eq_of_getLsbD_eq_iff, BitVec.eq_of_getLsbD_eq_iff,
    BitVec.eq_of_getLsbD_eq_iff, ← forall₂_and]
  refine forall₂_congr fun i hi => ?_
  simp only [BitVec.getLsbD_or, BitVec.getLsbD_and, BitVec.getLsbD_not, BitVec.getLsbD_zero, hlow i hi, hhigh i hi, hi,
    decide_true, Bool.true_and]
  exact hbit _ _ _

theorem envWriteAllowed_iff (s : State) (c : RegAddr) (v : Byte) : s.envWriteAllowed c v = true ↔
    c ∈ envCells ∨ (c = Cell.intcon ∧ (v &&& 0xFC#8) = (s.cell Cell.intcon &&& 0xFC#8) ∧
      (s.cell Cell.intcon &&& ~~~v) = 0x00#8) := by
  rw [State.envWriteAllowed, Bool.or_eq_true, Bool.and_eq_true, List.contains_iff_mem, beq_iff_eq,
    intconWriteAllowed_iff]

theorem applyEnvWrite_allowed {s : State} {c : RegAddr} {v : Byte} (h : s.envWriteAllowed c v = true) :
    s.applyEnvWrite c v = .next (s.writeDirect c v) := if_pos h

theorem applyEnvWrite_forbidden {s : State} {c : RegAddr} {v : Byte} (h : ¬ s.envWriteAllowed c v = true) :
    s.applyEnvWrite c v = .refused (.hostWriteForbidden c v) := if_neg h

/-- Of the cells the environment may write only PORTA and INTCON are monitored (20_memory.md R90). -/
theorem notifyRecords_of_env {c : RegAddr} (hc : c ∈ envCells ∨ c = Cell.intcon) (old new : Byte) :
    notifyRecords c old new =
      if c = Cell.porta ∧ new ≠ old then [.notify .porta old new]
      else if c = Cell.intcon ∧ new ≠ old then [.notify .intcon old new] else [] := by
  by_cases hporta : c = Cell.porta
  · subst hporta
    rw [notifyRecords_porta]
    by_cases hnew : new = old <;> simp [hnew]
  by_cases hintcon : c = Cell.intcon
  · subst hintcon
    rw [notifyRecords_intcon]
    by_cases hnew : new = old <;> simp [hnew, hporta]
  have hunmonitored : ∀ x ∈ envCells, x ≠ Cell.porta → monitored x = none := by decide +kernel
  rw [notifyRecords_other (hunmonitored c (hc.resolve_right hintcon) hporta), if_neg (hporta ·.1),
    if_neg (hintcon ·.1)]

/-- The environment's cells are none of the block's own, and no general-purpose cell. -/
theorem envCells_not_owned {c : RegAddr} (h : c ∈ envCells) :
    ¬(offsetOf c = 0#7 ∨ c = Cell.tmr0 ∨ c = Cell.pcl ∨ c = Cell.status ∨ c = Cell.fsr ∨ c = Cell.pclath ∨
      c = Cell.intcon ∨ c = Cell.option ∨ c = Cell.pcon ∨ 0x20 ≤ (offsetOf c).toNat) := by
  have hlisted : ∀ x ∈ envCells, ¬(offsetOf x = 0#7 ∨ x = Cell.tmr0 ∨ x = Cell.pcl ∨ x = Cell.status ∨
      x = Cell.fsr ∨ x = Cell.pclath ∨ x = Cell.intcon ∨ x = Cell.option ∨ x = Cell.pcon ∨
      0x20 ≤ (offsetOf x).toNat) := by decide +kernel
  exact hlisted c h

/-- Settles O23: a write is a direct write of its cell when it is allowed, and else a refusal. -/
theorem environmentWritesOnlyItsOwnCells : Obligations.EnvironmentWritesOnlyItsOwnCells := by
  intro s c v
  rw [← envWriteAllowed_iff]
  refine ⟨fun h => ⟨_, applyEnvWrite_allowed h, fun x => ?_, ?_, ?_⟩, applyEnvWrite_forbidden, Iff.rfl,
    fun howned h => envCells_not_owned h howned⟩
  · rw [writeDirect_cell, if_congr eq_comm rfl rfl]
  · have hc : c ∈ envCells ∨ c = Cell.intcon := ((envWriteAllowed_iff s c v).mp h).imp_right And.left
    rw [writeDirect_notifyQueue, notifyRecords_of_env hc]
  · have hsame := writeDirect_onlyRegs s c v
    exact ⟨hsame.w, rfl, hsame.dataFrame, hsame.skip⟩

/-! ### The micro-steps before the clock (R310, R311, R320, R321) -/

theorem applyInput_refused {s : State} {i : HostInput} {r : Refusal} (h : s.applyEnvWrites i.envWrites = .refused r) :
    s.applyInput i = .refused r := by
  rw [State.applyInput, h]
  rfl

theorem applyInput_next {s t : State} {i : HostInput} (h : s.applyEnvWrites i.envWrites = .next t) :
    s.applyInput i = .next { t with controlQueue := t.controlQueue ++ i.controlEvents } := by
  rw [State.applyInput, h]
  rfl

/-- ENV's writes come before the control events it appends. -/
theorem applyInput_cases {s e : State} {i : HostInput} (h : s.applyInput i = .next e) :
    ∃ v, s.applyEnvWrites i.envWrites = .next v ∧ e = { v with controlQueue := v.controlQueue ++ i.controlEvents } := by
  cases hv : s.applyEnvWrites i.envWrites with
  | next v => exact ⟨v, rfl, Host.Outcome.next.inj (h.symm.trans (applyInput_next hv))⟩
  | fault r => exact nomatch r
  | refused r => exact nomatch h.symm.trans (applyInput_refused hv)

theorem applyEnvWrites_cons_refused {s : State} {e : RegAddr × Byte} {r : Refusal}
    (h : s.applyEnvWrite e.1 e.2 = .refused r) (es : List (RegAddr × Byte)) :
    s.applyEnvWrites (e :: es) = .refused r := by
  rw [State.applyEnvWrites, h]
  rfl

theorem applyEnvWrites_cons_next {s t : State} {e : RegAddr × Byte} (h : s.applyEnvWrite e.1 e.2 = .next t)
    (es : List (RegAddr × Byte)) : s.applyEnvWrites (e :: es) = t.applyEnvWrites es := by
  rw [State.applyEnvWrites, h]
  rfl

theorem beforeClock_next {s e : State} (h : s.openTick.applyInput s.nextInput = .next e) :
    s.beforeClock = .next (e.drain s.notifyQueue).drainControl := by
  rw [State.beforeClock, h]
  rfl

theorem beforeClock_ran {s u : State} (h : s.beforeClock = .next u) :
    ∃ e, s.openTick.applyInput s.nextInput = .next e ∧ u = (e.drain s.notifyQueue).drainControl := by
  obtain ⟨v, hv, rfl⟩ := beforeClock_cases h
  exact ⟨_, applyInput_next hv, rfl⟩

theorem beforeClock_refused {s : State} {r : Refusal} (h : s.openTick.applyInput s.nextInput = .refused r) :
    s.beforeClock = .refused r := by
  rw [State.beforeClock, h]
  rfl

theorem step_refused {s : State} {r : Refusal} (h : s.beforeClock = .refused r) : step s = .refused r := by
  rw [step, State.tick, h]
  rfl

/-- ENV queues its own records and no others, appends its control events, and leaves Timer0 alone. -/
theorem openTick_applyInput {s e : State} (h : s.openTick.applyInput s.nextInput = .next e) :
    e.timer0 = s.timer0 ∧ e.notifyQueue = envRecords s s.nextInput.envWrites ∧
      e.controlQueue = s.controlQueue ++ s.nextInput.controlEvents := by
  obtain ⟨v, hv, rfl⟩ := applyInput_cases h
  have hsame := applyEnvWrites_onlyRegs _ hv
  have hqueue : v.notifyQueue = envRecords s s.nextInput.envWrites :=
    (applyEnvWrites_notifyQueue _ hv).trans (envRecords_congr (s := s) (t := s.openTick) rfl _)
  exact ⟨hsame.timer0, hqueue, congrArg (· ++ s.nextInput.controlEvents) hsame.engine.controlQueue⟩

/-- Without a reset event CONTROL changes only the run control. -/
theorem drainControl_no_reset {s : State} (h : ∀ e ∈ s.controlQueue, e ≠ .reset ∧ e ≠ .back) :
    ∃ p b, s.drainControl = { s with controlQueue := [], paused := p, stepBudget := b } :=
  runControl_no_reset s.controlQueue { s with controlQueue := [] } h

/-- With a reset event CONTROL ends in a reset: what stands before it in the queue is only run control. -/
theorem runControl_reset {es : List ControlEvent} (h : ∃ e ∈ es, e = .reset ∨ e = .back) (s : State) :
    ∃ u : State, s.runControl es = u.controlReset := by
  induction es generalizing s with
  | nil => simp at h
  | cons e es ih =>
    cases e with
    | reset | back => exact ⟨s, rfl⟩
    | play | pause | next | other => exact ih (by simpa using h) _

/-! ### What the clock leaves of Timer0 and the queue (R310, R311) -/

/-- Timer0's own state is as before but for a cleared prescaler, and every record queued before is still at the head. -/
def ClockFrame (s t : State) : Prop :=
  (t.timer0 = s.timer0 ∨ t.timer0 = { s.timer0 with presc := 0#8 }) ∧ s.notifyQueue <+: t.notifyQueue

theorem ClockFrame.rfl {s : State} : ClockFrame s s := ⟨.inl (Eq.refl _), List.prefix_refl _⟩

theorem clockFrame_kept (s : State) : Kept (ClockFrame s) where
  cell _ _ _ h _ _ := h
  w _ _ h := h
  pch _ _ h _ := h
  stackEntry _ _ _ h := h
  sp _ _ h := h
  skip _ _ h := h
  sleeping _ _ h := h
  presc t h := by
    refine ⟨.inr ?_, h.2⟩
    rw [setTimer0_timer0]
    rcases h.1 with ht | ht <;> rw [ht]
  notify _ _ _ _ h := ⟨h.1, h.2.trans (List.prefix_append _ _)⟩

theorem clockFrame_cycleStep {s t : State} (h : s.cycleStep = .next t) : ClockFrame s t := by
  have K := clockFrame_kept s
  have hself : ClockFrame s s := ClockFrame.rfl
  obtain rfl | ⟨-, rfl⟩ | ⟨-, rfl⟩ | ⟨-, rfl⟩ | ⟨-, -, rfl⟩ | ⟨i, u, -, hexec, rfl⟩ := cycleStep_cases h
  · exact hself
  · unfold State.sleepCycle
    split <;> exact hself
  · exact hself
  · exact K.setPC (K.setGIE (K.push hself s.getPC) false) interruptVector
  · exact hself
  · have hadvance : ClockFrame s (s.fetchAdvance i) := K.setPC (K.skip s false hself) (s.nextAddr s.fetchAddr)
    have hu : ClockFrame s u := K.exec i hadvance hexec
    exact hu

theorem ClockFrame.queueClkout {s t : State} (h : ClockFrame s t) (p : Phase) : ClockFrame s (t.queueClkout p) :=
  ⟨h.1, h.2.trans (List.prefix_append _ _)⟩

theorem clockFrame_clockToggle {u t : State} (h : u.clockToggle = .next t) : ClockFrame u t := by
  have htoggle : ClockFrame u (u.setClock u.clock.toggle) := ClockFrame.rfl (s := u)
  obtain ⟨-, rfl⟩ | ⟨-, rfl⟩ | ⟨-, p, rfl⟩ | ⟨-, v, hv, rfl⟩ := clockToggle_cases h
  · exact ClockFrame.rfl
  · exact htoggle
  · exact htoggle.queueClkout p
  · have hcycle : ClockFrame (u.setClock u.clock.toggle) v := clockFrame_cycleStep hv
    exact ClockFrame.queueClkout (s := u) hcycle .q1

/-- Settles O22: the micro-steps in order, each by its law, and the frame of the clock. -/
theorem clockMicroStepDeliversNothingToTimer0 : Obligations.ClockMicroStepDeliversNothingToTimer0 := by
  refine ⟨fun s e he => ?_, fun u t ht => ?_, fun s u => step_of_beforeClock, fun s r => step_refused,
    fun s r => beforeClock_refused, fun s i => ⟨fun r => applyInput_refused, fun t => applyInput_next⟩, fun s => rfl,
    fun s e es => ⟨fun r h => applyEnvWrites_cons_refused h es, fun t h => applyEnvWrites_cons_next h es⟩,
    fun s => rfl, fun s => ⟨fun h => by rw [State.nextInput, h]; rfl, fun i is h => by rw [State.nextInput, h]; rfl⟩⟩
  · obtain ⟨htimer, hqueue, hcontrol⟩ := openTick_applyInput he
    have honly := drain_onlyTimer e s.notifyQueue
    refine ⟨htimer, hqueue, hcontrol, honly.notifyQueue, _, beforeClock_next he, rfl, fun hno => ?_⟩
    obtain ⟨p, b, hrun⟩ := drainControl_no_reset (honly.controlQueue ▸ hno)
    rw [hrun]
    exact ⟨honly.notifyQueue, rfl⟩
  · obtain ⟨htimer | htimer, hqueue⟩ := clockFrame_clockToggle ht <;> rw [htimer]
    · exact ⟨rfl, rfl, rfl, rfl, .inl rfl, hqueue⟩
    · exact ⟨rfl, rfl, rfl, rfl, .inr rfl, hqueue⟩

/-! ### A latched fault (R261) -/

/-- What the CPU owns, and the clock: a tick with the clock stopped changes none of it. Timer0 may set T0IF, bit 2 of
INTCON, and the environment INTF and RBIF, bits 1 and 0. -/
structure CpuKept (s t : State) : Prop where
  params : t.params = s.params
  fault : t.fault = s.fault
  clock : t.clock = s.clock
  w : t.w = s.w
  pch : t.pch = s.pch
  stack : t.stack = s.stack
  sp : t.sp = s.sp
  skip : t.skip = s.skip
  pendingCycles : t.pendingCycles = s.pendingCycles
  sleeping : t.sleeping = s.sleeping
  wakeOne : t.wakeOne = s.wakeOne
  intcon : ∀ i, 3 ≤ i → t.intconBit i = s.intconBit i
  cells : ∀ c : RegAddr, c ∉ envCells → c ≠ Cell.tmr0 → c ≠ Cell.intcon → t.cell c = s.cell c

/-- Run control, the queues and the host's side are not the CPU's. -/
theorem cpuKept_mk (s : State) (paused : Bool) (budget : Nat) (notes : List Record) (events : List ControlEvent)
    (inputs : List HostInput) (outputs : List HostOutput) (started : Bool) :
    CpuKept s { s with
      paused := paused, stepBudget := budget, notifyQueue := notes, controlQueue := events, hostInputs := inputs,
      outputs := outputs, started := started } := by
  constructor <;> intros <;> rfl

theorem CpuKept.trans {s t u : State} (h : CpuKept s t) (k : CpuKept t u) : CpuKept s u where
  params := k.params.trans h.params
  fault := k.fault.trans h.fault
  clock := k.clock.trans h.clock
  w := k.w.trans h.w
  pch := k.pch.trans h.pch
  stack := k.stack.trans h.stack
  sp := k.sp.trans h.sp
  skip := k.skip.trans h.skip
  pendingCycles := k.pendingCycles.trans h.pendingCycles
  sleeping := k.sleeping.trans h.sleeping
  wakeOne := k.wakeOne.trans h.wakeOne
  intcon i hi := (k.intcon i hi).trans (h.intcon i hi)
  cells c h1 h2 h3 := (k.cells c h1 h2 h3).trans (h.cells c h1 h2 h3)

theorem OnlyTimer.cpuKept {s t : State} (h : OnlyTimer s t) : CpuKept s t where
  params := h.params
  fault := h.fault
  clock := h.clock
  w := h.w
  pch := h.pch
  stack := h.stack
  sp := h.sp
  skip := h.skip
  pendingCycles := h.pendingCycles
  sleeping := h.sleeping
  wakeOne := h.wakeOne
  intcon i hi := h.intcon i (by omega)
  cells c _ htmr0 hintcon := h.cells c htmr0 hintcon

theorem intconWriteAllowed_bit {old new : Byte} (h : intconWriteAllowed old new = true) {i : Nat} (hi : 2 ≤ i) :
    new.getLsbD i = old.getLsbD i := by
  have hclear : (0x03#8).getLsbD i = false := by
    rw [BitVec.getLsbD_ofNat, Nat.testBit_lt_two_pow, Bool.and_false]
    exact lt_of_lt_of_le (by decide) (Nat.pow_le_pow_right (by decide) hi)
  rw [← beq_iff_eq.mp h, BitVec.getLsbD_or, BitVec.getLsbD_and, hclear, Bool.and_false, Bool.or_false]

theorem cpuKept_writeDirect {s : State} {c : RegAddr} {v : Byte} (h : s.envWriteAllowed c v = true) :
    CpuKept s (s.writeDirect c v) := by
  rw [State.envWriteAllowed, Bool.or_eq_true, Bool.and_eq_true, List.contains_iff_mem, beq_iff_eq] at h
  have hintcon (i : Nat) (hi : 3 ≤ i) : (s.writeDirect c v).intconBit i = s.intconBit i := by
    rw [State.intconBit, writeDirect_cell]
    split
    · next hc =>
      have hallowed := (h.resolve_left fun hmem => envCells_not_owned hmem (by simp [hc])).2
      exact intconWriteAllowed_bit hallowed (by omega)
    · rfl
  have hcells (x : RegAddr) (henv : x ∉ envCells) (_ : x ≠ Cell.tmr0) (hx : x ≠ Cell.intcon) :
      (s.writeDirect c v).cell x = s.cell x := by
    rw [writeDirect_cell, if_neg]
    rintro rfl
    exact h.elim henv fun h => hx h.1
  exact ⟨rfl, rfl, rfl, rfl, rfl, rfl, rfl, rfl, rfl, rfl, rfl, hintcon, hcells⟩

theorem cpuKept_openTick_applyInput {s e : State} (h : s.openTick.applyInput s.nextInput = .next e) : CpuKept s e := by
  obtain ⟨v, hv, rfl⟩ := applyInput_cases h
  have hopen : CpuKept s s.openTick := cpuKept_mk s _ _ _ _ _ _ _
  have henv : CpuKept s v := applyEnvWrites_kept (P := CpuKept s)
    (fun _ _ _ hs hallowed => hs.trans (cpuKept_writeDirect hallowed)) _ _ _ hopen hv
  exact henv.trans (cpuKept_mk v _ _ _ _ _ _ _)

/-- Without a reset event, the micro-steps before the clock keep what the CPU owns and queue the records of ENV. -/
theorem beforeClock_no_reset {s u : State} (h : s.beforeClock = .next u)
    (hno : ∀ e ∈ s.controlQueue ++ s.nextInput.controlEvents, e ≠ .reset ∧ e ≠ .back) :
    CpuKept s u ∧ u.notifyQueue = envRecords s s.nextInput.envWrites := by
  obtain ⟨e, he, rfl⟩ := beforeClock_ran h
  obtain ⟨-, hqueue, hcontrol⟩ := openTick_applyInput he
  have honly := drain_onlyTimer e s.notifyQueue
  have hdrain : CpuKept s (e.drain s.notifyQueue) := (cpuKept_openTick_applyInput he).trans honly.cpuKept
  rw [← hcontrol, ← honly.controlQueue] at hno
  obtain ⟨p, b, hrun⟩ := drainControl_no_reset hno
  rw [hrun]
  exact ⟨hdrain.trans (cpuKept_mk _ _ _ _ _ _ _ _), honly.notifyQueue.trans hqueue⟩

/-- A reset event anywhere in the queue resets, whatever stands before it (45_execution_engine.md R241). -/
theorem beforeClock_reset {s u : State} (h : s.beforeClock = .next u)
    (hreset : ∃ e ∈ s.controlQueue ++ s.nextInput.controlEvents, e = .reset ∨ e = .back) :
    ∃ v : State, u = v.controlReset := by
  obtain ⟨e, he, rfl⟩ := beforeClock_ran h
  obtain ⟨-, -, hcontrol⟩ := openTick_applyInput he
  rw [← hcontrol, ← (drain_onlyTimer e s.notifyQueue).controlQueue] at hreset
  exact runControl_reset hreset _

theorem notifyRecords_not_clkout {c : RegAddr} {old new : Byte} {r : Record} (h : r ∈ notifyRecords c old new)
    (p : Phase) (level : Bool) : r ≠ .clkout p level := by
  unfold notifyRecords at h
  rintro rfl
  split at h
  · cases h
  · split at h <;> simp at h

theorem envRecords_not_clkout {s : State} {ws : List (RegAddr × Byte)} {r : Record} (h : r ∈ envRecords s ws)
    (p : Phase) (level : Bool) : r ≠ .clkout p level := by
  induction ws generalizing s with
  | nil => cases h
  | cons e ws ih => exact (List.mem_append.mp h).elim (fun h => notifyRecords_not_clkout h p level) ih

theorem CpuKept.getPC {s t : State} (h : CpuKept s t) : t.getPC = s.getPC := by
  have hpcl : t.cell Cell.pcl = s.cell Cell.pcl := h.cells _ (by decide) (by decide) (by decide)
  have hpclath : t.cell Cell.pclath = s.cell Cell.pclath := h.cells _ (by decide) (by decide) (by decide)
  simp only [State.getPC, State.pcHigh, h.params, h.pch, hpcl, hpclath]

theorem CpuKept.intcon_high {s t : State} (h : CpuKept s t) :
    (t.cell Cell.intcon).extractLsb' 3 5 = (s.cell Cell.intcon).extractLsb' 3 5 := by
  refine BitVec.eq_of_getLsbD_eq fun i _ => ?_
  rw [BitVec.getLsbD_extractLsb', BitVec.getLsbD_extractLsb']
  exact congrArg _ (h.intcon (3 + i) (by omega))

/-- A general-purpose offset is out of Timer0's and the environment's reach. -/
theorem CpuKept.cell_general {s t : State} (h : CpuKept s t) {c : RegAddr} (hc : 0x20 ≤ (offsetOf c).toNat) :
    t.cell c = s.cell c := by
  refine h.cells c (fun henv => envCells_not_owned henv (by simp [hc])) ?_ ?_ <;>
    rintro rfl <;> exact absurd hc (by decide)

/-- Settles O11: with the clock stopped a tick is its first three micro-steps. -/
theorem latchedFaultStopsTheClockUntilReset : Obligations.LatchedFaultStopsTheClockUntilReset := by
  refine ⟨fun s t _ hstopped hno hstep => ?_, fun s u hreset hu => ?_⟩
  · obtain ⟨u, hu, ht⟩ := step_cases hstep
    obtain ⟨hkept, hqueue⟩ := beforeClock_no_reset hu hno
    rw [clockToggle_stopped ((congrArg ClockGen.running hkept.clock).trans hstopped)] at ht
    cases ht
    have hnamed : ∀ c ∈ [Cell.status, Cell.fsr, Cell.pclath, Cell.option, Cell.pcon],
        c ∉ envCells ∧ c ≠ Cell.tmr0 ∧ c ≠ Cell.intcon := by decide +kernel
    refine ⟨hkept.fault, hkept.clock, hkept.w, hkept.getPC, hkept.pch, hkept.stack, hkept.sp, hkept.skip,
      hkept.pendingCycles, hkept.sleeping, hkept.wakeOne, hkept.intcon_high, hkept.cells, fun c hc => ?_,
      fun c => hkept.cell_general, fun r hr => envRecords_not_clkout (hqueue ▸ hr)⟩
    obtain ⟨henv, htmr0, hintcon⟩ := hnamed c hc
    exact hkept.cells c henv htmr0 hintcon
  · obtain ⟨v, rfl⟩ := beforeClock_reset hu hreset
    exact ⟨rfl, rfl⟩

end Sys2Proof.Machine
end

/-! ## Timer0 (60_exceptions.md R275, R290 to R298)

What one record does to Timer0 is said once for each operation: the increment, the prescaler, the synchronizer, the
rising edge, the pin. The drain of a snapshot is then an induction over its records or over its instruction cycles. -/
section
namespace Sys2Proof.Machine

theorem setTimer0_eq_self {s : State} {t : Timer0} (h : t = s.timer0) : s.setTimer0 t = s := by
  rw [h]
  rfl

/-! ### The increment (R295, R296) -/

theorem t0Increment_inhibited {s : State} (h : 0 < s.timer0.inhibit) : s.t0Increment = s := if_pos h

theorem byte_succ_eq_zero_iff (v : Byte) : v + 1#8 = 0#8 ↔ v = 0xFF#8 := by
  constructor <;> intro h <;> bv_omega

theorem t0Increment_counts {s : State} (hi : s.timer0.inhibit = 0) (hv : s.cell Cell.tmr0 ≠ 0xFF#8) :
    s.t0Increment =
      (s.setCell Cell.tmr0 (s.cell Cell.tmr0 + 1#8)).emit (.timerValue (s.cell Cell.tmr0 + 1#8)) := by
  simp [State.t0Increment, hi, byte_succ_eq_zero_iff, hv]

theorem t0Increment_wraps {s : State} (hi : s.timer0.inhibit = 0) (hv : s.cell Cell.tmr0 = 0xFF#8) :
    s.t0Increment = (s.setCell Cell.tmr0 0x00#8).t0Overflow := by
  simp [State.t0Increment, hi, hv]

theorem t0Increment_tmr0 {s : State} (hi : s.timer0.inhibit = 0) :
    s.t0Increment.cell Cell.tmr0 = s.cell Cell.tmr0 + 1#8 := by
  by_cases hv : s.cell Cell.tmr0 = 0xFF#8
  · rw [t0Increment_wraps hi hv, hv]
    simp [State.t0Overflow, Cell.tmr0, Cell.intcon]
  · rw [t0Increment_counts hi hv]
    simp

/-- Settles O26: by the inhibit, and by whether TMR0 is at its last value. -/
theorem timerIncrementSetsT0ifOnTheWrap : Obligations.TimerIncrementSetsT0ifOnTheWrap := by
  refine ⟨fun s => t0Increment_inhibited, fun s hi hv => ⟨_, rfl, ?_⟩, fun s hi hv => ⟨_, rfl, ?_⟩⟩
  · have honly := t0Increment_onlyTimer s
    have hcount := t0Increment_counts hi hv
    have hsucc : (s.t0Increment.cell Cell.tmr0).toNat = (s.cell Cell.tmr0).toNat + 1 := by
      rw [t0Increment_tmr0 hi]
      bv_omega
    have hcells (c : RegAddr) (hc : c ≠ Cell.tmr0) : s.t0Increment.cell c = s.cell c := by
      rw [hcount, emit_cell, setCell_cell, if_neg hc.symm]
    have houtputs : s.t0Increment.outputs = s.outputs ++ [.timerValue (s.t0Increment.cell Cell.tmr0)] := by
      rw [t0Increment_tmr0 hi, hcount]
      rfl
    exact ⟨hsucc, houtputs, hcells, honly.notifyQueue, t0Increment_timer0 s, honly.w, honly.stack, honly.sp, honly.pch,
      honly.skip⟩
  · have honly := t0Increment_onlyTimer s
    have hwrap := t0Increment_wraps hi hv
    have hmask (x : Byte) : withBit x 2 true &&& 0xFB#8 = x &&& 0xFB#8 := by
      revert x
      decide +kernel
    have hintcon : s.t0Increment.cell Cell.intcon = withBit (s.cell Cell.intcon) 2 true := by
      rw [hwrap]
      simp [State.t0Overflow, Cell.tmr0, Cell.intcon]
    have htmr0 : s.t0Increment.cell Cell.tmr0 = 0x00#8 := by
      rw [t0Increment_tmr0 hi, hv]
      rfl
    have hflag : s.t0Increment.intconBit 2 = true := by
      rw [State.intconBit, hintcon, withBit_getLsbD _ (by decide), if_pos rfl]
    have houtputs : s.t0Increment.outputs = s.outputs ++ [.timerOverflow] := by
      rw [hwrap]
      rfl
    exact ⟨htmr0, hflag, by rw [hintcon, hmask], houtputs, honly.cells, honly.notifyQueue, t0Increment_timer0 s,
      honly.w, honly.stack, honly.sp, honly.pch, honly.skip⟩

/-! ### The prescaler (R293) -/

theorem t0Prescale_watchdog {s : State} (h : s.psa = true) (src : T0Source) : s.t0Prescale src = s.t0Pulse src :=
  if_pos h

theorem t0Prescale_full {s : State} (h : s.psa = false) (hn : 2 ^ (s.ps.toNat + 1) ≤ s.timer0.presc.toNat + 1)
    (src : T0Source) : s.t0Prescale src = (s.setTimer0 { s.timer0 with presc := 0#8 }).t0Pulse src := by
  simp [State.t0Prescale, h, hn]

theorem t0Prescale_counting {s : State} (h : s.psa = false)
    (hn : s.timer0.presc.toNat + 1 < 2 ^ (s.ps.toNat + 1)) (src : T0Source) :
    s.t0Prescale src = s.setTimer0 { s.timer0 with presc := BitVec.ofNat 8 (s.timer0.presc.toNat + 1) } := by
  simp [State.t0Prescale, h, Nat.not_le.mpr hn]

/-- A count below the rate, which is at most 256, is in the range of the 8-bit prescaler. -/
theorem toNat_count {s : State} {n : Nat} (hn : n < 2 ^ (s.ps.toNat + 1)) : (BitVec.ofNat 8 n).toNat = n := by
  have hrate : 2 ^ (s.ps.toNat + 1) ≤ 2 ^ 8 := Nat.pow_le_pow_right (by decide) s.ps.isLt
  rw [BitVec.toNat_ofNat, Nat.mod_eq_of_lt (by omega)]

/-- A source edge leaves some count in the prescaler, and then gives a pulse or none. -/
theorem t0Prescale_cases (s : State) (src : T0Source) : ∃ n,
    s.t0Prescale src = s.setTimer0 { s.timer0 with presc := n } ∨
    s.t0Prescale src = (s.setTimer0 { s.timer0 with presc := n }).t0Pulse src := by
  cases hpsa : s.psa with
  | true => exact ⟨s.timer0.presc, .inr (t0Prescale_watchdog hpsa src)⟩
  | false =>
    by_cases hn : 2 ^ (s.ps.toNat + 1) ≤ s.timer0.presc.toNat + 1
    · exact ⟨0#8, .inr (t0Prescale_full hpsa hn src)⟩
    · exact ⟨_, .inl (t0Prescale_counting hpsa (Nat.not_le.mp hn) src)⟩

/-- An edge of the internal source moves nothing of Timer0's own state but the prescaler. -/
theorem t0Prescale_internal_timer0 (s : State) :
    ∃ n, (s.t0Prescale .internal).timer0 = { s.timer0 with presc := n } := by
  obtain ⟨n, h | h⟩ := t0Prescale_cases s .internal
  · exact ⟨n, by rw [h, setTimer0_timer0]⟩
  · exact ⟨n, by rw [h, State.t0Pulse, t0Increment_timer0, setTimer0_timer0]⟩

/-- While increments are inhibited no edge of the internal source counts, whatever the prescaler does with it. -/
theorem t0Prescale_internal_tmr0_inhibited {s : State} (hi : 0 < s.timer0.inhibit) :
    (s.t0Prescale .internal).cell Cell.tmr0 = s.cell Cell.tmr0 := by
  obtain ⟨n, h | h⟩ := t0Prescale_cases s .internal
  · rw [h, setTimer0_cell]
  · rw [h, State.t0Pulse, t0Increment_inhibited (s := s.setTimer0 { s.timer0 with presc := n }) hi, setTimer0_cell]

/-! ### The synchronizer and a CLKOUT record (R291, R294) -/

theorem t0ApplySync_of_sync {s : State} (h : s.timer0.sync = false ∨ s.sleeping = true) : s.t0ApplySync = s := by
  rw [State.t0ApplySync, if_neg]
  rcases h with h | h <;> simp [h]

theorem t0ApplySync_pulse {s : State} (h : s.timer0.sync = true) (ha : s.sleeping = false) :
    s.t0ApplySync = (s.setTimer0 { s.timer0 with sync := false }).t0Increment := by
  simp [State.t0ApplySync, h, ha]

/-- Of Timer0's own state a waiting pulse moves the synchronizer alone. -/
theorem t0ApplySync_timer0 (s : State) :
    s.t0ApplySync.timer0 = { s.timer0 with sync := s.timer0.sync && s.sleeping } := by
  unfold State.t0ApplySync
  split
  · next h =>
    obtain ⟨-, ha⟩ : s.timer0.sync = true ∧ s.sleeping = false := by simpa using h
    rw [t0Increment_timer0, ha, Bool.and_false]
    rfl
  · next h =>
    have hsame : (s.timer0.sync && s.sleeping) = s.timer0.sync := by
      revert h
      cases s.timer0.sync <;> cases s.sleeping <;> simp
    rw [hsame]

theorem t0ApplySync_tmr0_inhibited {s : State} (h : 0 < s.timer0.inhibit) :
    s.t0ApplySync.cell Cell.tmr0 = s.cell Cell.tmr0 := by
  unfold State.t0ApplySync
  split
  · rw [t0Increment_inhibited (s := s.setTimer0 { s.timer0 with sync := false }) h, setTimer0_cell]
  · rfl

/-- The state a CLKOUT record leaves before its edge is looked at: a waiting pulse counted, the level noted. -/
def State.t0Noted (s : State) (level : Bool) : State :=
  s.t0ApplySync.setTimer0 { s.t0ApplySync.timer0 with clkPrev := level }

theorem t0Noted_timer0 (s : State) (level : Bool) : (s.t0Noted level).timer0 =
    { s.timer0 with sync := s.timer0.sync && s.sleeping, clkPrev := level } := by
  rw [State.t0Noted, setTimer0_timer0, t0ApplySync_timer0]

theorem t0Noted_onlyTimer (s : State) (level : Bool) : OnlyTimer s (s.t0Noted level) :=
  (t0ApplySync_onlyTimer s).trans (setTimer0_onlyTimer _ _)

theorem t0Noted_of_sync {s : State} (h : s.timer0.sync = false ∨ s.sleeping = true) (level : Bool) :
    s.t0Noted level = s.setTimer0 { s.timer0 with clkPrev := level } := by
  rw [State.t0Noted, t0ApplySync_of_sync h]

theorem deliver_clkout (s : State) (p : Phase) (level : Bool) : s.deliver (.clkout p level) =
    if !s.timer0.clkPrev && level then (s.t0Noted level).t0RisingEdge else s.t0Noted level := by
  have hprev : s.t0ApplySync.timer0.clkPrev = s.timer0.clkPrev := by rw [t0ApplySync_timer0]
  rw [← hprev]
  rfl

/-- What a rising edge does before it counts the inhibit down: an edge of the internal source, if that is the clock. -/
def State.t0InternalEdge (s : State) : State := if !s.t0cs && !s.sleeping then s.t0Prescale .internal else s

theorem t0InternalEdge_inhibit (s : State) : s.t0InternalEdge.timer0.inhibit = s.timer0.inhibit :=
  ite_t0Prescale_inhibit _ s .internal

theorem t0InternalEdge_unclocked {s : State} (h : s.t0cs = true ∨ s.sleeping = true) : s.t0InternalEdge = s := by
  rw [State.t0InternalEdge, if_neg]
  rcases h with h | h <;> simp [h]

theorem t0InternalEdge_tmr0_inhibited {s : State} (h : 0 < s.timer0.inhibit) :
    s.t0InternalEdge.cell Cell.tmr0 = s.cell Cell.tmr0 := by
  unfold State.t0InternalEdge
  split
  · exact t0Prescale_internal_tmr0_inhibited h
  · rfl

/-- The count-down leaves an inhibit of 0 at 0, so it needs no case. -/
theorem t0RisingEdge_eq (s : State) : s.t0RisingEdge =
    s.t0InternalEdge.setTimer0 { s.t0InternalEdge.timer0 with inhibit := s.timer0.inhibit - 1 } := by
  rw [← t0InternalEdge_inhibit s]
  by_cases h : 0 < s.t0InternalEdge.timer0.inhibit
  · exact if_pos h
  · have hzero : s.t0InternalEdge.timer0.inhibit - 1 = s.t0InternalEdge.timer0.inhibit := by omega
    rw [hzero]
    exact if_neg h

/-- With the external source, or asleep, a rising edge only counts the inhibit down. -/
theorem t0RisingEdge_unclocked {s : State} (h : s.t0cs = true ∨ s.sleeping = true) :
    s.t0RisingEdge = s.setTimer0 { s.timer0 with inhibit := s.timer0.inhibit - 1 } := by
  rw [t0RisingEdge_eq, t0InternalEdge_unclocked h]

theorem OnlyTimer.t0cs {s t : State} (h : OnlyTimer s t) : t.t0cs = s.t0cs := by
  have hoption : t.cell Cell.option = s.cell Cell.option := h.cells _ (by decide) (by decide)
  rw [State.t0cs, State.optionBit, hoption]
  rfl

/-- With the external source, or asleep, a CLKOUT record counts a waiting pulse, notes the level, and on a rising edge
counts the inhibit down. -/
theorem deliver_clkout_unclocked {s : State} (h : s.t0cs = true ∨ s.sleeping = true) (p : Phase) (level : Bool) :
    s.deliver (.clkout p level) = (s.t0Noted level).setTimer0 { (s.t0Noted level).timer0 with
      inhibit := if !s.timer0.clkPrev && level then s.timer0.inhibit - 1 else s.timer0.inhibit } := by
  have honly := t0Noted_onlyTimer s level
  have hinhibit : (s.t0Noted level).timer0.inhibit = s.timer0.inhibit := by rw [t0Noted_timer0]
  rw [← honly.t0cs, ← honly.sleeping] at h
  rw [deliver_clkout, t0RisingEdge_unclocked h, ← hinhibit]
  split <;> rfl

/-- With no inhibit running, such a record counts a waiting pulse and notes the level. -/
theorem deliver_clkout_uninhibited {s : State} (h : s.t0cs = true ∨ s.sleeping = true) (hi : s.timer0.inhibit = 0)
    (p : Phase) (level : Bool) : s.deliver (.clkout p level) = s.t0Noted level := by
  have hinhibit : (s.t0Noted level).timer0.inhibit = 0 := by rw [t0Noted_timer0, hi]
  rw [deliver_clkout_unclocked h, hi, Nat.zero_sub, ite_self]
  exact setTimer0_eq_self (by rw [← hinhibit])

/-- Settles O27: the three cases of the prescaler, and a record's edge by the two levels. -/
theorem prescalerPulsesAtItsRate : Obligations.PrescalerPulsesAtItsRate := by
  refine ⟨fun s src h => t0Prescale_watchdog h src, fun s src h hn => t0Prescale_full h hn src,
    fun s src h hn => ⟨_, toNat_count hn, t0Prescale_counting h hn src⟩, fun s => rfl, fun s => rfl,
    fun s p hsync hprev hcs hsleep hi => ?_, fun s p level hsync h => ?_⟩
  · rw [deliver_clkout_rising hsync p hprev]
    exact t0RisingEdge_internal (s := s.setTimer0 { s.timer0 with clkPrev := true }) hcs hsleep hi
  · rcases h with h | h | ⟨h, hi⟩
    · exact deliver_clkout_flat hsync p (.inl h)
    · exact deliver_clkout_flat hsync p (.inr h)
    · rw [deliver_clkout_uninhibited h hi, t0Noted_of_sync (.inl hsync)]
      rfl

/-- Settles O25: the record of a TMR0 write starts the inhibit, which no increment passes and a rising edge lowers. -/
theorem timerWriteInhibitsIncrements : Obligations.TimerWriteInhibitsIncrements := by
  refine ⟨fun s old new => rfl, fun s p hi hprev => ?_, fun s => rfl, fun s r rs => rfl,
    fun s old new => ⟨rfl, rfl, rfl⟩⟩
  have hinhibit : (s.t0Noted true).timer0.inhibit = s.timer0.inhibit := by rw [t0Noted_timer0]
  have hnoted : (s.t0Noted true).cell Cell.tmr0 = s.cell Cell.tmr0 := t0ApplySync_tmr0_inhibited hi
  have hedge : (s.t0Noted true).t0InternalEdge.cell Cell.tmr0 = (s.t0Noted true).cell Cell.tmr0 :=
    t0InternalEdge_tmr0_inhibited (hinhibit ▸ hi)
  have hrises : (!s.timer0.clkPrev && true) = true := by rw [hprev]; rfl
  rw [deliver_clkout, if_pos hrises, t0RisingEdge_eq]
  exact ⟨hedge.trans hnoted, congrArg (· - 1) hinhibit⟩

/-! ### The external source (R292, R294) -/

/-- The edge of RA4 that T0SE selects, from the level Timer0 last saw to this one. -/
def State.t0Edge (s : State) (level : Bool) : Bool :=
  if s.t0se then s.timer0.ra4Prev && !level else !s.timer0.ra4Prev && level

theorem deliver_porta (s : State) (old new : Byte) : s.deliver (.notify .porta old new) =
    if s.t0Edge (new.getLsbD 4) && s.t0cs && !s.sleeping
      then (s.setTimer0 { s.timer0 with ra4Prev := new.getLsbD 4 }).t0Prescale .external
      else s.setTimer0 { s.timer0 with ra4Prev := new.getLsbD 4 } := rfl

theorem deliver_porta_external {s : State} (hcs : s.t0cs = true) (ha : s.sleeping = false) (old new : Byte) :
    s.deliver (.notify .porta old new) = if s.t0Edge (new.getLsbD 4)
      then (s.setTimer0 { s.timer0 with ra4Prev := new.getLsbD 4 }).t0Prescale .external
      else s.setTimer0 { s.timer0 with ra4Prev := new.getLsbD 4 } := by
  rw [deliver_porta, hcs, ha, Bool.and_true, Bool.not_false, Bool.and_true]

theorem deliver_porta_unsourced {s : State} (h : s.t0cs = false ∨ s.sleeping = true) (old new : Byte) :
    s.deliver (.notify .porta old new) = s.setTimer0 { s.timer0 with ra4Prev := new.getLsbD 4 } := by
  rw [deliver_porta, if_neg]
  rcases h with h | h <;> simp [h]

/-- Settles O28: the pin's edge through the prescaler, and the CLKOUT record that counts the pulse. -/
theorem externalPulseCountsAtTheNextClkout : Obligations.ExternalPulseCountsAtTheNextClkout := by
  refine ⟨fun s old new hcs hpsa ha => ?_, fun s old new hcs hpsa ha => deliver_porta_external hcs ha old new,
    fun s old new h => deliver_porta_unsourced h old new, fun s p level hcs ha hi => ?_⟩
  · rw [deliver_porta_external hcs ha,
      t0Prescale_watchdog (s := s.setTimer0 { s.timer0 with ra4Prev := new.getLsbD 4 }) hpsa]
    show _ = s.setTimer0 { s.timer0 with
      ra4Prev := new.getLsbD 4, sync := s.timer0.sync || s.t0Edge (new.getLsbD 4) }
    cases s.t0Edge (new.getLsbD 4)
    · rw [Bool.or_false]
      rfl
    · rw [Bool.or_true]
      rfl
  · rw [deliver_clkout_uninhibited (.inl hcs) hi, t0Noted_timer0, ha, Bool.and_false]
    refine ⟨?_, rfl⟩
    show s.t0ApplySync.cell Cell.tmr0 = _
    cases hsync : s.timer0.sync with
    | false =>
      rw [t0ApplySync_of_sync (.inl hsync)]
      rfl
    | true =>
      rw [t0ApplySync_pulse hsync ha]
      exact t0Increment_tmr0 (s := s.setTimer0 { s.timer0 with sync := false }) hi

/-! ### Asleep (R275) -/

/-- No cell, the prescaler and the synchronizer are as before. -/
def TimerHeld (s t : State) : Prop :=
  (∀ c : RegAddr, t.cell c = s.cell c) ∧ t.timer0.presc = s.timer0.presc ∧ t.timer0.sync = s.timer0.sync

theorem TimerHeld.trans {s t u : State} (h : TimerHeld s t) (k : TimerHeld t u) : TimerHeld s u :=
  ⟨fun c => (k.1 c).trans (h.1 c), k.2.1.trans h.2.1, k.2.2.trans h.2.2⟩

theorem deliver_asleep {s : State} (h : s.sleeping = true) {r : Record} (hr : ∀ old new, r ≠ .notify .tmr0 old new) :
    TimerHeld s (s.deliver r) := by
  cases r with
  | clkout p level =>
    rw [deliver_clkout_unclocked (.inr h), t0Noted_of_sync (.inr h)]
    exact ⟨fun _ => rfl, rfl, rfl⟩
  | notify m old new =>
    cases m with
    | tmr0 => exact absurd rfl (hr old new)
    | porta =>
      rw [deliver_porta_unsourced (.inr h)]
      exact ⟨fun _ => rfl, rfl, rfl⟩
    | option | intcon | status => exact ⟨fun _ => rfl, rfl, rfl⟩

/-- Settles O29, by induction on the snapshot: no delivery wakes the device. -/
theorem asleepTimerCountsNothing : Obligations.AsleepTimerCountsNothing := by
  intro s snap h hsnap
  induction snap generalizing s with
  | nil => exact ⟨fun _ => rfl, rfl, rfl⟩
  | cons r snap ih =>
    have hhead : TimerHeld s (s.deliver r) := deliver_asleep h (hsnap r (by simp))
    have hsleep : (s.deliver r).sleeping = true := (deliver_onlyTimer s r).sleeping.trans h
    exact hhead.trans (ih _ hsleep fun x hx => hsnap x (by simp [hx]))

/-! ### The prescaled rate (R291, R293, R301) -/

/-- The internal source, awake, between two instruction cycles, with no pulse waiting and no inhibit running. -/
structure InternallyClocked (s : State) : Prop where
  t0cs : s.t0cs = false
  sleeping : s.sleeping = false
  sync : s.timer0.sync = false
  clkPrev : s.timer0.clkPrev = true
  inhibit : s.timer0.inhibit = 0

theorem InternallyClocked.setPresc {s : State} (h : InternallyClocked s) (n : BitVec 8) :
    InternallyClocked (s.setTimer0 { s.timer0 with presc := n }) :=
  ⟨h.t0cs, h.sleeping, h.sync, h.clkPrev, h.inhibit⟩

/-- The four CLKOUT records of an instruction cycle are one edge of the internal source. -/
theorem drain_clkoutCycle {s : State} (h : InternallyClocked s) : s.drain clkoutCycle = s.t0Prescale .internal := by
  obtain ⟨hcs, hsleep, hsync, hprev, hi⟩ := h
  have hnote : { s.timer0 with clkPrev := true } = s.timer0 := by rw [← hprev]
  obtain ⟨n, htimer⟩ := t0Prescale_internal_timer0 s
  calc s.drain clkoutCycle
      = (((s.setTimer0 { s.timer0 with clkPrev := false }).deliver (.clkout .q2 false)).deliver
          (.clkout .q3 true)).deliver (.clkout .q4 true) := by
        rw [← deliver_clkout_flat hsync .q1 (.inr rfl)]
        rfl
    _ = ((s.setTimer0 { s.timer0 with clkPrev := false }).deliver (.clkout .q3 true)).deliver
          (.clkout .q4 true) := by
        rw [deliver_clkout_flat (s := s.setTimer0 { s.timer0 with clkPrev := false }) hsync .q2 (.inr rfl)]
        rfl
    _ = (s.t0Prescale .internal).deliver (.clkout .q4 true) := by
        rw [deliver_clkout_rising (s := s.setTimer0 { s.timer0 with clkPrev := false }) hsync .q3 rfl]
        show (s.setTimer0 { s.timer0 with clkPrev := true }).t0RisingEdge.deliver _ = _
        rw [setTimer0_eq_self hnote, t0RisingEdge_internal hcs hsleep hi]
    _ = s.t0Prescale .internal := by
        rw [deliver_clkout_flat (by rw [htimer]; exact hsync) .q4 (.inl (by rw [htimer]; exact hprev))]
        exact setTimer0_eq_self (by rw [htimer, ← hprev])

theorem drain_cycles_succ (s : State) (n : Nat) : s.drain (List.replicate (n + 1) clkoutCycle).flatten =
    (s.drain (List.replicate n clkoutCycle).flatten).drain clkoutCycle := by
  rw [List.replicate_succ', List.flatten_append, List.flatten_singleton, drain_append]

/-- Below the rate, as many instruction cycles as have passed stand in the prescaler. -/
theorem drain_cycles_counting {s : State} (h : InternallyClocked s) (hpsa : s.psa = false)
    (hpresc : s.timer0.presc = 0#8) {n : Nat} (hn : n < 2 ^ (s.ps.toNat + 1)) :
    s.drain (List.replicate n clkoutCycle).flatten = s.setTimer0 { s.timer0 with presc := BitVec.ofNat 8 n } := by
  induction n with
  | zero => exact (setTimer0_eq_self (s := s) (by rw [← hpresc])).symm
  | succ n ih =>
    have hcount : (BitVec.ofNat 8 n).toNat = n := toNat_count (s := s) (by omega)
    have hnext : (BitVec.ofNat 8 n).toNat + 1 < 2 ^ (s.ps.toNat + 1) := by omega
    rw [drain_cycles_succ, ih (by omega), drain_clkoutCycle (h.setPresc _),
      t0Prescale_counting (s := s.setTimer0 { s.timer0 with presc := BitVec.ofNat 8 n }) hpsa hnext, setTimer0_timer0,
      hcount]
    rfl

/-- Settles O24: the cycle after the last count is the one increment. -/
theorem prescaledTimerCountsOncePerRate : Obligations.PrescaledTimerCountsOncePerRate := by
  intro s hcs hpsa hsleep htimer
  have hclocked : InternallyClocked s := ⟨hcs, hsleep, by rw [htimer], by rw [htimer], by rw [htimer]⟩
  have hpresc : s.timer0.presc = 0#8 := by rw [htimer]
  have hbelow {n : Nat} (hn : n < 2 ^ (s.ps.toNat + 1)) := drain_cycles_counting hclocked hpsa hpresc hn
  obtain ⟨m, hm⟩ : ∃ m, 2 ^ (s.ps.toNat + 1) = m + 1 := Nat.exists_eq_add_one.mpr (Nat.two_pow_pos _)
  have hfull : s.drain (List.replicate (2 ^ (s.ps.toNat + 1)) clkoutCycle).flatten = s.t0Increment := by
    have hcount : (BitVec.ofNat 8 m).toNat = m := toNat_count (s := s) (by omega)
    have hlast : 2 ^ (s.ps.toNat + 1) ≤ (BitVec.ofNat 8 m).toNat + 1 := by omega
    rw [hm, drain_cycles_succ, hbelow (by omega), drain_clkoutCycle (hclocked.setPresc _),
      t0Prescale_full (s := s.setTimer0 { s.timer0 with presc := BitVec.ofNat 8 m }) hpsa hlast]
    show (s.setTimer0 { s.timer0 with presc := 0#8 }).t0Increment = _
    rw [setTimer0_eq_self (by rw [← hpresc])]
  rw [hfull]
  exact ⟨t0Increment_tmr0 hclocked.inhibit, t0Increment_timer0 s, fun n hn => by rw [hbelow hn, setTimer0_cell]⟩

end Sys2Proof.Machine
end

/-! ## Control reset (70_reset_and_hazards.md R331, R332)

Every cell holds its preload or zero, but for the general-purpose cells that a draw reaches under `GPR_RESET = unknown`; no
preloaded cell is one of those, so the order of the two tests does not matter. -/
section
namespace Sys2Proof.Machine

theorem controlReset_cell (s : State) (c : RegAddr) :
    s.controlReset.cell c = Store.read resetByte (resetRegs s.params s.drawCount) c.toNat := rfl

theorem controlReset_cell_zero {s : State} (h : s.params.gprReset = .zero) (c : RegAddr) :
    s.controlReset.cell c = resetByte c.toNat :=
  resetRegs_read_zero h s.drawCount c

theorem controlReset_cell_unknown {s : State} (h : s.params.gprReset = .unknown) (c : RegAddr) :
    s.controlReset.cell c =
      if 0x20 ≤ (offsetOf c).toNat ∧ resolve s.params c = some c then Config.gprDraw s.drawCount c.toNat
      else resetByte c.toNat := by
  simp only [controlReset_cell, resetRegs_read_unknown h, mem_gprCells]

theorem controlReset_pch_separate {s : State} (h : s.params.pcModel = .separatePch) : s.controlReset.pch = 0#5 := by
  simp only [State.controlReset, h]

/-- The cells that R332 preloads lie below offset 0x20. -/
theorem not_preloaded_of_offset_ge {c : RegAddr} (h : 0x20 ≤ (offsetOf c).toNat) :
    c ≠ Cell.status ∧ c ≠ Cell.option ∧ c ≠ Cell.trisa ∧ c ≠ Cell.trisb ∧ c ≠ Cell.pcon ∧ c ≠ Cell.pr2 ∧
      c ≠ Cell.txsta := by
  have hc : c ∉ preload.map Prod.fst := fun hc => Nat.not_le.mpr (preloaded_special c hc) h
  simpa [preload] using hc

/-- Settles O19: the register file by `resetByte` and this reset's draws, every other field by evaluation. -/
theorem controlResetLeavesTheResetState : Obligations.ControlResetLeavesTheResetState := by
  refine fun s => ⟨_, rfl, rfl, rfl, fun hz c => ?_, fun hu c => ?_, controlReset_pch_separate, rfl, rfl, rfl, rfl, rfl,
    rfl, rfl, rfl, rfl, rfl, rfl, rfl, rfl, rfl, rfl⟩
  · rw [controlReset_cell_zero hz, resetByte_toNat]
  · rw [controlReset_cell_unknown hu]
    by_cases hg : 0x20 ≤ (offsetOf c).toNat ∧ resolve s.params c = some c
    · obtain ⟨h1, h2, h3, h4, h5, h6, h7⟩ := not_preloaded_of_offset_ge hg.1
      simp only [if_pos hg, if_neg h1, if_neg h2, if_neg h3, if_neg h4, if_neg h5, if_neg h6, if_neg h7]
    · simp only [if_neg hg, resetByte_toNat]

end Sys2Proof.Machine
end
